-- ==== Sys2Proof/Word.lean ====
section
/-! DEFINITION. The widths of HTD's quantities (00_scope.md R7 to R9). All are unsigned (R11). -/

namespace Sys2Proof

/-- A word of the host port, `DATA_W = 32` bits (R9, R60). -/
abbrev Word := BitVec 32

/-- A byte of BYTE_IN or BYTE_OUT, `BYTE_W = 8` bits (R7). -/
abbrev Byte := BitVec 8

/-- A symbol of the 128-symbol alphabet, `SYM_W = 7` bits (R7, R16). -/
abbrev Symbol := BitVec 7

/-- The index of a tree node, `IDX_W = 8` bits; 255 names no node (R8). -/
abbrev NodeIndex := BitVec 8

/-- A word index of the host port, `ADDR_W = 9` bits (R9). -/
abbrev PortIndex := BitVec 9

/-- A symbol count, `TOTAL_W = 39` bits (R8). -/
abbrev Total := BitVec 39

/-- A host-port transaction, format PORT, 42 bits (R90). -/
abbrev PortWord := BitVec 42

end Sys2Proof
end

