-- ==== Sys2Proof/Config.lean ====
section
/-! DEFINITION. The parameters of 00_scope.md R7 to R10. HTD has no free value: no operation leaves a value
undefined. The two open parameters of R10 are arguments of the host contract's header functions. -/

namespace Sys2Proof

/-- `N_SYM`: the alphabet has 128 symbols (R7). -/
abbrev Config.nSym : Nat := 128

/-- `N_NODE = 2 × N_SYM − 1`: the most nodes of a strict tree with one leaf per symbol (R8). -/
abbrev Config.nNode : Nat := 255

/-- `CODE_MAX = N_SYM − 1`: the longest code in bits (R8). -/
abbrev Config.codeMax : Nat := 127

/-- `TM_BASE`: the word index of `TM[0]` in the host port (R9). -/
abbrev Config.tmBase : Nat := 0x100

/-- The index that names no node (R8). -/
abbrev Config.noNode : NodeIndex := 255

/-- `HDR_ENTRIES`: the header holds one integer per symbol (R7). Host contract only. -/
abbrev Config.hdrEntries : Nat := 128

/-- `HDR_BYTES`: the header's size (R7). Host contract only. -/
abbrev Config.hdrBytes : Nat := 512

/-- `HDR_BYTE_ORDER`, left open by the spec (R10, D16): the byte order of a 32-bit header integer. -/
inductive Config.ByteOrder where
  | big
  | little
  deriving DecidableEq, Repr

/-- `HDR_SIGNED`, left open by the spec (R10, D16): how a header integer is read. -/
inductive Config.Signedness where
  | unsignedInt
  | signedInt
  deriving DecidableEq, Repr

end Sys2Proof
end

