-- ==== Sys2Proof/Syntax.lean ====
section
/-! DEFINITION. The thirteen operations of HTD (one constructor per row of spec/opcode_table.json), the two forms
in which the host presents one, and the names of the register map. -/

namespace Sys2Proof

/-- An operation of HTD: the eleven commands (30_encoding.md R96) and the two host-port transactions (R90). -/
inductive Instr where
  /-- `NOP`, R205. -/
  | nop
  /-- `RESET`, R206. -/
  | reset
  /-- `PK_OPEN`, R121. -/
  | pkOpen
  /-- `PK_WBIT b`, R122; the operand is bit 8 of the command word (R95). -/
  | pkWbit (b : Bool)
  /-- `PK_CLOSE`, R124. -/
  | pkClose
  /-- `UP_OPEN`, R142. -/
  | upOpen
  /-- `UP_GBIT`, R143. -/
  | upGbit
  /-- `TW_START`, R162. -/
  | twStart
  /-- `TW_STEP`, R163. -/
  | twStep
  /-- `TW_RUN`, R169. -/
  | twRun
  /-- `TW_STOP`, R170. -/
  | twStop
  /-- `HREAD a`, R200. -/
  | hread (a : PortIndex)
  /-- `HWRITE a, d`, R201. -/
  | hwrite (a : PortIndex) (d : Word)
  deriving DecidableEq, Repr

/-- An operation as the host presents it (R17: "a command or a host-port read or write"), in one of the two
control formats of R91. DESIGN CHOICE (log entry 1): a bare command word stands for the write of it to CMD. -/
inductive HostOp where
  /-- A command word, format CMD (R92). -/
  | cmd (w : Word)
  /-- A port transaction, format PORT (R90). -/
  | port (t : PortWord)
  deriving DecidableEq, Repr

/-- Why a command word is illegal: the three grounds of R97. -/
inductive CmdReject where
  /-- Bits 31:9 are not all zero. -/
  | reservedBits
  /-- Bits 7:0 are none of the eleven opcodes. -/
  | unknownOpcode
  /-- Bit 8 is set on a command that takes no operand. -/
  | strayArg
  deriving DecidableEq, Repr

/-- What a word index of the host port names (10_state.md R40; the map is complete). -/
inductive HostReg where
  | cmd
  | status
  | result
  | err
  | twRoot
  | twTotalLo
  | twTotalHi
  | twRemLo
  | twRemHi
  | twCur
  | pkState
  | upState
  /-- The tree-memory window, entry i. -/
  | tm (i : Fin Config.nNode)
  | unmapped
  deriving DecidableEq, Repr

end Sys2Proof
end

