-- ==== Sys2Proof/WellFormed.lean ====
section
/-! DEFINITION. Which command words are legal (30_encoding.md R97, "Equivalently: ..."), check by check, and which
instructions carry only legal ones. Every operand's range is in its type, so nothing else can be ill-formed (R98). -/

namespace Sys2Proof

/-- R92: bits 31:9 must be 0. -/
def cmdReservedZero (w : Word) : Bool := w.extractLsb' 9 23 == 0

/-- R97: bits 7:0 are one of the eleven opcodes. -/
def cmdOpcodeKnown (w : Word) : Bool :=
  [0x00, 0x01, 0x10, 0x11, 0x12, 0x20, 0x21, 0x30, 0x31, 0x32, 0x33].contains (w.extractLsb' 0 8)

/-- R92, R97: bit 8 may be set on `PK_WBIT` alone. -/
def cmdArgAllowed (w : Word) : Bool := !w.getLsbD 8 || w.extractLsb' 0 8 == 0x11

/-- The three checks together: `w` is one of the eleven commands. -/
def cmdWellFormed (w : Word) : Bool := cmdReservedZero w && cmdOpcodeKnown w && cmdArgAllowed w

/-- An instruction is ill-formed only as a write of an illegal word to CMD (index 0x000). The machine gives that
one a meaning too, the refusal ILLEGAL_CMD (R261). -/
def Instr.wellFormed : Instr → Bool
  | .nop => true
  | .reset => true
  | .pkOpen => true
  | .pkWbit _ => true
  | .pkClose => true
  | .upOpen => true
  | .upGbit => true
  | .twStart => true
  | .twStep => true
  | .twRun => true
  | .twStop => true
  | .hread _ => true
  | .hwrite a d => a != 0 || cmdWellFormed d

end Sys2Proof
end

