-- ==== Sys2Proof/Decode.lean ====
section
/-! DEFINITION. Decoding of command words (30_encoding.md R92, R96, R97) and of port transactions (R90), total and
rejecting by name, and the encoder written from the same tables. -/

namespace Sys2Proof

/-- A row of the opcode map R96: `w` is the row's command when `w & mask = pattern`. -/
structure CmdRow where
  pattern : Word
  mask : Word
  command : Word → Instr

/-- The opcode map, in the table's order (R96). -/
def cmdTable : List CmdRow :=
  [ ⟨0x00000000, 0xFFFFFFFF, fun _ => .nop⟩,
    ⟨0x00000001, 0xFFFFFFFF, fun _ => .reset⟩,
    ⟨0x00000010, 0xFFFFFFFF, fun _ => .pkOpen⟩,
    ⟨0x00000011, 0xFFFFFEFF, fun w => .pkWbit (w.getLsbD 8)⟩,
    ⟨0x00000012, 0xFFFFFFFF, fun _ => .pkClose⟩,
    ⟨0x00000020, 0xFFFFFFFF, fun _ => .upOpen⟩,
    ⟨0x00000021, 0xFFFFFFFF, fun _ => .upGbit⟩,
    ⟨0x00000030, 0xFFFFFFFF, fun _ => .twStart⟩,
    ⟨0x00000031, 0xFFFFFFFF, fun _ => .twStep⟩,
    ⟨0x00000032, 0xFFFFFFFF, fun _ => .twRun⟩,
    ⟨0x00000033, 0xFFFFFFFF, fun _ => .twStop⟩ ]

/-- `w` is the command of the row (R96). -/
def cmdRowMatches (w : Word) (r : CmdRow) : Bool := w &&& r.mask == r.pattern

/-- The ground on which R97 calls a word illegal, in the order R97 names them. -/
def cmdRejectReason (w : Word) : CmdReject :=
  if !cmdReservedZero w then .reservedBits
  else if !cmdOpcodeKnown w then .unknownOpcode
  else .strayArg

/-- Decoding a command word (R97): the command of the row it matches, else illegal, by name. -/
def decodeCmd (w : Word) : Except CmdReject Instr :=
  match cmdTable.find? (cmdRowMatches w) with
  | some r => .ok (r.command w)
  | none => .error (cmdRejectReason w)

/-- Decoding a port transaction (R90): WE is bit 41, ADDR bits 40:32, WDATA bits 31:0. Every ADDR is legal (R98). -/
def decodePort (t : PortWord) : Instr :=
  if t.getLsbD 41 then .hwrite (t.extractLsb' 32 9) (t.extractLsb' 0 32)
  else .hread (t.extractLsb' 32 9)

/-- Decoding an operation in either control format (R91). -/
def decodeOp : HostOp → Except CmdReject Instr
  | .cmd w => decodeCmd w
  | .port t => .ok (decodePort t)

/-- The command word of an operation (R96), for the two port transactions their PORT tuple (R90). HREAD ignores
WDATA, so the encoder leaves it zero. -/
def encode : Instr → HostOp
  | .nop => .cmd 0x00000000
  | .reset => .cmd 0x00000001
  | .pkOpen => .cmd 0x00000010
  | .pkWbit b => .cmd (0x00000011 ||| (BitVec.ofBool b).setWidth 32 <<< 8)
  | .pkClose => .cmd 0x00000012
  | .upOpen => .cmd 0x00000020
  | .upGbit => .cmd 0x00000021
  | .twStart => .cmd 0x00000030
  | .twStep => .cmd 0x00000031
  | .twRun => .cmd 0x00000032
  | .twStop => .cmd 0x00000033
  | .hread a => .port (0#1 ++ a ++ 0#32)
  | .hwrite a d => .port (1#1 ++ a ++ d)

/-- The port transaction an operation is (R100): a command is the write of its word to index 0x000. -/
def HostOp.transaction : HostOp → PortWord
  | .cmd w => 1#1 ++ 0#9 ++ w
  | .port t => t

/-- The operation whose bits are `w`, by the table's own width: rows of at most 32 bits are CMD words, the 42-bit
rows PORT transactions. Bits the format does not have must be zero. -/
def tableOp (nbits w : Nat) : Option HostOp :=
  if nbits ≤ 32 then
    if w < 2 ^ 32 then some (.cmd (BitVec.ofNat 32 w)) else none
  else
    if w < 2 ^ 42 then some (.port (BitVec.ofNat 42 w)) else none

/-- The instruction the decoder reads from bits numbered as spec/opcode_table.json numbers them. -/
def decodeTableWord (nbits w : Nat) : Option Instr :=
  match tableOp nbits w with
  | none => none
  | some op =>
    match decodeOp op with
    | .ok i => some i
    | .error _ => none

end Sys2Proof
end

