-- ==== Sys2Proof/Machine/State.lean ====
section
/-! DEFINITION. HTD's state (10_state.md R20), the three streams and the port's pending operations, as plain data,
and the state right after reset (R54). -/

namespace Sys2Proof.Machine

/-- TW_STATE (R32). The values 5 to 7 never occur and have no constructor (93_implementation_defined.md V8). -/
inductive TwState where
  | idle
  | running
  | done
  | truncated
  | malformed
  deriving DecidableEq, Repr

/-- RESULT.CODE (R35). The codes that are never produced have no constructor (93_implementation_defined.md V8). -/
inductive Code where
  | ok
  | eos
  | done
  | truncated
  | malformed
  | illegalCmd
  | busy
  | pkClosed
  | notRunning
  deriving DecidableEq, Repr

/-- The seven causes (60_exceptions.md R260), one per bit of ERR. -/
inductive Cause where
  | illegalCmd
  | busy
  | pkClosed
  | notRunning
  | badAddr
  | truncated
  | malformed
  deriving DecidableEq, Repr

/-- RESULT, the response to the latest command (R35). -/
structure Result where
  code : Code
  bitv : Bool
  bit : Bool
  symv : Bool
  sym : Symbol
  deriving DecidableEq, Repr

/-- A written tree-memory entry (R34). -/
structure TmEntry where
  sym : Symbol
  lv : Bool
  left : NodeIndex
  rv : Bool
  right : NodeIndex
  deriving DecidableEq, Repr

/-- The tree memory: the written entries by index, in the canonical form of `Memory.wf`; an index that is not
listed is unwritten (R34). DESIGN CHOICE (log entry 4): one cell is one entry, the unit in which R60 and R61 give access. -/
abbrev Memory := List (Nat × TmEntry)

/-- The machine: HTD's whole state (R20), then the environment of R55 and the port. -/
structure State where
  /-- PK_ACC, the packer's byte buffer (R21). -/
  pkAcc : Byte
  /-- PK_CNT, how many bits PK_ACC holds (R22). -/
  pkCnt : BitVec 3
  /-- PK_CLOSED (R23). -/
  pkClosed : Bool
  /-- UP_BUF, the last byte pulled (R25). -/
  upBuf : Byte
  /-- UP_CNT, how many bits of UP_BUF are undelivered, 0..8 (R26). -/
  upCnt : Fin 9
  /-- UP_EOS (R27). -/
  upEos : Bool
  /-- TW_ROOT (R28). -/
  twRoot : NodeIndex
  /-- TW_TOTAL (R29). -/
  twTotal : Total
  /-- TW_REM (R31). -/
  twRem : Total
  /-- TW_CUR (R30). -/
  twCur : NodeIndex
  /-- TW_STATE (R32). -/
  twState : TwState
  /-- TM[0..254] (R34). -/
  tm : Memory
  /-- RESULT (R35). -/
  result : Result
  /-- ERR, bit n as R36 numbers them. -/
  err : BitVec 7
  /-- BYTE_IN: the bytes not yet taken, first one next (R63). -/
  byteIn : List Byte
  /-- BYTE_OUT: the bytes pushed so far, oldest first (R64). -/
  byteOut : List Byte
  /-- SYM_OUT: the symbols pushed so far, oldest first (R65). -/
  symOut : List Symbol
  /-- RDATA: the word the latest host read returned (R90, R200). The model's own field (log entry 3). -/
  rdata : Word
  /-- The operations the host will issue, first one next (R70). The model's own field (log entry 1). -/
  port : List HostOp
  deriving DecidableEq, Repr

/-- A stop of the machine. HTD has no trap, and every cause of R260 is a next state. -/
inductive Fault where
  /-- Raised by TW_RUN alone, if its loop outlasted `walkBound`. Never raised, since the bound of R171 holds in
  every state. Safe: a stop where the hardware would go on. -/
  | walkOutlastsBound
  deriving DecidableEq, Repr

/-- An instruction that has no meaning. -/
inductive Refusal where
  /-- Raised by an arm of `exec` whose instruction is not modelled. No arm raises it. Safe: the machine stops. -/
  | notModelled (mnemonic : String)
  deriving DecidableEq, Repr

/-- The state after reset (R54). The streams and the port, which reset does not touch (R67), are empty: DESIGN
CHOICE (log entries 1 and 2). RDATA is 0: DESIGN CHOICE (log entry 3). -/
def State.reset : State where
  pkAcc := 0x00
  pkCnt := 0
  pkClosed := false
  upBuf := 0x00
  upCnt := 0
  upEos := false
  twRoot := 0
  twTotal := 0
  twRem := 0
  twCur := 0
  twState := .idle
  tm := []
  result := { code := .ok, bitv := false, bit := false, symv := false, sym := 0 }
  err := 0
  byteIn := []
  byteOut := []
  symOut := []
  rdata := 0
  port := []

end Sys2Proof.Machine
end

