-- ==== Sys2Proof/Machine/Flags.lean ====
section
/-! DEFINITION. The numbers of the state, result and error codes, the ERR bits, and the RESULT values commands leave. -/

namespace Sys2Proof.Machine

/-- The number of a TW_STATE (10_state.md R32). -/
def TwState.toBits : TwState → BitVec 3
  | .idle => 0
  | .running => 1
  | .done => 2
  | .truncated => 3
  | .malformed => 4

/-- The number of a RESULT.CODE (R35). -/
def Code.toBits : Code → BitVec 4
  | .ok => 0
  | .eos => 1
  | .done => 2
  | .truncated => 3
  | .malformed => 4
  | .illegalCmd => 8
  | .busy => 9
  | .pkClosed => 10
  | .notRunning => 11

/-- `CODE = TW_STATE` of TW_RUN's response (42_tree_walker.md R169): the code with the state's number. -/
def TwState.runCode : TwState → Code
  | .idle => .ok
  | .running => .eos
  | .done => .done
  | .truncated => .truncated
  | .malformed => .malformed

/-- The position of a cause's bit in ERR (R36, R260). -/
def Cause.bitIndex : Cause → Nat
  | .illegalCmd => 0
  | .busy => 1
  | .pkClosed => 2
  | .notRunning => 3
  | .badAddr => 4
  | .truncated => 5
  | .malformed => 6

/-- The ERR word with a cause's bit alone (R36). -/
def Cause.mask (c : Cause) : BitVec 7 := 1#7 <<< c.bitIndex

/-- The RESULT code of a cause (R260). BAD_ADDR has none and is never put into RESULT. -/
def Cause.code? : Cause → Option Code
  | .illegalCmd => some .illegalCmd
  | .busy => some .busy
  | .pkClosed => some .pkClosed
  | .notRunning => some .notRunning
  | .badAddr => none
  | .truncated => some .truncated
  | .malformed => some .malformed

/-- `RESULT <- {CODE = c, BITV = 0, BIT = 0, SYMV = 0, SYM = 0}`. -/
def Result.ofCode (c : Code) : Result :=
  { code := c, bitv := false, bit := false, symv := false, sym := 0 }

/-- `RESULT <- {CODE = c, BITV = 1, BIT = b, SYMV = 0, SYM = 0}`. -/
def Result.ofBit (c : Code) (b : Bool) : Result :=
  { code := c, bitv := true, bit := b, symv := false, sym := 0 }

/-- `RESULT <- {CODE = c, BITV = 0, BIT = 0, SYMV = 1, SYM = x}`. -/
def Result.ofSym (c : Code) (x : Symbol) : Result :=
  { code := c, bitv := false, bit := false, symv := true, sym := x }

end Sys2Proof.Machine
end

