-- ==== Sys2Proof/Machine/Operands.lean ====
section
/-! DEFINITION. The operand forms: the register map (10_state.md R40), the word each register reads as (R41 to R51),
the fields a host write takes from its word (30_encoding.md R95), and the tree-memory word (R93). -/

namespace Sys2Proof.Machine

/-- What a word index names (R40). -/
def regAt (a : PortIndex) : HostReg :=
  match a.toNat with
  | 0x000 => .cmd
  | 0x001 => .status
  | 0x002 => .result
  | 0x003 => .err
  | 0x004 => .twRoot
  | 0x005 => .twTotalLo
  | 0x006 => .twTotalHi
  | 0x007 => .twRemLo
  | 0x008 => .twRemHi
  | 0x009 => .twCur
  | 0x00A => .pkState
  | 0x00B => .upState
  | n =>
    if h : Config.tmBase ≤ n ∧ n < Config.tmBase + Config.nNode then
      .tm ⟨n - Config.tmBase, by have := h.1; have := h.2; omega⟩
    else .unmapped

/-- The entry a TMENT word describes; bits 7, 30:26 and 31 are ignored (R93). -/
def tmEntryOfWord (w : Word) : TmEntry :=
  { sym := w.extractLsb' 0 7
    left := w.extractLsb' 8 8
    right := w.extractLsb' 16 8
    lv := w.getLsbD 24
    rv := w.getLsbD 25 }

/-- The TMENT word of a written entry: bit 31 (WRITTEN) is 1, the reserved bits are 0 (R93, R51). -/
def wordOfTmEntry (e : TmEntry) : Word :=
  1#1 ++ 0#5 ++ BitVec.ofBool e.rv ++ BitVec.ofBool e.lv ++ e.right ++ e.left ++ 0#1 ++ e.sym

/-- What a tree-memory index reads as: 0 when unwritten (R51). -/
def tmReadWord : Option TmEntry → Word
  | none => 0
  | some e => wordOfTmEntry e

/-- STATUS: TW_STATE in bits 2:0, UP_EOS in bit 3, PK_CLOSED in bit 4 (R42). -/
def statusWord (s : State) : Word :=
  0#27 ++ BitVec.ofBool s.pkClosed ++ BitVec.ofBool s.upEos ++ s.twState.toBits

/-- RESULT: CODE 3:0, BITV 4, BIT 5, SYMV 6, SYM 14:8 (R43). -/
def resultWord (r : Result) : Word :=
  0#17 ++ r.sym ++ 0#1 ++ BitVec.ofBool r.symv ++ BitVec.ofBool r.bit ++ BitVec.ofBool r.bitv ++ r.code.toBits

/-- PK_STATE: PK_ACC in bits 7:0, PK_CNT in bits 10:8 (R49). -/
def pkStateWord (s : State) : Word := 0#21 ++ s.pkCnt ++ s.pkAcc

/-- UP_STATE: UP_BUF in bits 7:0, UP_CNT in bits 11:8 (R50). -/
def upStateWord (s : State) : Word := 0#20 ++ BitVec.ofNat 4 s.upCnt.val ++ s.upBuf

/-- The low half of a 39-bit count, bits 31:0 (R46, R47). -/
def totalLo (n : Total) : Word := n.extractLsb' 0 32

/-- The high half of a 39-bit count, bits 38:32, zero-extended (R46, R47). -/
def totalHi (n : Total) : Word := 0#25 ++ n.extractLsb' 32 7

/-- A host write of `w` to TW_TOTAL_LO (R46). -/
def withTotalLo (n : Total) (w : Word) : Total := n.extractLsb' 32 7 ++ w

/-- A host write of `w` to TW_TOTAL_HI: bits 6:0 of the word, the rest ignored (R46). -/
def withTotalHi (n : Total) (w : Word) : Total := w.extractLsb' 0 7 ++ n.extractLsb' 0 32

/-- A host write of `w` to TW_ROOT: bits 7:0 of the word, the rest ignored (R45). -/
def rootOfWord (w : Word) : NodeIndex := w.extractLsb' 0 8

/-- The clear mask of a host write of `w` to ERR: bits 6:0 of the word, the rest ignored (R44). -/
def errMaskOfWord (w : Word) : BitVec 7 := w.extractLsb' 0 7

end Sys2Proof.Machine
end

