-- ==== Sys2Proof/Machine/Ops.lean ====
section
/-! DEFINITION. The shared operations: tree memory, streams, how a cause is reported, GetBit(), the walker's
micro-step and its loop, and the issue of the host's next operation. -/

namespace Sys2Proof.Machine

/-! ## Tree memory -/

/-- The entry at index `i`, `none` when unwritten (10_state.md R34). -/
def Memory.read : Memory → Nat → Option TmEntry
  | [], _ => none
  | (j, e) :: m, i => if i = j then some e else if i < j then none else Memory.read m i

/-- `TM[i] <- e`: the entry is now written (R51). -/
def Memory.write : Memory → Nat → TmEntry → Memory
  | [], i, e => [(i, e)]
  | (j, f) :: m, i, e =>
    if i < j then (i, e) :: (j, f) :: m
    else if i = j then (i, e) :: m
    else (j, f) :: Memory.write m i e

/-- The listed indices rise strictly from `lo` on and are indices of TM. -/
def Memory.wfFrom : Nat → Memory → Bool
  | _, [] => true
  | lo, (j, _) :: m => lo ≤ j && j < Config.nNode && Memory.wfFrom (j + 1) m

/-- The canonical form: strictly rising indices below 255. What an unlisted index reads as (unwritten) is the value
of no listed entry, by the types. -/
def Memory.wf (m : Memory) : Bool := Memory.wfFrom 0 m

/-- The walker's fetch (42_tree_walker.md R165): `none` when TW_CUR names no node or the entry is unwritten. -/
def fetchNode (s : State) : Option TmEntry :=
  if s.twCur = Config.noNode then none else Memory.read s.tm s.twCur.toNat

/-- A written entry without children is a leaf (R34). -/
def TmEntry.isLeaf (e : TmEntry) : Bool := !e.lv && !e.rv

/-- The child on the edge `b`: left on 0, right on 1, `none` when absent (R168). -/
def TmEntry.child (e : TmEntry) (b : Bool) : Option NodeIndex :=
  if b then (if e.rv then some e.right else none)
  else (if e.lv then some e.left else none)

/-! ## Streams -/

/-- `SrcPull()`: the next byte of BYTE_IN, or `none` for `End`, which changes nothing (20_memory.md R63). -/
def srcPull (s : State) : Option Byte × State :=
  match s.byteIn with
  | [] => (none, s)
  | b :: rest => (some b, { s with byteIn := rest })

/-- `SinkPush(b)`: append to BYTE_OUT (R64). -/
def sinkPush (b : Byte) (s : State) : State := { s with byteOut := s.byteOut ++ [b] }

/-- `SymPush(x)`: append to SYM_OUT (R65). -/
def symPush (x : Symbol) (s : State) : State := { s with symOut := s.symOut ++ [x] }

/-- The byte form of a symbol where SYM_OUT is a byte stream: bit 7 is 0 (R65). -/
def symbolByte (x : Symbol) : Byte := x.setWidth 8

/-! ## Reporting -/

/-- `RESULT <- r`. -/
def respond (r : Result) (s : State) : State := { s with result := r }

/-- Sets the sticky ERR bit of a cause and nothing else (10_state.md R36). -/
def flag (c : Cause) (s : State) : State := { s with err := s.err ||| c.mask }

/-- How a cause with a RESULT code is raised, the one operation behind refusals and walker stops (60_exceptions.md R270):
nothing is saved and control goes nowhere; RESULT and the cause's ERR bit are written. -/
def raise (c : Cause) (r : Result) (s : State) : State := respond r (flag c s)

/-- `refuse c` (00_scope.md R14): RESULT holds the cause's code and the ERR bit is set. -/
def refuse (c : Cause) (s : State) : State :=
  match c.code? with
  | some k => raise c (Result.ofCode k) s
  | none => flag c s

/-- `raise Truncated` (R266). -/
def stopTruncated (s : State) : State :=
  raise .truncated (Result.ofCode .truncated) { s with twState := .truncated }

/-- `raise Malformed` (R267), with the response the micro-step gives. -/
def stopMalformed (r : Result) (s : State) : State :=
  raise .malformed r { s with twState := .malformed }

/-- The way back from a cause (R273, 43_system.md R203): there is no return operation; the host clears ERR bits by
writing 1 to them. -/
def clearErr (mask : BitVec 7) (s : State) : State := { s with err := s.err &&& ~~~mask }

/-- The command completes with OK. -/
def completeOk (s : State) : State := respond (Result.ofCode .ok) s

/-! ## The unpacker's GetBit() -/

/-- The last part of `GetBit()`: hand out the next bit of a non-empty UP_BUF, most-significant first. -/
def deliverBit (s : State) : Option Bool × State :=
  (some (s.upBuf.getLsbD (s.upCnt.val - 1)), { s with upCnt := ⟨s.upCnt.val - 1, by omega⟩ })

/-- `GetBit()` (41_bit_unpacker.md R141): `none` is EOS. -/
def getBit (s : State) : Option Bool × State :=
  if s.upEos then (none, s)
  else if s.upCnt = 0 then
    match srcPull s with
    | (none, s') => (none, { s' with upEos := true })
    | (some b, s') => deliverBit { s' with upBuf := b, upCnt := 8 }
  else deliverBit s

/-! ## The walker's micro-step -/

/-- Part 2 of `WalkStep()`, a leaf (R166): emit, count down, restart at the root, DONE when nothing is owed. -/
def emitLeaf (e : TmEntry) (s : State) : State :=
  let s' := { symPush e.sym s with twRem := s.twRem - 1, twCur := s.twRoot }
  if s'.twRem = 0 then respond (Result.ofSym .done e.sym) { s' with twState := .done }
  else respond (Result.ofSym .ok e.sym) s'

/-- Part 4 of `WalkStep()`, descent on the bit `b` (R168). -/
def descend (e : TmEntry) (b : Bool) (s : State) : State :=
  match e.child b with
  | some i => respond (Result.ofBit .ok b) { s with twCur := i }
  | none => stopMalformed (Result.ofBit .malformed b) s

/-- Part 3 of `WalkStep()`, one bit (R167), then part 4. -/
def readAndDescend (e : TmEntry) (s : State) : State :=
  match getBit s with
  | (none, s') => stopTruncated s'
  | (some b, s') => descend e b s'

/-- `WalkStep()` (R164). -/
def walkStep (s : State) : State :=
  match fetchNode s with
  | none => stopMalformed (Result.ofCode .malformed) s
  | some e => if e.isLeaf then emitLeaf e s else readAndDescend e s

/-- The loop of TW_RUN (R169), given at most `n` micro-steps; `none` when they do not suffice. -/
def walkRun : Nat → State → Option State
  | 0, s => if s.twState = .running then none else some s
  | n + 1, s => if s.twState = .running then walkRun n (walkStep s) else some s

/-- How many emissions bring TW_REM to 0. In every reachable RUNNING state this is TW_REM itself (10_state.md
R33); from 0 the 39-bit register would wrap (log entry 5). -/
def owed (s : State) : Nat := if s.twRem = 0 then 2 ^ 39 else s.twRem.toNat

/-- The bound of R171 on the micro-steps of TW_RUN, with what is still owed in the place of TW_TOTAL. -/
def walkBound (s : State) : Nat := owed s + 8 * s.byteIn.length + s.upCnt.val + 1

/-! ## The host's next operation -/

/-- The instruction an operation is. An illegal command word decodes to no command, and is then what it is on the
port (R100): a write of that word to CMD, which HWRITE refuses with ILLEGAL_CMD (R98, R261). -/
def issued (op : HostOp) : Instr :=
  match decodeOp op with
  | .ok i => i
  | .error _ => decodePort op.transaction

/-- The host issues its next operation (R70): the instruction, and the state with the operation taken. -/
def fetchOp (s : State) : Option (Instr × State) :=
  match s.port with
  | [] => none
  | op :: rest => some (issued op, { s with port := rest })

end Sys2Proof.Machine
end

