-- ==== Sys2Proof/Machine/Packer.lean ====
section
/-! DEFINITION. The bit packer, unit PK (40_bit_packer.md R120 to R126). -/

namespace Sys2Proof.Machine

/-- `PK_OPEN` (R121). -/
def execPkOpen (s : State) : Host.Outcome State Fault Refusal :=
  .next (completeOk { s with pkAcc := 0, pkCnt := 0, pkClosed := false })

/-- `PK_ACC | (b << (7 - PK_CNT))` (R122, R207 d). -/
def placeBit (acc : Byte) (cnt : BitVec 3) (b : Bool) : Byte :=
  acc ||| (BitVec.ofBool b).setWidth 8 <<< (7 - cnt.toNat)

/-- The accumulation of one bit (R122): the eighth bit pushes the byte in the same operation. -/
def packBit (b : Bool) (s : State) : State :=
  let acc := placeBit s.pkAcc s.pkCnt b
  if s.pkCnt = 7 then { sinkPush acc s with pkAcc := 0, pkCnt := 0 }
  else { s with pkAcc := acc, pkCnt := s.pkCnt + 1 }

/-- `PK_WBIT b` (R122), refused with PK_CLOSED once closed (R123). -/
def execPkWbit (b : Bool) (s : State) : Host.Outcome State Fault Refusal :=
  if s.pkClosed then .next (refuse .pkClosed s)
  else .next (completeOk (packBit b s))

/-- The flush of a partial byte (R124): nothing is pushed on a byte boundary. -/
def flushByte (s : State) : State :=
  if s.pkCnt = 0 then s else { sinkPush s.pkAcc s with pkAcc := 0, pkCnt := 0 }

/-- `PK_CLOSE` (R124): a second close changes nothing. -/
def execPkClose (s : State) : Host.Outcome State Fault Refusal :=
  if s.pkClosed then .next (completeOk s)
  else .next (completeOk { flushByte s with pkClosed := true })

end Sys2Proof.Machine
end

