-- ==== Sys2Proof/Machine/System.lean ====
section
/-! DEFINITION. The system commands NOP and RESET (43_system.md R205, R206). -/

namespace Sys2Proof.Machine

/-- `NOP` (R205): RESULT is overwritten with OK, nothing else changes. -/
def execNop (s : State) : Host.Outcome State Fault Refusal := .next (completeOk s)

/-- `RESET` (R206): every register and every TM entry to its reset value (R54), RESULT to OK. The three streams,
and what stands on the host's side of the port, are not touched (20_memory.md R67). -/
def execReset (s : State) : Host.Outcome State Fault Refusal :=
  .next (completeOk
    { State.reset with
      byteIn := s.byteIn, byteOut := s.byteOut, symOut := s.symOut, rdata := s.rdata, port := s.port })

end Sys2Proof.Machine
end

