-- ==== Sys2Proof/Machine/Unpacker.lean ====
section
/-! DEFINITION. The bit unpacker's commands, unit UP (41_bit_unpacker.md R142, R143). -/

namespace Sys2Proof.Machine

/-- `UP_OPEN` (R142). -/
def execUpOpen (s : State) : Host.Outcome State Fault Refusal :=
  if s.twState = .running then .next (refuse .busy s)
  else .next (completeOk { s with upBuf := 0, upCnt := 0, upEos := false })

/-- `UP_GBIT` (R143). -/
def execUpGbit (s : State) : Host.Outcome State Fault Refusal :=
  if s.twState = .running then .next (refuse .busy s)
  else
    match getBit s with
    | (none, s') => .next (respond (Result.ofCode .eos) s')
    | (some b, s') => .next (respond (Result.ofBit .ok b) s')

end Sys2Proof.Machine
end

