-- ==== Sys2Proof/Machine/Walker.lean ====
section
/-! DEFINITION. The tree walker's commands, unit TW (42_tree_walker.md R162, R163, R169, R170). -/

namespace Sys2Proof.Machine

/-- The beginning of a session (R162): DONE at once when nothing is to be emitted. -/
def startSession (s : State) : State :=
  let s' := { s with twCur := s.twRoot, twRem := s.twTotal }
  if s.twTotal = 0 then respond (Result.ofCode .done) { s' with twState := .done }
  else completeOk { s' with twState := .running }

/-- `TW_START` (R162). -/
def execTwStart (s : State) : Host.Outcome State Fault Refusal :=
  if s.twState = .running then .next (refuse .busy s)
  else .next (startSession s)

/-- `TW_STEP` (R163): one micro-step. -/
def execTwStep (s : State) : Host.Outcome State Fault Refusal :=
  if s.twState = .running then .next (walkStep s)
  else .next (refuse .notRunning s)

/-- `TW_RUN` (R169): micro-steps until the walker leaves RUNNING, then a response with the terminal state's number
and no bit or symbol. -/
def execTwRun (s : State) : Host.Outcome State Fault Refusal :=
  if s.twState = .running then
    match walkRun (walkBound s) s with
    | some t => .next (respond (Result.ofCode t.twState.runCode) t)
    | none => .fault .walkOutlastsBound
  else .next (refuse .notRunning s)

/-- `TW_STOP` (R170): to IDLE from any state; the rest of the walker keeps its values. -/
def execTwStop (s : State) : Host.Outcome State Fault Refusal :=
  .next (completeOk { s with twState := .idle })

end Sys2Proof.Machine
end

