-- ==== Sys2Proof/Machine/Port.lean ====
section
/-! DEFINITION. The two host-port transactions (43_system.md R200 to R204). -/

namespace Sys2Proof.Machine

/-- The word a register or tree-memory index reads as (10_state.md R41 to R52). -/
def readReg (s : State) : HostReg → Word
  | .cmd => 0
  | .status => statusWord s
  | .result => resultWord s.result
  | .err => 0#25 ++ s.err
  | .twRoot => 0#24 ++ s.twRoot
  | .twTotalLo => totalLo s.twTotal
  | .twTotalHi => totalHi s.twTotal
  | .twRemLo => totalLo s.twRem
  | .twRemHi => totalHi s.twRem
  | .twCur => 0#24 ++ s.twCur
  | .pkState => pkStateWord s
  | .upState => upStateWord s
  | .tm i => tmReadWord (Memory.read s.tm i.val)
  | .unmapped => 0

/-- What a host read changes in HTD: ERR.BAD_ADDR on an unmapped index, else nothing (R73, R52). -/
def readEffect (s : State) : HostReg → State
  | .unmapped => flag .badAddr s
  | .cmd | .status | .result | .err | .twRoot | .twTotalLo | .twTotalHi | .twRemLo | .twRemHi | .twCur
  | .pkState | .upState | .tm _ => s

/-- `HREAD a` (R200). -/
def execHread (a : PortIndex) (s : State) : Host.Outcome State Fault Refusal :=
  .next { readEffect s (regAt a) with rdata := readReg s (regAt a) }

/-- The command `d` (R202): an illegal word is refused first; each command makes its own state checks. -/
def execCommand (d : Word) (s : State) : Host.Outcome State Fault Refusal :=
  match decodeCmd d with
  | .ok .nop => execNop s
  | .ok .reset => execReset s
  | .ok .pkOpen => execPkOpen s
  | .ok (.pkWbit b) => execPkWbit b s
  | .ok .pkClose => execPkClose s
  | .ok .upOpen => execUpOpen s
  | .ok .upGbit => execUpGbit s
  | .ok .twStart => execTwStart s
  | .ok .twStep => execTwStep s
  | .ok .twRun => execTwRun s
  | .ok .twStop => execTwStop s
  | .ok (.hread _) | .ok (.hwrite _ _) | .error _ => .next (refuse .illegalCmd s)

/-- The tree lock (R204): while RUNNING the write is dropped and ERR.BUSY set; else `s'`, the write done. -/
def lockedWrite (s s' : State) : State := if s.twState = .running then flag .busy s else s'

/-- `HWRITE a, d` (R201). -/
def execHwrite (a : PortIndex) (d : Word) (s : State) : Host.Outcome State Fault Refusal :=
  match regAt a with
  | .cmd => execCommand d s
  | .err => .next (clearErr (errMaskOfWord d) s)
  | .twRoot => .next (lockedWrite s { s with twRoot := rootOfWord d })
  | .twTotalLo => .next (lockedWrite s { s with twTotal := withTotalLo s.twTotal d })
  | .twTotalHi => .next (lockedWrite s { s with twTotal := withTotalHi s.twTotal d })
  | .tm i => .next (lockedWrite s { s with tm := Memory.write s.tm i.val (tmEntryOfWord d) })
  | .status | .result | .twRemLo | .twRemHi | .twCur | .pkState | .upState | .unmapped => .next (flag .badAddr s)

end Sys2Proof.Machine
end

