-- ==== Sys2Proof/Machine/Dispatch.lean ====
section
/-! DEFINITION. One arm per instruction, each a call of its meaning. -/

namespace Sys2Proof.Machine

def exec (i : Instr) (s : State) : Host.Outcome State Fault Refusal :=
  match i with
  | .nop => Sys2Proof.Machine.execNop s
  | .reset => Sys2Proof.Machine.execReset s
  | .pkOpen => Sys2Proof.Machine.execPkOpen s
  | .pkWbit b => Sys2Proof.Machine.execPkWbit b s
  | .pkClose => Sys2Proof.Machine.execPkClose s
  | .upOpen => Sys2Proof.Machine.execUpOpen s
  | .upGbit => Sys2Proof.Machine.execUpGbit s
  | .twStart => Sys2Proof.Machine.execTwStart s
  | .twStep => Sys2Proof.Machine.execTwStep s
  | .twRun => Sys2Proof.Machine.execTwRun s
  | .twStop => Sys2Proof.Machine.execTwStop s
  | .hread a => Sys2Proof.Machine.execHread a s
  | .hwrite a d => Sys2Proof.Machine.execHwrite a d s

end Sys2Proof.Machine
end

