-- ==== Sys2Proof/Machine/Step.lean ====
section
/-! DEFINITION. One step of the machine: the host's next operation, executed whole (20_memory.md R70). -/

namespace Sys2Proof.Machine

/-- The host issues its next operation and HTD executes it to completion. With no operation pending nothing
happens: every change of state is inside an operation the host issued (60_exceptions.md R269). -/
def step (s : State) : Host.Outcome State Fault Refusal :=
  match fetchOp s with
  | none => .next s
  | some (i, s') => exec i s'

/-- `s` with the operation whose bits are `w` put in front of the host's pending ones. -/
def State.withFetchWord (s : State) (nbits w : Nat) : State :=
  { s with port := (tableOp nbits w).toList ++ s.port }

end Sys2Proof.Machine
end

