-- ==== Sys2Proof/Machine/HostContract.lean ====
section
/-! DEFINITION. The software around HTD (45_host_contract.md), which binds the host and which no HTD operation checks
(R220): counting, the tree builder, the code table, the header, the tree image, and the encoder and the decoder, which
drive HTD through its port. -/

namespace Sys2Proof.Machine

/-- The errors the host itself detects (R223, R243). HTD raises neither (60_exceptions.md R268). -/
inductive HostError where
  /-- A source byte outside the alphabet (R223). -/
  | unsupportedSymbol
  /-- A header region shorter than 512 bytes or otherwise unreadable (R243). -/
  | malformedHeader
  deriving DecidableEq, Repr

/-- A frequency table: entry `i` is the count of symbol `i` (R222). It has 128 entries when made by `countBytes`. -/
abbrev FreqTable := List Nat

/-- A node of the tree the host builds (R224). `id` is the node's place in creation order (R242); there is no parent
link. A node has 0 or 2 children by its shape. -/
inductive HuffTree where
  | leaf (id : Nat) (sym : Symbol) (freq : Nat)
  | node (id : Nat) (freq : Nat) (left right : HuffTree)
  deriving DecidableEq, Repr

/-- A node's frequency (R224). -/
def HuffTree.freq : HuffTree → Nat
  | .leaf _ _ f => f
  | .node _ f _ _ => f

/-- A node's creation index (R242). -/
def HuffTree.id : HuffTree → Nat
  | .leaf k _ _ => k
  | .node k _ _ _ => k

/-- The creation indices of a tree's nodes (R242). -/
def HuffTree.nodeIds : HuffTree → List Nat
  | .leaf k _ _ => [k]
  | .node k _ l r => k :: (HuffTree.nodeIds l ++ HuffTree.nodeIds r)

/-! ## Counting (R222, R223) -/

/-- The symbols of a source, or UnsupportedSymbol when a byte is not below 128 (R223). -/
def symbolsOf : List Byte → Except HostError (List Symbol)
  | [] => .ok []
  | b :: bs =>
    if b.getLsbD 7 then .error .unsupportedSymbol
    else
      match symbolsOf bs with
      | .ok xs => .ok (b.setWidth 7 :: xs)
      | .error e => .error e

/-- The frequency table of a sequence of symbols (R222). -/
def countSymbols (xs : List Symbol) : FreqTable :=
  (List.range Config.nSym).map (fun s => xs.count (BitVec.ofNat 7 s))

/-- `count(bytes) -> FrequencyTable` (R223). -/
def countBytes (bs : List Byte) : Except HostError FreqTable :=
  match symbolsOf bs with
  | .ok xs => .ok (countSymbols xs)
  | .error e => .error e

/-- `totalSymbols`, the sum of all entries (R240). -/
def totalSymbols (t : FreqTable) : Nat := t.sum

/-! ## The tree builder (R226 to R234) -/

/-- `Insert(q, n)` (R227): before the first element of greater frequency, at the end if there is none. -/
def insertNode (n : HuffTree) : List HuffTree → List HuffTree
  | [] => [n]
  | x :: q => if n.freq < x.freq then n :: x :: q else x :: insertNode n q

/-- Leaves for the given symbols with their frequencies in the table, numbered from `k` (R242). -/
def leavesFrom (t : FreqTable) : Nat → List Nat → List HuffTree
  | _, [] => []
  | k, s :: ss => .leaf k (BitVec.ofNat 7 s) (t.getD s 0) :: leavesFrom t (k + 1) ss

/-- One leaf per symbol of non-zero frequency, in ascending symbol order (R228), numbered from 0 (R242). -/
def leavesOf (t : FreqTable) : List HuffTree :=
  leavesFrom t 0 ((List.range Config.nSym).filter (fun s => 0 < t.getD s 0))

/-- The merge queue after step 1 (R228). -/
def initialQueue (t : FreqTable) : List HuffTree :=
  (leavesOf t).foldl (fun q n => insertNode n q) []

/-- Step 2 (R229): merge the two lowest nodes until one is left; left is the first removed. Each merge shortens the
queue by one (R233), so the queue's length is fuel enough. `k` numbers the new nodes (R242). -/
def mergeNodes : Nat → Nat → List HuffTree → List HuffTree
  | 0, _, q => q
  | _ + 1, _, [] => []
  | _ + 1, _, [r] => [r]
  | fuel + 1, k, a :: b :: q => mergeNodes fuel (k + 1) (insertNode (.node k (a.freq + b.freq) a b) q)

/-- `build(freqTable) -> TreeRoot` (R228 to R230); no tree when no symbol occurs (R231). -/
def buildTree (t : FreqTable) : Option HuffTree :=
  (mergeNodes (leavesOf t).length (leavesOf t).length (initialQueue t)).head?

/-! ## The code table (R225, R235) -/

/-- `deriveCodes(treeRoot)` (R235): depth first, 0 on a left edge and 1 on a right edge; a root leaf has the empty
code (R232). -/
def deriveCodes : HuffTree → List (Symbol × List Bool)
  | .leaf _ s _ => [(s, [])]
  | .node _ _ l r =>
    (deriveCodes l).map (fun c => (c.1, false :: c.2)) ++ (deriveCodes r).map (fun c => (c.1, true :: c.2))

/-- The code of a symbol in a code table, empty for a symbol the table lacks. -/
def codeOf (codes : List (Symbol × List Bool)) (x : Symbol) : List Bool :=
  ((codes.find? (fun c => c.1 == x)).map Prod.snd).getD []

/-- The body's bits: the concatenation of each symbol's code in source order (R94, R238 step 4). -/
def bodyBits (codes : List (Symbol × List Bool)) (xs : List Symbol) : List Bool :=
  xs.flatMap (codeOf codes)

/-! ## Bits and bytes (20_memory.md R66, R69) -/

/-- The byte whose bit `7 − j` is `f j`. -/
def byteOfBits (f : Nat → Bool) : Byte :=
  BitVec.ofBool (f 0) ++ BitVec.ofBool (f 1) ++ BitVec.ofBool (f 2) ++ BitVec.ofBool (f 3)
    ++ BitVec.ofBool (f 4) ++ BitVec.ofBool (f 5) ++ BitVec.ofBool (f 6) ++ BitVec.ofBool (f 7)

/-- `ceil(n / 8)` bytes; byte `k` has bit `7 − j` equal to bit `8k + j` where that exists and 0 elsewhere (R69). -/
def packBits (bits : List Bool) : List Byte :=
  (List.range ((bits.length + 7) / 8)).map (fun k => byteOfBits (fun j => bits.getD (8 * k + j) false))

/-- The `n` low bits of a byte, most-significant first. -/
def lowBits (b : Byte) (n : Nat) : List Bool := (List.range n).map (fun j => b.getLsbD (n - 1 - j))

/-- The bits of a sequence of bytes, most-significant bit first (R66). -/
def unpackBits (bs : List Byte) : List Bool := bs.flatMap (fun b => lowBits b 8)

/-- The bits `GetBit()` will still deliver: the rest of UP_BUF, then BYTE_IN (41_bit_unpacker.md R141, R144). -/
def pendingBits (s : State) : List Bool :=
  if s.upEos then [] else lowBits s.upBuf s.upCnt.val ++ unpackBits s.byteIn

/-! ## The compressed file (R236, R237) -/

/-- The four bytes of a 32-bit header integer in the open byte order (00_scope.md R10). DESIGN CHOICE (log entry 14):
of a count of 2^32 or more, where the spec is silent (N9), the header holds the low 32 bits. -/
def headerIntBytes (o : Config.ByteOrder) (n : Nat) : List Byte :=
  let w := BitVec.ofNat 32 n
  let be := [w.extractLsb' 24 8, w.extractLsb' 16 8, w.extractLsb' 8 8, w.extractLsb' 0 8]
  match o with
  | .big => be
  | .little => be.reverse

/-- The header: 128 integers in symbol order (R236). -/
def headerBytes (o : Config.ByteOrder) (t : FreqTable) : List Byte :=
  (List.range Config.hdrEntries).flatMap (fun s => headerIntBytes o (t.getD s 0))

/-- A header integer read in the open byte order and signedness (R10, R236). -/
def headerInt (o : Config.ByteOrder) (g : Config.Signedness) (bs : List Byte) : Int :=
  let be := match o with
    | .big => bs
    | .little => bs.reverse
  let w : Word := be.getD 0 0 ++ be.getD 1 0 ++ be.getD 2 0 ++ be.getD 3 0
  match g with
  | .unsignedInt => w.toNat
  | .signedInt => w.toInt

/-- The 128 integers of a header; the one for symbol `s` is at offsets 4s to 4s + 3 (R236). -/
def headerInts (o : Config.ByteOrder) (g : Config.Signedness) (file : List Byte) : List Int :=
  (List.range Config.hdrEntries).map (fun s => headerInt o g ((file.drop (4 * s)).take 4))

/-- The counts below this read back from a header in the given signedness (R10). -/
def headerLimit : Config.Signedness → Nat
  | .unsignedInt => 2 ^ 32
  | .signedInt => 2 ^ 31

/-- Step 1 of the decoder (R240): the frequency table of a file, or MalformedHeader (R243) when the file cannot be read
(`none`), is shorter than 512 bytes, or holds a negative integer. DESIGN CHOICE (log entry 13): these are the grounds of
"otherwise unreadable", which the spec leaves open; frequencies are non-negative (R222, R236). -/
def parseHeader (o : Config.ByteOrder) (g : Config.Signedness) : Option (List Byte) → Except HostError FreqTable
  | none => .error .malformedHeader
  | some file =>
    if file.length < Config.hdrBytes then .error .malformedHeader
    else if (headerInts o g file).all (fun n => 0 ≤ n) then .ok ((headerInts o g file).map Int.toNat)
    else .error .malformedHeader

/-- The code bits of a source: none without a tree, else each symbol's code in source order (R231, R238 step 4). -/
def sourceBits (xs : List Symbol) : List Bool :=
  match buildTree (countSymbols xs) with
  | none => []
  | some t => bodyBits (deriveCodes t) xs

/-- The whole compressed file: the header, then the body, nothing between or after (R237). -/
def compressedFile (o : Config.ByteOrder) (xs : List Symbol) : List Byte :=
  headerBytes o (countSymbols xs) ++ packBits (sourceBits xs)

/-! ## The tree image (R242) and the pseudo-operations (30_encoding.md R101) -/

/-- `WR name, value` at a word index (R100). -/
def writeOp (a : PortIndex) (d : Word) : HostOp := encode (.hwrite a d)

/-- `LEAF i, x` (R101). -/
def leafOp (i : Nat) (x : Symbol) : HostOp := writeOp (BitVec.ofNat 9 (Config.tmBase + i)) (x.setWidth 32)

/-- `NODE i, l, r` (R101). -/
def nodeOp (i : Nat) (l r : NodeIndex) : HostOp :=
  writeOp (BitVec.ofNat 9 (Config.tmBase + i)) (0x03000000 ||| r.setWidth 32 <<< 16 ||| l.setWidth 32 <<< 8)

/-- `ROOT i` (R101). -/
def rootOp (i : Nat) : HostOp := writeOp 0x004 (BitVec.ofNat 32 i)

/-- `TOTAL n` (R101): both halves, the low one first. -/
def totalOps (n : Total) : List HostOp := [writeOp 0x005 (totalLo n), writeOp 0x006 (totalHi n)]

/-- `PK_WCODE` of a bit string (R101): one PK_WBIT per bit, the first edge first. -/
def wcodeOps (bits : List Bool) : List HostOp := bits.map (fun b => encode (.pkWbit b))

/-- `CLRERR` (R101). -/
def clrErrOp : HostOp := writeOp 0x003 0x7F

/-- The operations that load a tree's creation-order image (R242). -/
def imageOps : HuffTree → List HostOp
  | .leaf k x _ => [leafOp k x]
  | .node k _ l r =>
    imageOps l ++ imageOps r ++ [nodeOp k (BitVec.ofNat 8 l.id) (BitVec.ofNat 8 r.id)]

/-- The tree memory holds, at index `i`, the image of the tree, whatever its numbering (R242). -/
def holdsTree (m : Memory) : NodeIndex → HuffTree → Prop
  | i, .leaf _ x _ =>
    i ≠ Config.noNode ∧ ∃ e, Memory.read m i.toNat = some e ∧ e.lv = false ∧ e.rv = false ∧ e.sym = x
  | i, .node _ _ l r =>
    i ≠ Config.noNode ∧ ∃ e, Memory.read m i.toNat = some e ∧ e.lv = true ∧ e.rv = true ∧
      holdsTree m e.left l ∧ holdsTree m e.right r

/-! ## The host at the port -/

/-- The host issues operations one after the other, each before its own pending ones (20_memory.md R70). `none` if HTD
stopped, which it never does. -/
def hostIssue : List HostOp → State → Option State
  | [], s => some s
  | op :: ops, s =>
    match step { s with port := op :: s.port } with
    | .next t => hostIssue ops t
    | .fault _ => none
    | .refused _ => none

/-- `RD` of a register (30_encoding.md R100): the word, and HTD after the read. -/
def hostRead (a : PortIndex) (s : State) : Option (Word × State) :=
  (hostIssue [encode (.hread a)] s).map (fun t => (t.rdata, t))

/-! ## The encoder (R238, R239) -/

/-- A pack session (70_reset_and_hazards.md R294, R239): open, one PK_WBIT per code bit, close. -/
def packSession (bits : List Bool) : List HostOp :=
  [encode .pkOpen] ++ wcodeOps bits ++ [encode .pkClose]

/-- How an encoding ends, with HTD as the host leaves it. -/
inductive EncodeEnd where
  /-- The host found an error before it issued anything (R223, R244). -/
  | aborted (e : HostError) (s : State)
  /-- The compressed file is written. -/
  | finished (file : List Byte) (s : State)
  /-- HTD stopped: never. -/
  | stopped
  deriving DecidableEq, Repr

/-- The encoder on HTD (R238, R239): the header comes from the host, the body is what the pack session pushes. -/
def encodeFile (o : Config.ByteOrder) (source : List Byte) (s : State) : EncodeEnd :=
  match symbolsOf source with
  | .error e => .aborted e s
  | .ok xs =>
    match hostIssue (packSession (sourceBits xs)) s with
    | none => .stopped
    | some t => .finished (headerBytes o (countSymbols xs) ++ t.byteOut.drop s.byteOut.length) t

/-! ## The decoder (R240, R241) -/

/-- What the host reads after a walk (R241): RESULT, STATUS, both halves of TW_REM, ERR. -/
structure DecodeReport where
  result : Word
  status : Word
  remLo : Word
  remHi : Word
  err : Word
  deriving DecidableEq, Repr

/-- How a decoding ends, with HTD as the host leaves it. -/
inductive DecodeEnd where
  /-- The host found the header malformed; it issued no operation and took no body byte (R243). -/
  | aborted (e : HostError) (s : State)
  /-- The walk is over. The decoded symbols are in SYM_OUT. -/
  | finished (r : DecodeReport) (s : State)
  /-- HTD stopped: never. -/
  | stopped
  deriving DecidableEq, Repr

/-- Steps 1 to 3 (R240): the header's tree, rebuilt by the encoder's algorithm, and the sum of its entries. -/
def decodePlan (o : Config.ByteOrder) (g : Config.Signedness) (file : Option (List Byte)) :
    Except HostError (Option HuffTree × Nat) :=
  match parseHeader o g file with
  | .ok t => .ok (buildTree t, totalSymbols t)
  | .error e => .error e

/-- The operations that load a tree and the total; the first are skipped without a tree (R241, R297 steps 2 and 3). -/
def loadOps (tree : Option HuffTree) (total : Nat) : List HostOp :=
  (match tree with
    | none => []
    | some t => imageOps t ++ [rootOp t.id]) ++ totalOps (BitVec.ofNat 39 total)

/-- RESULT.CODE of a RESULT word is OK (10_state.md R43). -/
def resultIsOk (r : Word) : Bool := r.extractLsb' 0 4 == Code.ok.toBits

/-- The reads at the end of a walk (R241, R297 step 8). -/
def readReport (s : State) : Option (DecodeReport × State) := do
  let (result, s) ← hostRead 0x002 s
  let (status, s) ← hostRead 0x001 s
  let (remLo, s) ← hostRead 0x007 s
  let (remHi, s) ← hostRead 0x008 s
  let (err, s) ← hostRead 0x003 s
  return ({ result := result, status := status, remLo := remLo, remHi := remHi, err := err }, s)

/-- The walk (R241, R297 steps 5 to 8): UP_OPEN, TW_START, and if RESULT is OK TW_RUN, the first of the two ways the
rule allows (TW_RUN is the loop of TW_STEP, 42_tree_walker.md R169). -/
def hostWalk (s : State) : Option (DecodeReport × State) := do
  let s ← hostIssue [encode .upOpen, encode .twStart] s
  let (r, s) ← hostRead 0x002 s
  let s ← if resultIsOk r then hostIssue [encode .twRun] s else some s
  readReport s

/-- The TW_STATE of a STATUS word is RUNNING (10_state.md R42). -/
def statusIsRunning (w : Word) : Bool := w.extractLsb' 0 3 == TwState.running.toBits

/-- The walker must not be RUNNING before a session (R297 step 1): the host reads STATUS, and stops a walk with TW_STOP,
the second of the two ways the rule allows. Waiting alone ends no walk, since HTD acts only on operations (R70). -/
def leaveRunning (s : State) : Option State := do
  let (w, s) ← hostRead 0x001 s
  if statusIsRunning w then hostIssue [encode .twStop] s else some s

/-- A decode session (R241, R297): leave RUNNING, load, attach the body as BYTE_IN, walk. -/
def decodeSession (tree : Option HuffTree) (total : Nat) (body : List Byte) (s : State) :
    Option (DecodeReport × State) := do
  let s ← leaveRunning s
  let s ← hostIssue (loadOps tree total) s
  hostWalk { s with byteIn := body }

/-- The decoder on HTD (R240, R241): from the header the tree and the total, from offset 512 on the body. A malformed
header ends it before any operation (R243). -/
def decodeFile (o : Config.ByteOrder) (g : Config.Signedness) (file : Option (List Byte)) (s : State) : DecodeEnd :=
  match decodePlan o g file with
  | .error e => .aborted e s
  | .ok (tree, total) =>
    match decodeSession tree total ((file.getD []).drop Config.hdrBytes) s with
    | none => .stopped
    | some (r, t) => .finished r t

end Sys2Proof.Machine
end

