-- ==== Sys2Proof/Safety.lean ====
section
/-! DEFINITION. The invariants the spec states (10_state.md R24, R33), what else every operation keeps, and when a
session is over and ended well (00_scope.md R19). -/

namespace Sys2Proof.Machine

/-- R24: the `8 − PK_CNT` low bits of PK_ACC are zero, and a closed packer is empty. -/
def State.packerInv (s : State) : Prop :=
  (∀ j, j < 8 - s.pkCnt.toNat → s.pkAcc.getLsbD j = false) ∧
  (s.pkClosed = true → s.pkCnt = 0 ∧ s.pkAcc = 0)

/-- R33 (a), (b), (c) without the bound of (c), which a host write to TW_TOTAL may break after a stop. -/
def State.walkerInv (s : State) : Prop :=
  (s.twState = .running → 0 < s.twRem ∧ s.twRem ≤ s.twTotal) ∧
  (s.twState = .done → s.twRem = 0) ∧
  (s.twState = .truncated ∨ s.twState = .malformed → 0 < s.twRem)

/-- R27, R141: once UP_EOS is set the buffer is empty. -/
def State.unpackerInv (s : State) : Prop := s.upEos = true → s.upCnt = 0

/-- R35: BIT is 0 when BITV is 0, and SYM is 0 when SYMV is 0. -/
def State.resultInv (s : State) : Prop :=
  (s.result.bitv = false → s.result.bit = false) ∧ (s.result.symv = false → s.result.sym = 0)

/-- Everything that holds after reset and that every operation keeps. -/
structure State.Inv (s : State) : Prop where
  packer : s.packerInv
  walker : s.walkerInv
  unpacker : s.unpackerInv
  result : s.resultInv
  memory : Memory.wf s.tm = true

/-- R19, R17: a decode session is over in a terminal state. -/
def State.decodeOver (s : State) : Prop :=
  s.twState = .done ∨ s.twState = .truncated ∨ s.twState = .malformed

/-- R19: a decode session ended well only in DONE. -/
def State.decodedWell (s : State) : Prop := s.twState = .done

/-- R19: a pack session is over once the packer is closed. -/
def State.packOver (s : State) : Prop := s.pkClosed = true

/-- The states a launch can reach: the reset state with any byte source and any host operations (R55, R291), then
steps. -/
inductive Reachable : State → Prop where
  | launch (bytes : List Byte) (ops : List HostOp) :
      Reachable { State.reset with byteIn := bytes, port := ops }
  | next {s t : State} (h : Reachable s) (hs : step s = .next t) : Reachable t

/-- Several operations one after the other (20_memory.md R70), stopping at the first stop. -/
def execAll : List Instr → State → Host.Outcome State Fault Refusal
  | [], s => .next s
  | i :: is, s =>
    match exec i s with
    | .next t => execAll is t
    | .fault r => .fault r
    | .refused r => .refused r

/-- R141, the ways in which `GetBit()` returns `Bit(b)` and leaves `s'`: from a buffer with `n + 1` bits left, or from
an empty buffer that a pulled byte refills. -/
def State.takesBit (s : State) (b : Bool) (s' : State) : Prop :=
  s.upEos = false ∧
  ((∃ n : Fin 8, s.upCnt = n.succ ∧ b = s.upBuf.getLsbD n.val ∧ s' = { s with upCnt := n.castSucc }) ∨
   (s.upCnt = 0 ∧ ∃ byte rest, s.byteIn = byte :: rest ∧ b = byte.getLsbD 7 ∧
      s' = { s with upBuf := byte, upCnt := 7, byteIn := rest }))

/-- R141, when `GetBit()` returns EOS: it did before, or the buffer is empty and the source exhausted. -/
def State.noBit (s : State) : Prop := s.upEos = true ∨ (s.upCnt = 0 ∧ s.byteIn = [])

/-- The packer's commands (40_bit_packer.md R120). -/
def isPackerCommand : Instr → Bool
  | .pkOpen | .pkWbit _ | .pkClose => true
  | .nop | .reset | .upOpen | .upGbit | .twStart | .twStep | .twRun | .twStop | .hread _ | .hwrite _ _ => false

/-- The unpacker's and the walker's commands (R140, R160). -/
def isDecoderCommand : Instr → Bool
  | .upOpen | .upGbit | .twStart | .twStep | .twRun | .twStop => true
  | .nop | .reset | .pkOpen | .pkWbit _ | .pkClose | .hread _ | .hwrite _ _ => false

/-- The instruction is `RESET`, as a command or as the write of its word to CMD (R41). -/
def isResetCommand (i : Instr) : Prop := i = .reset ∨ i = .hwrite 0x000 0x00000001

end Sys2Proof.Machine
end

