-- ==== Sys2Proof/Certificates/Slice0/Obligations.lean ====
section
/-! DEFINITION. The statements for the provers, from the numbered rules of spec/. -/

open Sys2Proof Sys2Proof.Machine

/-! ## Issue, decoding, encoding -/

/-- 20_memory.md R70 with the model's own port queue (log entry 1): a step is the host's next operation, executed from
the state with that operation taken; an operation that decodes to `i` is issued as `i`; an illegal command word is
issued as the write of that word to CMD; with nothing pending nothing changes (R269). -/
def Obligations.StepExecutesTheNextOperation : Prop :=
  (∀ (s : State) (op : HostOp) (rest : List HostOp), s.port = op :: rest →
    step s = exec (issued op) { s with port := rest }) ∧
  (∀ (op : HostOp) (i : Instr), decodeOp op = .ok i → issued op = i) ∧
  (∀ (w : Word) (r : CmdReject), decodeCmd w = .error r → issued (.cmd w) = .hwrite 0x000 w) ∧
  (∀ s : State, s.port = [] → step s = .next s)

/-- R100, R41, with the model's two forms of an operation (log entry 1): issuing a bare command word and issuing its
port transaction are the same step. -/
def Obligations.CommandWordIsItsPortTransaction : Prop :=
  ∀ (op : HostOp) (rest : List HostOp) (s : State),
    step { s with port := op :: rest } = step { s with port := .port op.transaction :: rest }

/-- 30_encoding.md R96, R90: words written out from the spec's tables and programs decode to what they stand for. -/
def Obligations.SpecWordsDecode : Prop :=
  decodeCmd 0x00000000 = .ok .nop ∧
  decodeCmd 0x00000001 = .ok .reset ∧
  decodeCmd 0x00000010 = .ok .pkOpen ∧
  decodeCmd 0x00000011 = .ok (.pkWbit false) ∧
  decodeCmd 0x00000111 = .ok (.pkWbit true) ∧
  decodeCmd 0x00000012 = .ok .pkClose ∧
  decodeCmd 0x00000020 = .ok .upOpen ∧
  decodeCmd 0x00000021 = .ok .upGbit ∧
  decodeCmd 0x00000030 = .ok .twStart ∧
  decodeCmd 0x00000031 = .ok .twStep ∧
  decodeCmd 0x00000032 = .ok .twRun ∧
  decodeCmd 0x00000033 = .ok .twStop ∧
  decodePort 0x00A00000000 = .hread 0x00A ∧
  decodePort 0x30403030200 = .hwrite 0x104 0x03030200 ∧
  decodePort 0x2030000007F = .hwrite 0x003 0x7F

/-- R90, R96: decoding an encoded operation gives it back, and each control word has one meaning: a command word is
the encoding of what it decodes to, a write transaction too, and a read transaction up to WDATA, which is ignored. -/
def Obligations.DecodeEncodeAgree : Prop :=
  (∀ i : Instr, decodeOp (encode i) = .ok i) ∧
  (∀ (w : Word) (i : Instr), decodeCmd w = .ok i → encode i = .cmd w) ∧
  (∀ t : PortWord, t.getLsbD 41 = true → encode (decodePort t) = .port t) ∧
  (∀ t : PortWord, t.getLsbD 41 = false → encode (decodePort t) = .port (t &&& 0x1FF00000000))

/-- R97: a word that matches a row is that row's command; any other word is illegal, and these are exactly the words
on the rule's three grounds. -/
def Obligations.IllegalWordsAreThoseOfTheRule : Prop :=
  (∀ (w : Word) (r : CmdRow), r ∈ cmdTable → cmdRowMatches w r = true → decodeCmd w = .ok (r.command w)) ∧
  ∀ w : Word,
    ((∃ r, decodeCmd w = .error r) ↔ ∀ r ∈ cmdTable, cmdRowMatches w r = false) ∧
    ((∃ r, decodeCmd w = .error r) ↔
      (w.extractLsb' 9 23 ≠ 0 ∨
        w.extractLsb' 0 8 ∉ ([0x00, 0x01, 0x10, 0x11, 0x12, 0x20, 0x21, 0x30, 0x31, 0x32, 0x33] : List (BitVec 8)) ∨
        (w.getLsbD 8 = true ∧ w.extractLsb' 0 8 ≠ 0x11)))

/-- R96, "The rows do not overlap": no word matches two rows. -/
def Obligations.OpcodeRowsDoNotOverlap : Prop :=
  cmdTable.Pairwise (fun r q => ∀ w : Word, ¬(cmdRowMatches w r = true ∧ cmdRowMatches w q = true))

/-! ## Reset -/

/-- 10_state.md R54: the value of every piece of HTD's state after reset. -/
def Obligations.ResetLeavesTheStatedValues : Prop :=
  State.reset.pkAcc = 0x00 ∧ State.reset.pkCnt = 0 ∧ State.reset.pkClosed = false ∧
  State.reset.upBuf = 0x00 ∧ State.reset.upCnt = 0 ∧ State.reset.upEos = false ∧
  State.reset.twRoot = 0 ∧ State.reset.twTotal = 0 ∧ State.reset.twRem = 0 ∧ State.reset.twCur = 0 ∧
  State.reset.twState.toBits = 0 ∧
  (∀ i, i < 255 → Memory.read State.reset.tm i = none) ∧
  State.reset.result.code.toBits = 0 ∧ State.reset.result.bitv = false ∧ State.reset.result.bit = false ∧
  State.reset.result.symv = false ∧ State.reset.result.sym = 0 ∧
  State.reset.err = 0

/-- 43_system.md R206, 20_memory.md R67: RESET, in every state, leaves the reset values and the streams as they were.
That the host's side, `rdata` and `port`, stays too is the model's choice (log entries 3 and 1). -/
def Obligations.ResetCommandRestoresResetValues : Prop :=
  encode .reset = .cmd 0x00000001 ∧
  ∀ s : State, ∃ t, exec .reset s = .next t ∧
    t.pkAcc = 0 ∧ t.pkCnt = 0 ∧ t.pkClosed = false ∧ t.upBuf = 0 ∧ t.upCnt = 0 ∧ t.upEos = false ∧
    t.twRoot = 0 ∧ t.twTotal = 0 ∧ t.twRem = 0 ∧ t.twCur = 0 ∧ t.twState = .idle ∧
    (∀ i, Memory.read t.tm i = none) ∧ t.result = Result.ofCode .ok ∧ t.err = 0 ∧
    t.byteIn = s.byteIn ∧ t.byteOut = s.byteOut ∧ t.symOut = s.symOut ∧ t.rdata = s.rdata ∧ t.port = s.port

/-- R24, R27, R33, R35: the invariants hold after reset. That TM is in canonical form is about the list the model chose
for it (log entry 4). -/
def Obligations.ResetStateMeetsTheInvariants : Prop := State.reset.Inv

/-- R24, R33 (a) to (c), with R27, R35 and the canonical form of the model's TM (log entry 4): every step from a state that meets the
invariants gives one that does, whether or not a run reaches it. -/
def Obligations.EveryStepKeepsTheInvariants : Prop :=
  ∀ s t : State, s.Inv → step s = .next t → t.Inv

/-- R14, R98, R171: every operation, in every state, ends in a next state: no fault, no refusal by the model. For TW_RUN
this rests on the model's loop bound (log entry 6), in RUNNING with TW_REM = 0 on its wrap (log entry 5). -/
def Obligations.EveryOperationCompletes : Prop :=
  ∀ (i : Instr) (s : State), ∃ t, exec i s = .next t

/-! ## System commands -/

/-- R205. -/
def Obligations.NopOverwritesResultOnly : Prop :=
  encode .nop = .cmd 0x00000000 ∧
  ∀ s : State, exec .nop s = .next { s with result := Result.ofCode .ok }

/-! ## The packer -/

/-- 40_bit_packer.md R121. -/
def Obligations.PkOpenEmptiesThePacker : Prop :=
  encode .pkOpen = .cmd 0x00000010 ∧
  ∀ s : State, exec .pkOpen s =
    .next { s with pkAcc := 0, pkCnt := 0, pkClosed := false, result := Result.ofCode .ok }

/-- R122: the bit goes to position 7 − PK_CNT, and the eighth bit pushes the byte. -/
def Obligations.PkWbitAccumulatesABit : Prop :=
  encode (.pkWbit false) = .cmd 0x00000011 ∧ encode (.pkWbit true) = .cmd 0x00000111 ∧
  ∀ (b : Bool) (s : State), s.pkClosed = false →
    (s.pkCnt = 7 →
      exec (.pkWbit b) s =
        .next { s with
          byteOut := s.byteOut ++ [s.pkAcc ||| (if b then 0x01#8 else 0x00#8)]
          pkAcc := 0, pkCnt := 0, result := Result.ofCode .ok }) ∧
    (s.pkCnt ≠ 7 →
      exec (.pkWbit b) s =
        .next { s with
          pkAcc := s.pkAcc ||| (if b then 0x80#8 >>> s.pkCnt.toNat else 0x00#8)
          pkCnt := s.pkCnt + 1, result := Result.ofCode .ok })

/-- R123, R263: a write after close is refused, the bit is not written. -/
def Obligations.PkWbitAfterCloseIsRefused : Prop :=
  ∀ (b : Bool) (s : State), s.pkClosed = true →
    exec (.pkWbit b) s = .next { s with result := Result.ofCode .pkClosed, err := s.err ||| 0x04 }

/-- R124: a partial byte is pushed, a byte boundary pushes nothing, a second close changes nothing. -/
def Obligations.PkCloseFlushesThePartialByte : Prop :=
  encode .pkClose = .cmd 0x00000012 ∧
  ∀ s : State,
    (s.pkClosed = true → exec .pkClose s = .next { s with result := Result.ofCode .ok }) ∧
    (s.pkClosed = false → s.pkCnt = 0 →
      exec .pkClose s = .next { s with pkClosed := true, result := Result.ofCode .ok }) ∧
    (s.pkClosed = false → s.pkCnt ≠ 0 →
      exec .pkClose s =
        .next { s with
          byteOut := s.byteOut ++ [s.pkAcc]
          pkAcc := 0, pkCnt := 0, pkClosed := true, result := Result.ofCode .ok })

/-- R125, the law of the packer: after n bits into an open, empty packer the sink has gained `floor(n / 8)` bytes,
PK_CNT is n mod 8 and PK_ACC holds the last n mod 8 bits in its high positions; after a PK_CLOSE the sink has gained
`ceil(n / 8)` bytes, byte k having bit 7 − j equal to bit 8k + j where that exists and 0 elsewhere. An empty packer has
PK_ACC = 0 by R24. -/
def Obligations.PackerLaw : Prop :=
  ∀ (s : State) (bits : List Bool), s.pkClosed = false → s.pkCnt = 0 → s.pkAcc = 0 →
    ∃ (t u : State) (out : List Byte),
      execAll (bits.map Instr.pkWbit) s = .next t ∧ exec .pkClose t = .next u ∧
      out.length = (bits.length + 7) / 8 ∧
      (∀ k j, k < out.length → j < 8 → (out.getD k 0).getLsbD (7 - j) = bits.getD (8 * k + j) false) ∧
      t.byteOut = s.byteOut ++ out.take (bits.length / 8) ∧
      t.pkCnt.toNat = bits.length % 8 ∧
      (∀ j, j < 8 → t.pkAcc.getLsbD (7 - j) = bits.getD (8 * (bits.length / 8) + j) false) ∧
      u.byteOut = s.byteOut ++ out ∧ u.pkClosed = true

/-! ## The unpacker -/

/-- 41_bit_unpacker.md R142. -/
def Obligations.UpOpenEmptiesTheUnpacker : Prop :=
  encode .upOpen = .cmd 0x00000020 ∧
  ∀ s : State,
    (s.twState ≠ .running →
      exec .upOpen s = .next { s with upBuf := 0, upCnt := 0, upEos := false, result := Result.ofCode .ok }) ∧
    (s.twState = .running →
      exec .upOpen s = .next { s with result := Result.ofCode .busy, err := s.err ||| 0x02 })

/-- R143 with R141: the bit, or EOS, which sets UP_EOS and no ERR bit; BUSY while RUNNING. -/
def Obligations.UpGbitReturnsTheNextBit : Prop :=
  encode .upGbit = .cmd 0x00000021 ∧
  ∀ s : State,
    (s.twState = .running →
      exec .upGbit s = .next { s with result := Result.ofCode .busy, err := s.err ||| 0x02 }) ∧
    (s.twState ≠ .running → s.noBit →
      exec .upGbit s = .next { s with upEos := true, result := Result.ofCode .eos }) ∧
    (s.twState ≠ .running → ∀ b s', s.takesBit b s' →
      exec .upGbit s = .next { s' with result := Result.ofBit .ok b })

/-- R141: `GetBit()` returns EOS exactly when no bit can be taken, then sets UP_EOS and changes nothing else; else it
returns the next bit, most-significant first, refilling on demand. -/
def Obligations.GetBitFollowsTheRule : Prop :=
  ∀ s : State,
    (s.noBit → getBit s = (none, { s with upEos := true })) ∧
    (∀ b s', s.takesBit b s' → getBit s = (some b, s')) ∧
    (¬s.noBit → ∃ b s', s.takesBit b s')

/-- R144, the law of the unpacker, through UP_GBIT: call k of the first 8m returns bit 7 − k mod 8 of byte k / 8 and
leaves `ceil((k + 1) / 8)` bytes pulled; every later call returns EOS. -/
def Obligations.UnpackerLaw : Prop :=
  ∀ (s : State) (k : Nat), s.twState ≠ .running → s.upEos = false → s.upCnt = 0 →
    ∃ t u, execAll (List.replicate k .upGbit) s = .next t ∧ exec .upGbit t = .next u ∧
      (k < 8 * s.byteIn.length →
        u.result = Result.ofBit .ok ((s.byteIn.getD (k / 8) 0).getLsbD (7 - k % 8)) ∧
        u.byteIn = s.byteIn.drop ((k + 8) / 8)) ∧
      (8 * s.byteIn.length ≤ k → u.result = Result.ofCode .eos)

/-- R69: n bits written to an open, empty packer and closed are `ceil(n / 8)` bytes appended to BYTE_OUT, byte k having
bit 7 − j equal to bit 8k + j where that exists and 0 elsewhere; the same bytes given to BYTE_IN of an empty unpacker
are delivered as the n bits, then the padding zeros, then EOS. -/
def Obligations.CodecRoundTrip : Prop :=
  ∀ (s r : State) (bits : List Bool), s.pkClosed = false → s.pkCnt = 0 → s.pkAcc = 0 →
    r.twState ≠ .running → r.upEos = false → r.upCnt = 0 →
    ∃ (p : State) (body : List Byte),
      execAll (bits.map Instr.pkWbit ++ [.pkClose]) s = .next p ∧
      p.byteOut = s.byteOut ++ body ∧ body.length = (bits.length + 7) / 8 ∧
      (∀ k j, k < body.length → j < 8 → (body.getD k 0).getLsbD (7 - j) = bits.getD (8 * k + j) false) ∧
      ∀ k, ∃ t u,
        execAll (List.replicate k .upGbit) { r with byteIn := body } = .next t ∧ exec .upGbit t = .next u ∧
        (k < bits.length → u.result = Result.ofBit .ok (bits.getD k false)) ∧
        (bits.length ≤ k → k < 8 * body.length → u.result = Result.ofBit .ok false) ∧
        (8 * body.length ≤ k → u.result = Result.ofCode .eos)

/-! ## The walker -/

/-- 42_tree_walker.md R162, R173. -/
def Obligations.TwStartBeginsASession : Prop :=
  encode .twStart = .cmd 0x00000030 ∧
  ∀ s : State,
    (s.twState = .running →
      exec .twStart s = .next { s with result := Result.ofCode .busy, err := s.err ||| 0x02 }) ∧
    (s.twState ≠ .running → s.twTotal = 0 →
      exec .twStart s =
        .next { s with twCur := s.twRoot, twRem := 0, twState := .done, result := Result.ofCode .done }) ∧
    (s.twState ≠ .running → s.twTotal ≠ 0 →
      exec .twStart s =
        .next { s with twCur := s.twRoot, twRem := s.twTotal, twState := .running, result := Result.ofCode .ok })

/-- R264: TW_STEP and TW_RUN outside RUNNING are refused. -/
def Obligations.StepAndRunOutsideRunningAreRefused : Prop :=
  ∀ s : State, s.twState ≠ .running →
    exec .twStep s = .next { s with result := Result.ofCode .notRunning, err := s.err ||| 0x08 } ∧
    exec .twRun s = .next { s with result := Result.ofCode .notRunning, err := s.err ||| 0x08 }

/-- R165: a fetch that finds no entry stops the walker, no bit consumed. -/
def Obligations.FetchOfNoEntryIsMalformed : Prop :=
  ∀ s : State, s.twState = .running → (s.twCur = 255 ∨ Memory.read s.tm s.twCur.toNat = none) →
    exec .twStep s =
      .next { s with twState := .malformed, err := s.err ||| 0x40, result := Result.ofCode .malformed }

/-- R166: a leaf is emitted without reading a bit, and the last symbol owed ends the session. TW_REM is at least 1 in
RUNNING by R33 (a), which `State.walkerInv` states. -/
def Obligations.LeafIsEmitted : Prop :=
  ∀ (s : State) (e : TmEntry), s.twState = .running → s.twCur ≠ 255 →
    Memory.read s.tm s.twCur.toNat = some e → e.lv = false → e.rv = false → 0 < s.twRem →
    (s.twRem = 1 →
      exec .twStep s =
        .next { s with
          symOut := s.symOut ++ [e.sym], twRem := 0, twCur := s.twRoot, twState := .done
          result := Result.ofSym .done e.sym }) ∧
    (s.twRem ≠ 1 →
      exec .twStep s =
        .next { s with
          symOut := s.symOut ++ [e.sym], twRem := s.twRem - 1, twCur := s.twRoot
          result := Result.ofSym .ok e.sym })

/-- R167, R271: a node with a child needs a bit, and the end of the stream stops the walker before the child is looked
at. -/
def Obligations.EndOfStreamInAWalkIsTruncated : Prop :=
  ∀ (s : State) (e : TmEntry), s.twState = .running → s.twCur ≠ 255 →
    Memory.read s.tm s.twCur.toNat = some e → (e.lv = true ∨ e.rv = true) → s.noBit →
    exec .twStep s =
      .next { s with
        upEos := true, twState := .truncated, err := s.err ||| 0x20, result := Result.ofCode .truncated }

/-- R168: with a bit in hand, left on 0 and right on 1 when the wanted child is present, its index unchecked; when it
is absent (and the node is no leaf) MALFORMED, the bit consumed and reported, TW_CUR kept. -/
def Obligations.DescentFollowsTheWantedChild : Prop :=
  ∀ (s s' : State) (e : TmEntry) (b : Bool), s.twState = .running → s.twCur ≠ 255 →
    Memory.read s.tm s.twCur.toNat = some e → s.takesBit b s' →
    (b = false → e.lv = true →
      exec .twStep s = .next { s' with twCur := e.left, result := Result.ofBit .ok false }) ∧
    (b = true → e.rv = true →
      exec .twStep s = .next { s' with twCur := e.right, result := Result.ofBit .ok true }) ∧
    ((b = false ∧ e.lv = false ∧ e.rv = true) ∨ (b = true ∧ e.rv = false ∧ e.lv = true) →
      exec .twStep s =
        .next { s' with twState := .malformed, err := s.err ||| 0x40, result := Result.ofBit .malformed b })

/-- R170: from every state to IDLE, the rest keeps its values. -/
def Obligations.TwStopReturnsToIdle : Prop :=
  encode .twStop = .cmd 0x00000033 ∧
  ∀ s : State, exec .twStop s = .next { s with twState := .idle, result := Result.ofCode .ok }

/-- R171, with R33 (a) as premise: every micro-step stops the walker, or pushes a symbol and lowers TW_REM by 1, or
consumes one bit; so TW_RUN makes at most TW_TOTAL + 8 × (bytes in BYTE_IN) + UP_CNT + 1 micro-steps. -/
def Obligations.WalkTerminatesWithinTheBound : Prop :=
  (∀ s t : State, s.twState = .running → 0 < s.twRem → exec .twStep s = .next t →
    (t.twState = .truncated ∨ t.twState = .malformed) ∨
    (∃ x, t.symOut = s.symOut ++ [x] ∧ t.twRem = s.twRem - 1 ∧ pendingBits t = pendingBits s) ∨
    (∃ b, pendingBits s = b :: pendingBits t ∧ t.symOut = s.symOut ∧ t.twRem = s.twRem)) ∧
  (∀ s : State, s.twState = .running → 0 < s.twRem → s.twRem ≤ s.twTotal →
    ∃ n u r, n ≤ s.twTotal.toNat + 8 * s.byteIn.length + s.upCnt.val + 1 ∧
      (∀ k, k < n → ∃ v, execAll (List.replicate k .twStep) s = .next v ∧ v.twState = .running) ∧
      execAll (List.replicate n .twStep) s = .next u ∧ u.twState ≠ .running ∧
      exec .twRun s = .next { u with result := r })

/-- R169: outside RUNNING TW_RUN is refused; from RUNNING it is TW_STEP issued until the walker leaves RUNNING, which
it does in a terminal state, with RESULT overwritten by that state's number and no bit or symbol. -/
def Obligations.TwRunIsTheLoopOfMicroSteps : Prop :=
  encode .twRun = .cmd 0x00000032 ∧
  ∀ s : State,
    (s.twState ≠ .running →
      exec .twRun s = .next { s with result := Result.ofCode .notRunning, err := s.err ||| 0x08 }) ∧
    (s.twState = .running →
      ∃ n u,
        (∀ k, k < n → ∃ v, execAll (List.replicate k .twStep) s = .next v ∧ v.twState = .running) ∧
        execAll (List.replicate n .twStep) s = .next u ∧
        ((u.twState = .done ∧ exec .twRun s = .next { u with result := Result.ofCode .done }) ∨
         (u.twState = .truncated ∧ exec .twRun s = .next { u with result := Result.ofCode .truncated }) ∨
         (u.twState = .malformed ∧ exec .twRun s = .next { u with result := Result.ofCode .malformed })))

/-- R94, R99, R164, R174: on the image of a tree, with the codes of the symbols owed in front of the stream, TW_RUN
emits exactly those symbols, ends DONE, and consumes exactly their codes. -/
def Obligations.TwRunDecodesTheCodesOfATree : Prop :=
  ∀ (s : State) (tree : HuffTree) (coded : List (Symbol × List Bool)) (rest : List Bool),
    s.twState = .running → s.twCur = s.twRoot → holdsTree s.tm s.twRoot tree →
    (∀ c ∈ coded, c ∈ deriveCodes tree) → coded ≠ [] → s.twRem.toNat = coded.length →
    pendingBits s = coded.flatMap Prod.snd ++ rest →
    ∃ t, exec .twRun s = .next t ∧ t.symOut = s.symOut ++ coded.map Prod.fst ∧ t.twState = .done ∧
      t.twRem = 0 ∧ t.twCur = s.twRoot ∧ t.err = s.err ∧ pendingBits t = rest

/-- R167, R266, R270: when the stream ends inside a code, TW_RUN keeps what was decoded, stops TRUNCATED, and TW_REM
holds the shortfall. -/
def Obligations.TwRunTruncatedKeepsWhatWasDecoded : Prop :=
  ∀ (s : State) (tree : HuffTree) (coded : List (Symbol × List Bool)) (c : Symbol × List Bool) (cut : List Bool),
    s.twState = .running → s.twCur = s.twRoot → holdsTree s.tm s.twRoot tree →
    (∀ d ∈ coded, d ∈ deriveCodes tree) → c ∈ deriveCodes tree → cut <+: c.2 → cut ≠ c.2 →
    coded.length < s.twRem.toNat → pendingBits s = coded.flatMap Prod.snd ++ cut →
    ∃ t, exec .twRun s = .next t ∧ t.symOut = s.symOut ++ coded.map Prod.fst ∧ t.twState = .truncated ∧
      t.twRem.toNat = s.twRem.toNat - coded.length ∧ t.upEos = true ∧ t.err = s.err ||| 0x20

/-- R172: a root that is a leaf has the zero-bit code: every micro-step pushes its symbol and reads no bit, and after
TW_TOTAL of them the session is DONE with the unpacker and BYTE_IN untouched. -/
def Obligations.SingleLeafTreeReadsNoBit : Prop :=
  ∀ (s : State) (e : TmEntry), s.twState ≠ .running → s.twTotal ≠ 0 → s.twRoot ≠ 255 →
    Memory.read s.tm s.twRoot.toNat = some e → e.lv = false → e.rv = false →
    (∀ k, k < s.twTotal.toNat → ∃ r, execAll (.twStart :: List.replicate k .twStep) s =
      .next { s with
        symOut := s.symOut ++ List.replicate k e.sym, twCur := s.twRoot
        twRem := s.twTotal - BitVec.ofNat 39 k, twState := .running, result := r }) ∧
    execAll [.twStart, .twRun] s =
      .next { s with
        symOut := s.symOut ++ List.replicate s.twTotal.toNat e.sym, twCur := s.twRoot, twRem := 0
        twState := .done, result := Result.ofCode .done }

/-! ## The host port -/

/-- R261: a word written to CMD that is no command. -/
def Obligations.IllegalCommandIsRefused : Prop :=
  ∀ (w : Word) (r : CmdReject) (s : State), decodeCmd w = .error r →
    exec (.hwrite 0x000 w) s = .next { s with result := Result.ofCode .illegalCmd, err := s.err ||| 0x01 }

/-- R41: a write to CMD executes the command the word encodes; a read of CMD returns 0 and changes nothing. -/
def Obligations.WriteToCmdIssuesTheCommand : Prop :=
  (∀ (w : Word) (i : Instr) (s : State), decodeCmd w = .ok i → exec (.hwrite 0x000 w) s = exec i s) ∧
  (∀ s : State, exec (.hread 0x000) s = .next { s with rdata := 0 })

/-- R42, R43: reads of STATUS and RESULT, field by field, with no side effect; a write to STATUS is bad (R52). -/
def Obligations.StatusAndResultRead : Prop :=
  ∀ s : State,
    (∃ d : Word, exec (.hread 0x001) s = .next { s with rdata := d } ∧
      d.extractLsb' 0 3 = s.twState.toBits ∧ d.getLsbD 3 = s.upEos ∧ d.getLsbD 4 = s.pkClosed ∧
      d.extractLsb' 5 27 = 0) ∧
    (∀ w, exec (.hwrite 0x001 w) s = .next { s with err := s.err ||| 0x10 }) ∧
    (∃ d : Word, exec (.hread 0x002) s = .next { s with rdata := d } ∧
      d.extractLsb' 0 4 = s.result.code.toBits ∧ d.getLsbD 4 = s.result.bitv ∧ d.getLsbD 5 = s.result.bit ∧
      d.getLsbD 6 = s.result.symv ∧ d.getLsbD 7 = false ∧ d.extractLsb' 8 7 = s.result.sym ∧
      d.extractLsb' 15 17 = 0)

/-- R47 to R50: reads of TW_REM, TW_CUR, PK_STATE and UP_STATE, with no side effect; their writes are bad (R52). -/
def Obligations.UnitRegistersRead : Prop :=
  ∀ s : State,
    exec (.hread 0x007) s = .next { s with rdata := s.twRem.setWidth 32 } ∧
    exec (.hread 0x008) s = .next { s with rdata := (s.twRem >>> 32).setWidth 32 } ∧
    exec (.hread 0x009) s = .next { s with rdata := s.twCur.setWidth 32 } ∧
    exec (.hread 0x00A) s =
      .next { s with rdata := s.pkAcc.setWidth 32 ||| s.pkCnt.setWidth 32 <<< 8 } ∧
    exec (.hread 0x00B) s =
      .next { s with rdata := s.upBuf.setWidth 32 ||| BitVec.ofNat 32 s.upCnt.val <<< 8 } ∧
    ∀ a ∈ ([0x007, 0x008, 0x009, 0x00A, 0x00B] : List PortIndex), ∀ w,
      exec (.hwrite a w) s = .next { s with err := s.err ||| 0x10 }

/-- R52, R265: reads of unmapped indices, and writes to unmapped indices and read-only registers. -/
def Obligations.BadAddressOnlyFlags : Prop :=
  ∀ (a : PortIndex) (d : Word) (s : State),
    ((0x00C ≤ a ∧ a ≤ 0x0FF) ∨ a = 0x1FF →
      exec (.hread a) s = .next { s with rdata := 0, err := s.err ||| 0x10 }) ∧
    ((0x00C ≤ a ∧ a ≤ 0x0FF) ∨ a = 0x1FF ∨
        a ∈ ([0x001, 0x002, 0x007, 0x008, 0x009, 0x00A, 0x00B] : List PortIndex) →
      exec (.hwrite a d) s = .next { s with err := s.err ||| 0x10 })

/-- R44, R203: ERR reads zero-extended; a write of `d` clears the bits that hold 1 in `d[6:0]` and leaves the others, in
every TW_STATE; no operation but that write and RESET clears a bit. -/
def Obligations.ErrIsStickyAndWriteOneToClear : Prop :=
  (∀ s : State, exec (.hread 0x003) s = .next { s with rdata := s.err.setWidth 32 }) ∧
  (∀ (d : Word) (s : State), ∃ e : BitVec 7,
    exec (.hwrite 0x003 d) s = .next { s with err := e } ∧
    ∀ n, n < 7 → e.getLsbD n = (s.err.getLsbD n && !d.getLsbD n)) ∧
  (∀ (i : Instr) (s t : State) (n : Nat), n < 7 → exec i s = .next t → s.err.getLsbD n = true →
    t.err.getLsbD n = true ∨ isResetCommand i ∨ (∃ d : Word, i = .hwrite 0x003 d ∧ d.getLsbD n = true))

/-- R45: TW_ROOT reads zero-extended, takes `w[7:0]` while not RUNNING, and drops a write while RUNNING. -/
def Obligations.TwRootRegister : Prop :=
  ∀ (w : Word) (s : State),
    exec (.hread 0x004) s = .next { s with rdata := s.twRoot.setWidth 32 } ∧
    (s.twState ≠ .running → exec (.hwrite 0x004 w) s = .next { s with twRoot := w.setWidth 8 }) ∧
    (s.twState = .running → exec (.hwrite 0x004 w) s = .next { s with err := s.err ||| 0x02 })

/-- R46, R95: the halves of TW_TOTAL read and, while not RUNNING, take their bits independently; both writes together
assemble `(HI[6:0], LO)`, which TW_START reads at once. -/
def Obligations.TwTotalRegisters : Prop :=
  ∀ (lo hi : Word) (s : State),
    exec (.hread 0x005) s = .next { s with rdata := s.twTotal.setWidth 32 } ∧
    exec (.hread 0x006) s = .next { s with rdata := (s.twTotal >>> 32).setWidth 32 } ∧
    (s.twState ≠ .running →
      (∃ n : Total, exec (.hwrite 0x005 lo) s = .next { s with twTotal := n } ∧
        n.extractLsb' 0 32 = lo ∧ n.extractLsb' 32 7 = s.twTotal.extractLsb' 32 7) ∧
      (∃ n : Total, exec (.hwrite 0x006 hi) s = .next { s with twTotal := n } ∧
        n.extractLsb' 32 7 = hi.extractLsb' 0 7 ∧ n.extractLsb' 0 32 = s.twTotal.extractLsb' 0 32) ∧
      ∃ t, execAll [.hwrite 0x005 lo, .hwrite 0x006 hi, .twStart] s = .next t ∧
        t.twRem = hi.extractLsb' 0 7 ++ lo)

/-- R51 with the layout R93: entry i, i in 0..254, reads 0 when unwritten, else its fields with bit 31 set and the
reserved bits 0; a write while not RUNNING makes it written with the word's fields and leaves every other entry; a write
while RUNNING is dropped; and nothing but RESET makes a written entry unwritten. -/
def Obligations.TreeMemoryWindow : Prop :=
  (∀ (d : Word) (s : State) (i : Nat), i < 255 →
    (Memory.read s.tm i = none →
      exec (.hread (BitVec.ofNat 9 (0x100 + i))) s = .next { s with rdata := 0 }) ∧
    (∀ e, Memory.read s.tm i = some e →
      ∃ r : Word, exec (.hread (BitVec.ofNat 9 (0x100 + i))) s = .next { s with rdata := r } ∧
        r.extractLsb' 0 7 = e.sym ∧ r.getLsbD 7 = false ∧ r.extractLsb' 8 8 = e.left ∧
        r.extractLsb' 16 8 = e.right ∧ r.getLsbD 24 = e.lv ∧ r.getLsbD 25 = e.rv ∧
        r.extractLsb' 26 5 = 0 ∧ r.getLsbD 31 = true) ∧
    (s.twState ≠ .running → Memory.wf s.tm = true →
      ∃ m : Memory, exec (.hwrite (BitVec.ofNat 9 (0x100 + i)) d) s = .next { s with tm := m } ∧
        (∃ e, Memory.read m i = some e ∧ e.sym = d.extractLsb' 0 7 ∧ e.left = d.extractLsb' 8 8 ∧
          e.right = d.extractLsb' 16 8 ∧ e.lv = d.getLsbD 24 ∧ e.rv = d.getLsbD 25) ∧
        ∀ j, j ≠ i → Memory.read m j = Memory.read s.tm j) ∧
    (s.twState = .running →
      exec (.hwrite (BitVec.ofNat 9 (0x100 + i)) d) s = .next { s with err := s.err ||| 0x02 })) ∧
  (∀ (i : Instr) (s t : State) (j : Nat), Memory.wf s.tm = true → Memory.read s.tm j ≠ none → exec i s = .next t →
    isResetCommand i ∨ Memory.read t.tm j ≠ none)

/-- R204: while not RUNNING a host write to TW_ROOT, TW_TOTAL or a TM entry is done, so that a read of the same index
returns the word's fields; while RUNNING it is dropped, and the read returns what it returned before. -/
def Obligations.LockedRegistersTakeWritesOnlyOutsideRunning : Prop :=
  ∀ (a : PortIndex) (d mask ones : Word) (s : State),
    (a = 0x004 ∧ mask = 0x000000FF ∧ ones = 0) ∨ (a = 0x005 ∧ mask = 0xFFFFFFFF ∧ ones = 0) ∨
      (a = 0x006 ∧ mask = 0x0000007F ∧ ones = 0) ∨
      (0x100 ≤ a ∧ a ≤ 0x1FE ∧ mask = 0x03FFFF7F ∧ ones = 0x80000000) →
    (s.twState ≠ .running →
      ∃ t u, exec (.hwrite a d) s = .next t ∧ exec (.hread a) t = .next u ∧
        u.rdata = (ones ||| (d &&& mask)) ∧ u.err = s.err ∧ u.result = s.result) ∧
    (s.twState = .running →
      ∃ t u v, exec (.hwrite a d) s = .next t ∧ exec (.hread a) t = .next u ∧ exec (.hread a) s = .next v ∧
        t = { s with err := s.err ||| 0x02 } ∧ u.rdata = v.rdata)

/-- R262: while RUNNING the commands UP_OPEN, UP_GBIT and TW_START are refused with BUSY, and a host write to TW_ROOT,
TW_TOTAL or a TM entry is dropped with ERR.BUSY and RESULT untouched. -/
def Obligations.BusyProtectsTheWalk : Prop :=
  ∀ s : State, s.twState = .running →
    (∀ i ∈ ([.upOpen, .upGbit, .twStart] : List Instr),
      exec i s = .next { s with result := Result.ofCode .busy, err := s.err ||| 0x02 }) ∧
    (∀ (a : PortIndex) (d : Word), a = 0x004 ∨ a = 0x005 ∨ a = 0x006 ∨ (0x100 ≤ a ∧ a ≤ 0x1FE) →
      exec (.hwrite a d) s = .next { s with err := s.err ||| 0x02 })

/-! ## Whole-machine rules -/

/-- R33 (d), R79: while RUNNING no operation but RESET changes TW_ROOT, TW_TOTAL or TM. -/
def Obligations.TreeIsConstantDuringAWalk : Prop :=
  ∀ (i : Instr) (s t : State), s.twState = .running → exec i s = .next t →
    isResetCommand i ∨ (t.twRoot = s.twRoot ∧ t.twTotal = s.twTotal ∧ t.tm = s.tm)

/-- R31, R33 (c): TW_REM stays at most TW_TOTAL across every operation that leaves TW_TOTAL as it was. -/
def Obligations.RemainderStaysWithinTheTotal : Prop :=
  ∀ (i : Instr) (s t : State), s.walkerInv → s.twRem ≤ s.twTotal → exec i s = .next t → t.twTotal = s.twTotal →
    t.twRem ≤ t.twTotal

/-- R35: only a write to CMD changes RESULT: host reads, and host writes to any other index, leave it. -/
def Obligations.OnlyCommandsWriteResult : Prop :=
  ∀ (a : PortIndex) (d : Word) (s t : State),
    (exec (.hread a) s = .next t → t.result = s.result) ∧
    (a ≠ 0x000 → exec (.hwrite a d) s = .next t → t.result = s.result)

/-! ## Frames -/

/-- R76, R120: the packer's commands leave the unpacker, the walker, TM, BYTE_IN, SYM_OUT and the port alone, change
no ERR bit but PK_CLOSED, and only append to BYTE_OUT. -/
def Obligations.PackerFrame : Prop :=
  ∀ (i : Instr) (s t : State), isPackerCommand i = true → exec i s = .next t →
    t.upBuf = s.upBuf ∧ t.upCnt = s.upCnt ∧ t.upEos = s.upEos ∧
    t.twRoot = s.twRoot ∧ t.twTotal = s.twTotal ∧ t.twRem = s.twRem ∧ t.twCur = s.twCur ∧ t.twState = s.twState ∧
    (∀ j, Memory.read t.tm j = Memory.read s.tm j) ∧
    t.byteIn = s.byteIn ∧ t.symOut = s.symOut ∧ t.rdata = s.rdata ∧ t.port = s.port ∧
    (∀ n, n ≠ 2 → t.err.getLsbD n = s.err.getLsbD n) ∧ s.byteOut <+: t.byteOut

/-- R76, R61: the unpacker's and the walker's commands leave the packer, BYTE_OUT, TW_ROOT, TW_TOTAL, TM and the port
alone, change no ERR bit but BUSY, NOT_RUNNING, TRUNCATED and MALFORMED, only append to SYM_OUT, and only take from the
front of BYTE_IN. -/
def Obligations.DecoderFrame : Prop :=
  ∀ (i : Instr) (s t : State), isDecoderCommand i = true → exec i s = .next t →
    t.pkAcc = s.pkAcc ∧ t.pkCnt = s.pkCnt ∧ t.pkClosed = s.pkClosed ∧ t.byteOut = s.byteOut ∧
    t.twRoot = s.twRoot ∧ t.twTotal = s.twTotal ∧ (∀ j, Memory.read t.tm j = Memory.read s.tm j) ∧
    t.rdata = s.rdata ∧ t.port = s.port ∧
    (∀ n, n = 0 ∨ n = 2 ∨ n = 4 → t.err.getLsbD n = s.err.getLsbD n) ∧
    s.symOut <+: t.symOut ∧ t.byteIn <:+ s.byteIn

/-- R162, R170, R140: TW_START and TW_STOP leave the unpacker, BYTE_IN and SYM_OUT alone; UP_OPEN and UP_GBIT leave the
walker and SYM_OUT alone, and UP_OPEN pulls nothing. -/
def Obligations.WalkerAndUnpackerCommandsKeepApart : Prop :=
  ∀ s t : State,
    (exec .twStart s = .next t ∨ exec .twStop s = .next t →
      t.upBuf = s.upBuf ∧ t.upCnt = s.upCnt ∧ t.upEos = s.upEos ∧ t.byteIn = s.byteIn ∧ t.symOut = s.symOut) ∧
    (exec .upOpen s = .next t ∨ exec .upGbit s = .next t →
      t.twRem = s.twRem ∧ t.twCur = s.twCur ∧ t.twState = s.twState ∧ t.symOut = s.symOut) ∧
    (exec .upOpen s = .next t → t.byteIn = s.byteIn)

/-- R73, R201, R62: a host read, and a host write that is no command, leave the packer, the unpacker, TW_REM, TW_CUR,
TW_STATE, RESULT and the streams alone; the read changes no register but ERR.BAD_ADDR; the write changes TW_ROOT,
TW_TOTAL and TM only where it addresses them, and ERR by clearing the bits it names at ERR's own index, elsewhere by
setting BUSY or BAD_ADDR at most. -/
def Obligations.HostAccessFrame : Prop :=
  ∀ (i : Instr) (a : PortIndex) (d : Word) (s t : State), Memory.wf s.tm = true →
    i = .hread a ∨ (i = .hwrite a d ∧ a ≠ 0x000) → exec i s = .next t →
    t.pkAcc = s.pkAcc ∧ t.pkCnt = s.pkCnt ∧ t.pkClosed = s.pkClosed ∧
    t.upBuf = s.upBuf ∧ t.upCnt = s.upCnt ∧ t.upEos = s.upEos ∧
    t.twRem = s.twRem ∧ t.twCur = s.twCur ∧ t.twState = s.twState ∧
    t.result = s.result ∧
    t.byteIn = s.byteIn ∧ t.byteOut = s.byteOut ∧ t.symOut = s.symOut ∧ t.port = s.port ∧
    (i = .hread a →
      t.twRoot = s.twRoot ∧ t.twTotal = s.twTotal ∧ t.tm = s.tm ∧
      (∀ n, n ≠ 4 → t.err.getLsbD n = s.err.getLsbD n)) ∧
    (i = .hwrite a d →
      t.rdata = s.rdata ∧
      (a ≠ 0x004 → t.twRoot = s.twRoot) ∧ (a ≠ 0x005 → a ≠ 0x006 → t.twTotal = s.twTotal) ∧
      (∀ j : Nat, a.toNat ≠ 0x100 + j → Memory.read t.tm j = Memory.read s.tm j) ∧
      (a = 0x003 → ∀ n, n < 7 → t.err.getLsbD n = (s.err.getLsbD n && !d.getLsbD n)) ∧
      (a ≠ 0x003 → t.err = s.err ∨ t.err = s.err ||| 0x02 ∨ t.err = s.err ||| 0x10))

/-- R76: a packer command and an unpacker or walker command commute in everything but RESULT and ERR. That ERR comes out
the same too goes beyond R76: commands only or bits into it (R36, R274), the packer's PK_CLOSED, the others different
ones (R260). -/
def Obligations.PackerCommutesWithTheDecoder : Prop :=
  ∀ (p u : Instr) (s : State), isPackerCommand p = true → isDecoderCommand u = true →
    ∃ t t', execAll [p, u] s = .next t ∧ execAll [u, p] s = .next t' ∧ t = { t' with result := t.result }

/-! ## The surrounding software (45_host_contract.md), with HTD -/

/-- R228 to R231, R233, R242: the builder gives no tree exactly for the empty source; else a tree whose leaves are the
symbols of non-zero frequency, whose root carries the total, and whose nodes bear distinct indices below 255. For sums
past any width this rests on the model's natural numbers (log entry 10), where N9 leaves overflow open. -/
def Obligations.BuilderMakesTheTreeOfTheTable : Prop :=
  ∀ t : FreqTable, t.length = 128 →
    (buildTree t = none ↔ ∀ n ∈ t, n = 0) ∧
    (∀ tree, buildTree t = some tree →
      ((deriveCodes tree).map Prod.fst).Perm
        (((List.range 128).filter (fun s => 0 < t.getD s 0)).map (BitVec.ofNat 7)) ∧
      tree.freq = t.sum ∧ tree.nodeIds.Nodup ∧ ∀ k ∈ tree.nodeIds, k < 255)

/-- R235, R248: no code of a tree is a prefix of another of its codes. -/
def Obligations.CodesArePrefixFree : Prop :=
  ∀ tree : HuffTree, (deriveCodes tree).Pairwise (fun c d => ¬(c.2 <+: d.2) ∧ ¬(d.2 <+: c.2))

/-- R236, R237, R243: the header is 512 bytes and reads back, in either byte order and signedness, when its entries fit
(beyond that log entry 14 chooses); a file that cannot be read, or a shorter one, is MalformedHeader. -/
def Obligations.HeaderReadsBack : Prop :=
  (∀ (o : Config.ByteOrder) (g : Config.Signedness) (t : FreqTable) (body : List Byte),
    t.length = 128 → (∀ n ∈ t, n < headerLimit g) →
    (headerBytes o t).length = 512 ∧ parseHeader o g (some (headerBytes o t ++ body)) = .ok t) ∧
  (∀ (o : Config.ByteOrder) (g : Config.Signedness),
    parseHeader o g none = .error .malformedHeader ∧
    ∀ file : List Byte, file.length < 512 → parseHeader o g (some file) = .error .malformedHeader)

/-- R223, R243, R244: an unsupported byte, or a malformed header, ends the host's work before it issues any operation, so
HTD, its streams included, is as it was; otherwise both ends of the codec finish (R238 to R241). The model's choices:
that a negative header integer is a malformed header (log entry 13), and that the encoder finishes on counts past 32
bits too, where R223 and N9 leave the outcome open (log entries 10 and 14). -/
def Obligations.HostErrorsAbortBeforeAnyOperation : Prop :=
  ∀ (o : Config.ByteOrder) (g : Config.Signedness) (s : State),
    (∀ source : List Byte, (∃ b ∈ source, 128 ≤ b.toNat) →
      encodeFile o source s = .aborted .unsupportedSymbol s) ∧
    (∀ source : List Byte, (∀ b ∈ source, b.toNat < 128) → ∃ file t, encodeFile o source s = .finished file t) ∧
    decodeFile o g none s = .aborted .malformedHeader s ∧
    (∀ file : List Byte, file.length < 512 → decodeFile o g (some file) s = .aborted .malformedHeader s) ∧
    (∀ file : List Byte, (∃ n ∈ headerInts o g file, n < 0) →
      decodeFile o g (some file) s = .aborted .malformedHeader s) ∧
    (∀ file : List Byte, 512 ≤ file.length → (∀ n ∈ headerInts o g file, 0 ≤ n) →
      ∃ r t, decodeFile o g (some file) s = .finished r t)

/-- R237 to R240, and R248, "Header integrity": the encoder on HTD writes exactly the compressed file, the header and
then the body; from its header the decoder gets the encoder's table and tree, and a total that is the source's length.
The host, with its natural-number sums, is the model's (log entry 10). -/
def Obligations.EncodedFileRebuildsTreeAndTotal : Prop :=
  ∀ (o : Config.ByteOrder) (g : Config.Signedness) (source : List Byte) (xs : List Symbol) (s : State),
    symbolsOf source = .ok xs → (∀ x : Symbol, xs.count x < headerLimit g) →
    (∃ t, encodeFile o source s = .finished (compressedFile o xs) t) ∧
    (compressedFile o xs).drop 512 = packBits (sourceBits xs) ∧
    parseHeader o g (some (compressedFile o xs)) = .ok (countSymbols xs) ∧
    decodePlan o g (some (compressedFile o xs)) = .ok (buildTree (countSymbols xs), source.length)

/-- R248, "Compression sanity", with one byte per symbol as the naive encoding (the model's choice, log entry 15): the
body of every non-empty source, skewed or not, is strictly smaller than the source. That its code bits are never more
than 7 for each symbol follows from the builder and the codes (R228, R229, R235). For sources of any size both rest on
natural-number counts and sums (log entry 10), where R223, R233 and N9 leave overflow open. -/
def Obligations.EncodedBodyIsSmallerThanTheSource : Prop :=
  ∀ (source : List Byte) (xs : List Symbol), symbolsOf source = .ok xs → source ≠ [] →
    (packBits (sourceBits xs)).length < source.length ∧ (sourceBits xs).length ≤ 7 * source.length

/-- R248, "Round-trip", on HTD under the host contract (the model's host, log entries 1 and 10): for every source of
supported bytes whose counts fit the header, the file the encoder writes on one HTD, given to the decoder on another,
appends exactly the source's bytes to SYM_OUT, whatever state either HTD was in, RUNNING included (R297 step 1). The decoder has the file
alone: tree and total come from its header. The walk ends DONE with nothing owed and no new error, and the host reads
so. -/
def Obligations.SystemRoundTrip : Prop :=
  ∀ (o : Config.ByteOrder) (g : Config.Signedness) (source : List Byte) (xs : List Symbol) (s s' : State),
    symbolsOf source = .ok xs → (∀ x : Symbol, xs.count x < headerLimit g) →
    Memory.wf s'.tm = true →
    ∃ file p r t,
      encodeFile o source s = .finished file p ∧ decodeFile o g (some file) s' = .finished r t ∧
      t.symOut.map symbolByte = s'.symOut.map symbolByte ++ source ∧
      t.twState = .done ∧ t.twRem = 0 ∧ t.err = s'.err ∧
      r.result = 0x00000002 ∧ r.status.extractLsb' 0 3 = 2 ∧ r.remLo = 0 ∧ r.remHi = 0 ∧
      r.err = s'.err.setWidth 32
end

