-- ==== Sys2Proof/Laws/Decode.lean ====
section
/-! SUPPORT. Decoding, constructor by constructor: the word the spec's encoding gives each command decodes to it. -/

namespace Sys2Proof

theorem decodeCmd_nop : decodeCmd 0x00000000 = .ok .nop := by decide
theorem decodeCmd_reset : decodeCmd 0x00000001 = .ok .reset := by decide
theorem decodeCmd_pkOpen : decodeCmd 0x00000010 = .ok .pkOpen := by decide
theorem decodeCmd_pkWbit_zero : decodeCmd 0x00000011 = .ok (.pkWbit false) := by decide
theorem decodeCmd_pkWbit_one : decodeCmd 0x00000111 = .ok (.pkWbit true) := by decide
theorem decodeCmd_pkClose : decodeCmd 0x00000012 = .ok .pkClose := by decide
theorem decodeCmd_upOpen : decodeCmd 0x00000020 = .ok .upOpen := by decide
theorem decodeCmd_upGbit : decodeCmd 0x00000021 = .ok .upGbit := by decide
theorem decodeCmd_twStart : decodeCmd 0x00000030 = .ok .twStart := by decide
theorem decodeCmd_twStep : decodeCmd 0x00000031 = .ok .twStep := by decide
theorem decodeCmd_twRun : decodeCmd 0x00000032 = .ok .twRun := by decide
theorem decodeCmd_twStop : decodeCmd 0x00000033 = .ok .twStop := by decide

/-- `HREAD 0x00A`, program P1 operation 17 of 95_test_vectors.md. -/
theorem decodePort_hread : decodePort 0x00A00000000 = .hread 0x00A := by decide

/-- `NODE 4, 2, 3`, program P2 operation 6. -/
theorem decodePort_hwrite : decodePort 0x30403030200 = .hwrite 0x104 0x03030200 := by decide

/-- What decoding a command word can answer (30_encoding.md R97): the command of one of the eleven words of R96, or a
rejection. -/
theorem decodeCmd_cases (w : Word) (i : Instr) (h : decodeCmd w = .ok i) :
    (w = 0x00000000 ∧ i = .nop) ∨ (w = 0x00000001 ∧ i = .reset) ∨ (w = 0x00000010 ∧ i = .pkOpen) ∨
    (w &&& 0xFFFFFEFF = 0x00000011 ∧ i = .pkWbit (w.getLsbD 8)) ∨ (w = 0x00000012 ∧ i = .pkClose) ∨
    (w = 0x00000020 ∧ i = .upOpen) ∨ (w = 0x00000021 ∧ i = .upGbit) ∨ (w = 0x00000030 ∧ i = .twStart) ∨
    (w = 0x00000031 ∧ i = .twStep) ∨ (w = 0x00000032 ∧ i = .twRun) ∨ (w = 0x00000033 ∧ i = .twStop) := by
  have all : ∀ v : Word, v &&& 0xFFFFFFFF = v := fun v => BitVec.and_allOnes (x := v)
  unfold decodeCmd at h
  split at h
  · rename_i r hr
    have hm := List.find?_some hr
    have hmem := List.mem_of_find?_eq_some hr
    simp only [cmdRowMatches, beq_iff_eq] at hm
    injection h with h
    subst h
    simp only [cmdTable, List.mem_cons, List.not_mem_nil, or_false] at hmem
    rcases hmem with rfl | rfl | rfl | rfl | rfl | rfl | rfl | rfl | rfl | rfl | rfl <;>
      (try rw [all] at hm) <;> simp <;> exact hm
  · cases h

/-- No command word decodes to a port transaction. -/
theorem decodeCmd_not_port (w : Word) (a : PortIndex) (d : Word) :
    decodeCmd w ≠ .ok (.hread a) ∧ decodeCmd w ≠ .ok (.hwrite a d) := by
  constructor <;> intro h <;> have := decodeCmd_cases w _ h <;> simp at this

end Sys2Proof
end

