-- ==== Sys2Proof/Laws/State.lean ====
section
/-! SUPPORT. What each named update of the state writes and what it leaves: one lemma per field per update, all true by
unfolding the update, so that no later proof unfolds one. -/

namespace Sys2Proof.Machine

/-! `respond` -/

@[simp] theorem respond_pkAcc (r : Result) (s : State) : (respond r s).pkAcc = s.pkAcc := rfl
@[simp] theorem respond_pkCnt (r : Result) (s : State) : (respond r s).pkCnt = s.pkCnt := rfl
@[simp] theorem respond_pkClosed (r : Result) (s : State) : (respond r s).pkClosed = s.pkClosed := rfl
@[simp] theorem respond_upBuf (r : Result) (s : State) : (respond r s).upBuf = s.upBuf := rfl
@[simp] theorem respond_upCnt (r : Result) (s : State) : (respond r s).upCnt = s.upCnt := rfl
@[simp] theorem respond_upEos (r : Result) (s : State) : (respond r s).upEos = s.upEos := rfl
@[simp] theorem respond_twRoot (r : Result) (s : State) : (respond r s).twRoot = s.twRoot := rfl
@[simp] theorem respond_twTotal (r : Result) (s : State) : (respond r s).twTotal = s.twTotal := rfl
@[simp] theorem respond_twRem (r : Result) (s : State) : (respond r s).twRem = s.twRem := rfl
@[simp] theorem respond_twCur (r : Result) (s : State) : (respond r s).twCur = s.twCur := rfl
@[simp] theorem respond_twState (r : Result) (s : State) : (respond r s).twState = s.twState := rfl
@[simp] theorem respond_tm (r : Result) (s : State) : (respond r s).tm = s.tm := rfl
@[simp] theorem respond_result (r : Result) (s : State) : (respond r s).result = r := rfl
@[simp] theorem respond_err (r : Result) (s : State) : (respond r s).err = s.err := rfl
@[simp] theorem respond_byteIn (r : Result) (s : State) : (respond r s).byteIn = s.byteIn := rfl
@[simp] theorem respond_byteOut (r : Result) (s : State) : (respond r s).byteOut = s.byteOut := rfl
@[simp] theorem respond_symOut (r : Result) (s : State) : (respond r s).symOut = s.symOut := rfl
@[simp] theorem respond_rdata (r : Result) (s : State) : (respond r s).rdata = s.rdata := rfl
@[simp] theorem respond_port (r : Result) (s : State) : (respond r s).port = s.port := rfl

/-! `flag` -/

@[simp] theorem flag_pkAcc (c : Cause) (s : State) : (flag c s).pkAcc = s.pkAcc := rfl
@[simp] theorem flag_pkCnt (c : Cause) (s : State) : (flag c s).pkCnt = s.pkCnt := rfl
@[simp] theorem flag_pkClosed (c : Cause) (s : State) : (flag c s).pkClosed = s.pkClosed := rfl
@[simp] theorem flag_upBuf (c : Cause) (s : State) : (flag c s).upBuf = s.upBuf := rfl
@[simp] theorem flag_upCnt (c : Cause) (s : State) : (flag c s).upCnt = s.upCnt := rfl
@[simp] theorem flag_upEos (c : Cause) (s : State) : (flag c s).upEos = s.upEos := rfl
@[simp] theorem flag_twRoot (c : Cause) (s : State) : (flag c s).twRoot = s.twRoot := rfl
@[simp] theorem flag_twTotal (c : Cause) (s : State) : (flag c s).twTotal = s.twTotal := rfl
@[simp] theorem flag_twRem (c : Cause) (s : State) : (flag c s).twRem = s.twRem := rfl
@[simp] theorem flag_twCur (c : Cause) (s : State) : (flag c s).twCur = s.twCur := rfl
@[simp] theorem flag_twState (c : Cause) (s : State) : (flag c s).twState = s.twState := rfl
@[simp] theorem flag_tm (c : Cause) (s : State) : (flag c s).tm = s.tm := rfl
@[simp] theorem flag_result (c : Cause) (s : State) : (flag c s).result = s.result := rfl
@[simp] theorem flag_err (c : Cause) (s : State) : (flag c s).err = s.err ||| c.mask := rfl
@[simp] theorem flag_byteIn (c : Cause) (s : State) : (flag c s).byteIn = s.byteIn := rfl
@[simp] theorem flag_byteOut (c : Cause) (s : State) : (flag c s).byteOut = s.byteOut := rfl
@[simp] theorem flag_symOut (c : Cause) (s : State) : (flag c s).symOut = s.symOut := rfl
@[simp] theorem flag_rdata (c : Cause) (s : State) : (flag c s).rdata = s.rdata := rfl
@[simp] theorem flag_port (c : Cause) (s : State) : (flag c s).port = s.port := rfl

/-! `raise` -/

@[simp] theorem raise_pkAcc (c : Cause) (r : Result) (s : State) : (raise c r s).pkAcc = s.pkAcc := rfl
@[simp] theorem raise_pkCnt (c : Cause) (r : Result) (s : State) : (raise c r s).pkCnt = s.pkCnt := rfl
@[simp] theorem raise_pkClosed (c : Cause) (r : Result) (s : State) : (raise c r s).pkClosed = s.pkClosed := rfl
@[simp] theorem raise_upBuf (c : Cause) (r : Result) (s : State) : (raise c r s).upBuf = s.upBuf := rfl
@[simp] theorem raise_upCnt (c : Cause) (r : Result) (s : State) : (raise c r s).upCnt = s.upCnt := rfl
@[simp] theorem raise_upEos (c : Cause) (r : Result) (s : State) : (raise c r s).upEos = s.upEos := rfl
@[simp] theorem raise_twRoot (c : Cause) (r : Result) (s : State) : (raise c r s).twRoot = s.twRoot := rfl
@[simp] theorem raise_twTotal (c : Cause) (r : Result) (s : State) : (raise c r s).twTotal = s.twTotal := rfl
@[simp] theorem raise_twRem (c : Cause) (r : Result) (s : State) : (raise c r s).twRem = s.twRem := rfl
@[simp] theorem raise_twCur (c : Cause) (r : Result) (s : State) : (raise c r s).twCur = s.twCur := rfl
@[simp] theorem raise_twState (c : Cause) (r : Result) (s : State) : (raise c r s).twState = s.twState := rfl
@[simp] theorem raise_tm (c : Cause) (r : Result) (s : State) : (raise c r s).tm = s.tm := rfl
@[simp] theorem raise_result (c : Cause) (r : Result) (s : State) : (raise c r s).result = r := rfl
@[simp] theorem raise_err (c : Cause) (r : Result) (s : State) : (raise c r s).err = s.err ||| c.mask := rfl
@[simp] theorem raise_byteIn (c : Cause) (r : Result) (s : State) : (raise c r s).byteIn = s.byteIn := rfl
@[simp] theorem raise_byteOut (c : Cause) (r : Result) (s : State) : (raise c r s).byteOut = s.byteOut := rfl
@[simp] theorem raise_symOut (c : Cause) (r : Result) (s : State) : (raise c r s).symOut = s.symOut := rfl
@[simp] theorem raise_rdata (c : Cause) (r : Result) (s : State) : (raise c r s).rdata = s.rdata := rfl
@[simp] theorem raise_port (c : Cause) (r : Result) (s : State) : (raise c r s).port = s.port := rfl

/-! `sinkPush` -/

@[simp] theorem sinkPush_pkAcc (b : Byte) (s : State) : (sinkPush b s).pkAcc = s.pkAcc := rfl
@[simp] theorem sinkPush_pkCnt (b : Byte) (s : State) : (sinkPush b s).pkCnt = s.pkCnt := rfl
@[simp] theorem sinkPush_pkClosed (b : Byte) (s : State) : (sinkPush b s).pkClosed = s.pkClosed := rfl
@[simp] theorem sinkPush_upBuf (b : Byte) (s : State) : (sinkPush b s).upBuf = s.upBuf := rfl
@[simp] theorem sinkPush_upCnt (b : Byte) (s : State) : (sinkPush b s).upCnt = s.upCnt := rfl
@[simp] theorem sinkPush_upEos (b : Byte) (s : State) : (sinkPush b s).upEos = s.upEos := rfl
@[simp] theorem sinkPush_twRoot (b : Byte) (s : State) : (sinkPush b s).twRoot = s.twRoot := rfl
@[simp] theorem sinkPush_twTotal (b : Byte) (s : State) : (sinkPush b s).twTotal = s.twTotal := rfl
@[simp] theorem sinkPush_twRem (b : Byte) (s : State) : (sinkPush b s).twRem = s.twRem := rfl
@[simp] theorem sinkPush_twCur (b : Byte) (s : State) : (sinkPush b s).twCur = s.twCur := rfl
@[simp] theorem sinkPush_twState (b : Byte) (s : State) : (sinkPush b s).twState = s.twState := rfl
@[simp] theorem sinkPush_tm (b : Byte) (s : State) : (sinkPush b s).tm = s.tm := rfl
@[simp] theorem sinkPush_result (b : Byte) (s : State) : (sinkPush b s).result = s.result := rfl
@[simp] theorem sinkPush_err (b : Byte) (s : State) : (sinkPush b s).err = s.err := rfl
@[simp] theorem sinkPush_byteIn (b : Byte) (s : State) : (sinkPush b s).byteIn = s.byteIn := rfl
@[simp] theorem sinkPush_byteOut (b : Byte) (s : State) : (sinkPush b s).byteOut = s.byteOut ++ [b] := rfl
@[simp] theorem sinkPush_symOut (b : Byte) (s : State) : (sinkPush b s).symOut = s.symOut := rfl
@[simp] theorem sinkPush_rdata (b : Byte) (s : State) : (sinkPush b s).rdata = s.rdata := rfl
@[simp] theorem sinkPush_port (b : Byte) (s : State) : (sinkPush b s).port = s.port := rfl

/-! `symPush` -/

@[simp] theorem symPush_pkAcc (x : Symbol) (s : State) : (symPush x s).pkAcc = s.pkAcc := rfl
@[simp] theorem symPush_pkCnt (x : Symbol) (s : State) : (symPush x s).pkCnt = s.pkCnt := rfl
@[simp] theorem symPush_pkClosed (x : Symbol) (s : State) : (symPush x s).pkClosed = s.pkClosed := rfl
@[simp] theorem symPush_upBuf (x : Symbol) (s : State) : (symPush x s).upBuf = s.upBuf := rfl
@[simp] theorem symPush_upCnt (x : Symbol) (s : State) : (symPush x s).upCnt = s.upCnt := rfl
@[simp] theorem symPush_upEos (x : Symbol) (s : State) : (symPush x s).upEos = s.upEos := rfl
@[simp] theorem symPush_twRoot (x : Symbol) (s : State) : (symPush x s).twRoot = s.twRoot := rfl
@[simp] theorem symPush_twTotal (x : Symbol) (s : State) : (symPush x s).twTotal = s.twTotal := rfl
@[simp] theorem symPush_twRem (x : Symbol) (s : State) : (symPush x s).twRem = s.twRem := rfl
@[simp] theorem symPush_twCur (x : Symbol) (s : State) : (symPush x s).twCur = s.twCur := rfl
@[simp] theorem symPush_twState (x : Symbol) (s : State) : (symPush x s).twState = s.twState := rfl
@[simp] theorem symPush_tm (x : Symbol) (s : State) : (symPush x s).tm = s.tm := rfl
@[simp] theorem symPush_result (x : Symbol) (s : State) : (symPush x s).result = s.result := rfl
@[simp] theorem symPush_err (x : Symbol) (s : State) : (symPush x s).err = s.err := rfl
@[simp] theorem symPush_byteIn (x : Symbol) (s : State) : (symPush x s).byteIn = s.byteIn := rfl
@[simp] theorem symPush_byteOut (x : Symbol) (s : State) : (symPush x s).byteOut = s.byteOut := rfl
@[simp] theorem symPush_symOut (x : Symbol) (s : State) : (symPush x s).symOut = s.symOut ++ [x] := rfl
@[simp] theorem symPush_rdata (x : Symbol) (s : State) : (symPush x s).rdata = s.rdata := rfl
@[simp] theorem symPush_port (x : Symbol) (s : State) : (symPush x s).port = s.port := rfl

/-! `clearErr` -/

@[simp] theorem clearErr_pkAcc (m : BitVec 7) (s : State) : (clearErr m s).pkAcc = s.pkAcc := rfl
@[simp] theorem clearErr_pkCnt (m : BitVec 7) (s : State) : (clearErr m s).pkCnt = s.pkCnt := rfl
@[simp] theorem clearErr_pkClosed (m : BitVec 7) (s : State) : (clearErr m s).pkClosed = s.pkClosed := rfl
@[simp] theorem clearErr_upBuf (m : BitVec 7) (s : State) : (clearErr m s).upBuf = s.upBuf := rfl
@[simp] theorem clearErr_upCnt (m : BitVec 7) (s : State) : (clearErr m s).upCnt = s.upCnt := rfl
@[simp] theorem clearErr_upEos (m : BitVec 7) (s : State) : (clearErr m s).upEos = s.upEos := rfl
@[simp] theorem clearErr_twRoot (m : BitVec 7) (s : State) : (clearErr m s).twRoot = s.twRoot := rfl
@[simp] theorem clearErr_twTotal (m : BitVec 7) (s : State) : (clearErr m s).twTotal = s.twTotal := rfl
@[simp] theorem clearErr_twRem (m : BitVec 7) (s : State) : (clearErr m s).twRem = s.twRem := rfl
@[simp] theorem clearErr_twCur (m : BitVec 7) (s : State) : (clearErr m s).twCur = s.twCur := rfl
@[simp] theorem clearErr_twState (m : BitVec 7) (s : State) : (clearErr m s).twState = s.twState := rfl
@[simp] theorem clearErr_tm (m : BitVec 7) (s : State) : (clearErr m s).tm = s.tm := rfl
@[simp] theorem clearErr_result (m : BitVec 7) (s : State) : (clearErr m s).result = s.result := rfl
@[simp] theorem clearErr_err (m : BitVec 7) (s : State) : (clearErr m s).err = s.err &&& ~~~m := rfl
@[simp] theorem clearErr_byteIn (m : BitVec 7) (s : State) : (clearErr m s).byteIn = s.byteIn := rfl
@[simp] theorem clearErr_byteOut (m : BitVec 7) (s : State) : (clearErr m s).byteOut = s.byteOut := rfl
@[simp] theorem clearErr_symOut (m : BitVec 7) (s : State) : (clearErr m s).symOut = s.symOut := rfl
@[simp] theorem clearErr_rdata (m : BitVec 7) (s : State) : (clearErr m s).rdata = s.rdata := rfl
@[simp] theorem clearErr_port (m : BitVec 7) (s : State) : (clearErr m s).port = s.port := rfl

/-! `completeOk` -/

@[simp] theorem completeOk_pkAcc (s : State) : (completeOk s).pkAcc = s.pkAcc := rfl
@[simp] theorem completeOk_pkCnt (s : State) : (completeOk s).pkCnt = s.pkCnt := rfl
@[simp] theorem completeOk_pkClosed (s : State) : (completeOk s).pkClosed = s.pkClosed := rfl
@[simp] theorem completeOk_upBuf (s : State) : (completeOk s).upBuf = s.upBuf := rfl
@[simp] theorem completeOk_upCnt (s : State) : (completeOk s).upCnt = s.upCnt := rfl
@[simp] theorem completeOk_upEos (s : State) : (completeOk s).upEos = s.upEos := rfl
@[simp] theorem completeOk_twRoot (s : State) : (completeOk s).twRoot = s.twRoot := rfl
@[simp] theorem completeOk_twTotal (s : State) : (completeOk s).twTotal = s.twTotal := rfl
@[simp] theorem completeOk_twRem (s : State) : (completeOk s).twRem = s.twRem := rfl
@[simp] theorem completeOk_twCur (s : State) : (completeOk s).twCur = s.twCur := rfl
@[simp] theorem completeOk_twState (s : State) : (completeOk s).twState = s.twState := rfl
@[simp] theorem completeOk_tm (s : State) : (completeOk s).tm = s.tm := rfl
@[simp] theorem completeOk_result (s : State) : (completeOk s).result = Result.ofCode .ok := rfl
@[simp] theorem completeOk_err (s : State) : (completeOk s).err = s.err := rfl
@[simp] theorem completeOk_byteIn (s : State) : (completeOk s).byteIn = s.byteIn := rfl
@[simp] theorem completeOk_byteOut (s : State) : (completeOk s).byteOut = s.byteOut := rfl
@[simp] theorem completeOk_symOut (s : State) : (completeOk s).symOut = s.symOut := rfl
@[simp] theorem completeOk_rdata (s : State) : (completeOk s).rdata = s.rdata := rfl
@[simp] theorem completeOk_port (s : State) : (completeOk s).port = s.port := rfl

/-! `stopTruncated` -/

@[simp] theorem stopTruncated_pkAcc (s : State) : (stopTruncated s).pkAcc = s.pkAcc := rfl
@[simp] theorem stopTruncated_pkCnt (s : State) : (stopTruncated s).pkCnt = s.pkCnt := rfl
@[simp] theorem stopTruncated_pkClosed (s : State) : (stopTruncated s).pkClosed = s.pkClosed := rfl
@[simp] theorem stopTruncated_upBuf (s : State) : (stopTruncated s).upBuf = s.upBuf := rfl
@[simp] theorem stopTruncated_upCnt (s : State) : (stopTruncated s).upCnt = s.upCnt := rfl
@[simp] theorem stopTruncated_upEos (s : State) : (stopTruncated s).upEos = s.upEos := rfl
@[simp] theorem stopTruncated_twRoot (s : State) : (stopTruncated s).twRoot = s.twRoot := rfl
@[simp] theorem stopTruncated_twTotal (s : State) : (stopTruncated s).twTotal = s.twTotal := rfl
@[simp] theorem stopTruncated_twRem (s : State) : (stopTruncated s).twRem = s.twRem := rfl
@[simp] theorem stopTruncated_twCur (s : State) : (stopTruncated s).twCur = s.twCur := rfl
@[simp] theorem stopTruncated_twState (s : State) : (stopTruncated s).twState = .truncated := rfl
@[simp] theorem stopTruncated_tm (s : State) : (stopTruncated s).tm = s.tm := rfl
@[simp] theorem stopTruncated_result (s : State) : (stopTruncated s).result = Result.ofCode .truncated := rfl
@[simp] theorem stopTruncated_err (s : State) : (stopTruncated s).err = s.err ||| Cause.mask .truncated := rfl
@[simp] theorem stopTruncated_byteIn (s : State) : (stopTruncated s).byteIn = s.byteIn := rfl
@[simp] theorem stopTruncated_byteOut (s : State) : (stopTruncated s).byteOut = s.byteOut := rfl
@[simp] theorem stopTruncated_symOut (s : State) : (stopTruncated s).symOut = s.symOut := rfl
@[simp] theorem stopTruncated_rdata (s : State) : (stopTruncated s).rdata = s.rdata := rfl
@[simp] theorem stopTruncated_port (s : State) : (stopTruncated s).port = s.port := rfl

/-! `stopMalformed` -/

@[simp] theorem stopMalformed_pkAcc (r : Result) (s : State) : (stopMalformed r s).pkAcc = s.pkAcc := rfl
@[simp] theorem stopMalformed_pkCnt (r : Result) (s : State) : (stopMalformed r s).pkCnt = s.pkCnt := rfl
@[simp] theorem stopMalformed_pkClosed (r : Result) (s : State) : (stopMalformed r s).pkClosed = s.pkClosed := rfl
@[simp] theorem stopMalformed_upBuf (r : Result) (s : State) : (stopMalformed r s).upBuf = s.upBuf := rfl
@[simp] theorem stopMalformed_upCnt (r : Result) (s : State) : (stopMalformed r s).upCnt = s.upCnt := rfl
@[simp] theorem stopMalformed_upEos (r : Result) (s : State) : (stopMalformed r s).upEos = s.upEos := rfl
@[simp] theorem stopMalformed_twRoot (r : Result) (s : State) : (stopMalformed r s).twRoot = s.twRoot := rfl
@[simp] theorem stopMalformed_twTotal (r : Result) (s : State) : (stopMalformed r s).twTotal = s.twTotal := rfl
@[simp] theorem stopMalformed_twRem (r : Result) (s : State) : (stopMalformed r s).twRem = s.twRem := rfl
@[simp] theorem stopMalformed_twCur (r : Result) (s : State) : (stopMalformed r s).twCur = s.twCur := rfl
@[simp] theorem stopMalformed_twState (r : Result) (s : State) : (stopMalformed r s).twState = .malformed := rfl
@[simp] theorem stopMalformed_tm (r : Result) (s : State) : (stopMalformed r s).tm = s.tm := rfl
@[simp] theorem stopMalformed_result (r : Result) (s : State) : (stopMalformed r s).result = r := rfl
@[simp] theorem stopMalformed_err (r : Result) (s : State) : (stopMalformed r s).err = s.err ||| Cause.mask .malformed := rfl
@[simp] theorem stopMalformed_byteIn (r : Result) (s : State) : (stopMalformed r s).byteIn = s.byteIn := rfl
@[simp] theorem stopMalformed_byteOut (r : Result) (s : State) : (stopMalformed r s).byteOut = s.byteOut := rfl
@[simp] theorem stopMalformed_symOut (r : Result) (s : State) : (stopMalformed r s).symOut = s.symOut := rfl
@[simp] theorem stopMalformed_rdata (r : Result) (s : State) : (stopMalformed r s).rdata = s.rdata := rfl
@[simp] theorem stopMalformed_port (r : Result) (s : State) : (stopMalformed r s).port = s.port := rfl

/-! `refuse` -/

@[simp] theorem refuse_pkAcc (c : Cause) (s : State) : (refuse c s).pkAcc = s.pkAcc := by cases c <;> rfl
@[simp] theorem refuse_pkCnt (c : Cause) (s : State) : (refuse c s).pkCnt = s.pkCnt := by cases c <;> rfl
@[simp] theorem refuse_pkClosed (c : Cause) (s : State) : (refuse c s).pkClosed = s.pkClosed := by cases c <;> rfl
@[simp] theorem refuse_upBuf (c : Cause) (s : State) : (refuse c s).upBuf = s.upBuf := by cases c <;> rfl
@[simp] theorem refuse_upCnt (c : Cause) (s : State) : (refuse c s).upCnt = s.upCnt := by cases c <;> rfl
@[simp] theorem refuse_upEos (c : Cause) (s : State) : (refuse c s).upEos = s.upEos := by cases c <;> rfl
@[simp] theorem refuse_twRoot (c : Cause) (s : State) : (refuse c s).twRoot = s.twRoot := by cases c <;> rfl
@[simp] theorem refuse_twTotal (c : Cause) (s : State) : (refuse c s).twTotal = s.twTotal := by cases c <;> rfl
@[simp] theorem refuse_twRem (c : Cause) (s : State) : (refuse c s).twRem = s.twRem := by cases c <;> rfl
@[simp] theorem refuse_twCur (c : Cause) (s : State) : (refuse c s).twCur = s.twCur := by cases c <;> rfl
@[simp] theorem refuse_twState (c : Cause) (s : State) : (refuse c s).twState = s.twState := by cases c <;> rfl
@[simp] theorem refuse_tm (c : Cause) (s : State) : (refuse c s).tm = s.tm := by cases c <;> rfl
@[simp] theorem refuse_byteIn (c : Cause) (s : State) : (refuse c s).byteIn = s.byteIn := by cases c <;> rfl
@[simp] theorem refuse_byteOut (c : Cause) (s : State) : (refuse c s).byteOut = s.byteOut := by cases c <;> rfl
@[simp] theorem refuse_symOut (c : Cause) (s : State) : (refuse c s).symOut = s.symOut := by cases c <;> rfl
@[simp] theorem refuse_rdata (c : Cause) (s : State) : (refuse c s).rdata = s.rdata := by cases c <;> rfl
@[simp] theorem refuse_port (c : Cause) (s : State) : (refuse c s).port = s.port := by cases c <;> rfl
@[simp] theorem refuse_err (c : Cause) (s : State) : (refuse c s).err = s.err ||| c.mask := by cases c <;> rfl

/-- What a refusal writes when the cause has a RESULT code (00_scope.md R14). -/
theorem refuse_eq (c : Cause) (k : Code) (h : c.code? = some k) (s : State) :
    refuse c s = { s with result := Result.ofCode k, err := s.err ||| c.mask } := by
  simp [refuse, h, raise, respond, flag]

/-- `SrcPull()` on a source that holds a byte (20_memory.md R63). -/
@[simp] theorem srcPull_cons (s : State) (b : Byte) (rest : List Byte) (h : s.byteIn = b :: rest) :
    srcPull s = (some b, { s with byteIn := rest }) := by
  simp [srcPull, h]

/-- `SrcPull()` on an exhausted source changes nothing (R63). -/
@[simp] theorem srcPull_nil (s : State) (h : s.byteIn = []) : srcPull s = (none, s) := by
  simp [srcPull, h]

end Sys2Proof.Machine
end

