-- ==== Sys2Proof/Laws/Port.lean ====
section
/-! SUPPORT. The register map at each index (10_state.md R40), and the issue of an operation. -/

namespace Sys2Proof.Machine

@[simp] theorem regAt_cmd : regAt 0x000#9 = .cmd := rfl
@[simp] theorem regAt_status : regAt 0x001#9 = .status := rfl
@[simp] theorem regAt_result : regAt 0x002#9 = .result := rfl
@[simp] theorem regAt_err : regAt 0x003#9 = .err := rfl
@[simp] theorem regAt_twRoot : regAt 0x004#9 = .twRoot := rfl
@[simp] theorem regAt_twTotalLo : regAt 0x005#9 = .twTotalLo := rfl
@[simp] theorem regAt_twTotalHi : regAt 0x006#9 = .twTotalHi := rfl
@[simp] theorem regAt_twRemLo : regAt 0x007#9 = .twRemLo := rfl
@[simp] theorem regAt_twRemHi : regAt 0x008#9 = .twRemHi := rfl
@[simp] theorem regAt_twCur : regAt 0x009#9 = .twCur := rfl
@[simp] theorem regAt_pkState : regAt 0x00A#9 = .pkState := rfl
@[simp] theorem regAt_upState : regAt 0x00B#9 = .upState := rfl

/-- Above the twelve registers an index is in the tree-memory window or unmapped (R40). -/
theorem regAt_above (a : PortIndex) (h : 0x00C ≤ a.toNat) :
    regAt a =
      if hw : Config.tmBase ≤ a.toNat ∧ a.toNat < Config.tmBase + Config.nNode then
        .tm ⟨a.toNat - Config.tmBase, by have := hw.1; have := hw.2; omega⟩
      else .unmapped := by
  unfold regAt
  split <;> first | (exfalso; omega) | rfl

/-- The tree-memory window: index 0x100 + i is entry i, for i in 0..254 (R51). -/
theorem regAt_tm (i : Nat) (hi : i < 255) : regAt (BitVec.ofNat 9 (0x100 + i)) = .tm ⟨i, hi⟩ := by
  have hn : (BitVec.ofNat 9 (0x100 + i)).toNat = 0x100 + i := by
    rw [BitVec.toNat_ofNat]; omega
  rw [regAt_above _ (by omega)]
  have hw : Config.tmBase ≤ (BitVec.ofNat 9 (0x100 + i)).toNat ∧
      (BitVec.ofNat 9 (0x100 + i)).toNat < Config.tmBase + Config.nNode := by
    rw [hn]; simp only [Config.tmBase, Config.nNode]; omega
  rw [dif_pos hw]
  exact congrArg HostReg.tm (Fin.ext (by simp only [hn, Config.tmBase]; omega))

/-- The tree-memory window by its bounds (R40, R51). -/
theorem regAt_window (a : PortIndex) (h1 : 0x100 ≤ a) (h2 : a ≤ 0x1FE) :
    ∃ h : a.toNat - 0x100 < 255, regAt a = .tm ⟨a.toNat - 0x100, h⟩ := by
  have h3 : 0x100 ≤ a.toNat ∧ a.toNat ≤ 0x1FE := ⟨h1, h2⟩
  have h4 : a.toNat - 0x100 < 255 := by omega
  refine ⟨h4, ?_⟩
  have ha : a = BitVec.ofNat 9 (0x100 + (a.toNat - 0x100)) := by
    refine BitVec.eq_of_toNat_eq ?_
    rw [BitVec.toNat_ofNat]; omega
  exact (congrArg regAt ha).trans (regAt_tm _ h4)

/-- The two unmapped ranges (R40). -/
theorem regAt_unmapped (a : PortIndex) (h : (0x00C ≤ a ∧ a ≤ 0x0FF) ∨ a = 0x1FF) : regAt a = .unmapped := by
  have hn : 0x00C ≤ a.toNat ∧ (a.toNat ≤ 0x0FF ∨ a.toNat = 0x1FF) := by
    rcases h with ⟨h1, h2⟩ | rfl
    · simp [BitVec.le_def] at h1 h2; omega
    · decide
  rw [regAt_above a hn.1, dif_neg]
  simp only [Config.tmBase, Config.nNode]; omega

/-- The map is complete: every index is one of the twelve registers, a window index, or unmapped (R40). -/
theorem regAt_complete : ∀ a : PortIndex,
    a.toNat ≤ 0x00B ∨ (0x00C ≤ a ∧ a ≤ 0x0FF) ∨ (∃ i, i < 255 ∧ a = BitVec.ofNat 9 (0x100 + i)) ∨
      a = 0x1FF := by
  intro a
  by_cases h1 : a.toNat ≤ 0x00B
  · exact .inl h1
  by_cases h2 : a.toNat ≤ 0x0FF
  · refine .inr (.inl ⟨?_, ?_⟩) <;> simp [BitVec.le_def] <;> omega
  by_cases h3 : a.toNat = 0x1FF
  · exact .inr (.inr (.inr (BitVec.eq_of_toNat_eq (by simp [h3]))))
  · have := a.isLt
    refine .inr (.inr (.inl ⟨a.toNat - 0x100, by omega, BitVec.eq_of_toNat_eq ?_⟩))
    rw [BitVec.toNat_ofNat]; omega

/-- The fields of a port transaction read back (30_encoding.md R90). -/
theorem portWord_fields (we : BitVec 1) (a : PortIndex) (d : Word) :
    BitVec.extractLsb' 32 9 (we ++ a ++ d : PortWord) = a ∧ BitVec.extractLsb' 0 32 (we ++ a ++ d : PortWord) = d ∧
    BitVec.getLsbD (we ++ a ++ d : PortWord) 41 = we.getLsbD 0 := by
  refine ⟨?_, ?_, ?_⟩
  · refine BitVec.eq_of_getLsbD_eq (fun i hi => ?_)
    simp only [BitVec.getLsbD_extractLsb', BitVec.getLsbD_append]
    have h1 : ¬ 32 + i < 32 := by omega
    have h2 : 32 + i - 32 = i := by omega
    simp [hi, h1, h2]
  · refine BitVec.eq_of_getLsbD_eq (fun i hi => ?_)
    simp only [BitVec.getLsbD_extractLsb', BitVec.getLsbD_append]
    simp [hi]
  · simp only [BitVec.getLsbD_append]
    simp

/-- A write transaction decodes to its fields (R90). -/
theorem decodePort_write (a : PortIndex) (d : Word) : decodePort (1#1 ++ a ++ d) = .hwrite a d := by
  have h := portWord_fields 1#1 a d
  unfold decodePort
  rw [h.2.2, h.1, h.2.1]
  rfl

/-- A read transaction decodes to its index, whatever WDATA holds (R90). -/
theorem decodePort_read (a : PortIndex) (d : Word) : decodePort (0#1 ++ a ++ d) = .hread a := by
  have h := portWord_fields 0#1 a d
  unfold decodePort
  rw [h.2.2, h.1]
  rfl

/-- An illegal command word is issued as the write of it to CMD (R98, R100). -/
theorem issued_of_error (w : Word) (r : CmdReject) (h : decodeCmd w = .error r) :
    issued (.cmd w) = .hwrite 0x000 w := by
  simp only [issued, decodeOp, h, HostOp.transaction]
  exact decodePort_write 0 w

/-- A step with an operation pending is the execution of what it is issued as (20_memory.md R70). -/
theorem step_cons (s : State) (op : HostOp) (rest : List HostOp) (h : s.port = op :: rest) :
    step s = exec (issued op) { s with port := rest } := by
  simp [step, fetchOp, h]

/-- A step with nothing pending changes nothing (60_exceptions.md R269). -/
theorem step_nil (s : State) (h : s.port = []) : step s = .next s := by
  simp [step, fetchOp, h]

theorem issued_of_ok (op : HostOp) (i : Instr) (h : decodeOp op = .ok i) : issued op = i := by
  simp [issued, h]

/-- What a locked write does (43_system.md R204). -/
theorem lockedWrite_running (s t : State) (h : s.twState = .running) : lockedWrite s t = flag .busy s := by
  simp [lockedWrite, h]

theorem lockedWrite_not_running (s t : State) (h : s.twState ≠ .running) : lockedWrite s t = t := by
  simp [lockedWrite, h]

end Sys2Proof.Machine
end

