-- ==== Sys2Proof/Laws/Host.lean ====
section
/-! SUPPORT. What the host's issuing of operations and its reads do, once (45_host_contract.md R239, R241). -/

namespace Sys2Proof.Machine

/-- Issuing one operation that completes, then the others. -/
theorem hostIssue_cons (op : HostOp) (ops : List HostOp) (s t : State) (h : exec (issued op) s = .next t) :
    hostIssue (op :: ops) s = hostIssue ops t := by
  simp [hostIssue, step_cons { s with port := op :: s.port } op s.port rfl, h]

/-- Issuing two lists of operations one after the other. -/
theorem hostIssue_append (xs ys : List HostOp) (s : State) :
    hostIssue (xs ++ ys) s = (hostIssue xs s).bind (hostIssue ys) := by
  induction xs generalizing s with
  | nil => rfl
  | cons x xs ih =>
    simp only [List.cons_append, hostIssue]
    split <;> simp [ih]

/-- Everything a host read does (43_system.md R200): the index's word, and HTD with the read's effect. -/
theorem hostRead_eq (a : PortIndex) (s : State) :
    hostRead a s =
      some (readReg s (regAt a), { readEffect s (regAt a) with rdata := readReg s (regAt a) }) := by
  have hi : issued (encode (.hread a)) = .hread a := decodePort_read a 0
  rw [hostRead, hostIssue_cons _ [] s _ (by rw [hi]; rfl)]
  rfl

/-- Everything `leaveRunning` does (70_reset_and_hazards.md R297 step 1): from RUNNING a read of STATUS and a TW_STOP,
else the read alone. -/
theorem leaveRunning_eq (s : State) :
    leaveRunning s =
      some (if s.twState = .running then
          { s with twState := .idle, result := Result.ofCode .ok, rdata := statusWord s }
        else { s with rdata := statusWord s }) := by
  have hs : statusIsRunning (statusWord s) = decide (s.twState = .running) := by
    unfold statusWord
    cases s.twState <;> cases s.upEos <;> cases s.pkClosed <;> decide
  have hr : hostRead 0x001 s = some (statusWord s, { s with rdata := statusWord s }) := hostRead_eq 0x001 s
  simp only [leaveRunning, hr, Option.bind_eq_bind, Option.bind_some, hs, decide_eq_true_eq]
  split
  · rw [hostIssue_cons (encode .twStop) [] _ _ rfl]; rfl
  · rfl

/-- After `leaveRunning` the walker is not RUNNING, whatever it was. -/
theorem leaveRunning_not_running (s t : State) (h : leaveRunning s = some t) : t.twState ≠ .running := by
  rw [leaveRunning_eq] at h
  injection h with h
  subst h
  split
  · simp
  · assumption

end Sys2Proof.Machine
end

