-- ==== Sys2Proof/Laws/Memory.lean ====
section
/-! SUPPORT. The laws of the tree memory: reading after writing, and the canonical form, which every write keeps. -/

namespace Sys2Proof.Machine

theorem Memory.read_write_same (m : Memory) (i : Nat) (e : TmEntry) :
    Memory.read (Memory.write m i e) i = some e := by
  induction m with
  | nil => simp [Memory.write, Memory.read]
  | cons c m ih =>
    obtain ⟨j, f⟩ := c
    by_cases hlt : i < j
    · simp [Memory.write, Memory.read, hlt]
    · by_cases heq : i = j
      · simp [Memory.write, Memory.read, heq]
      · simp [Memory.write, Memory.read, hlt, heq, ih]

/-- Below the bound from which a canonical memory is listed, every index is unwritten. -/
theorem Memory.read_below (m : Memory) (lo i : Nat) (h : Memory.wfFrom lo m = true) (hi : i < lo) :
    Memory.read m i = none := by
  cases m with
  | nil => rfl
  | cons c m =>
    obtain ⟨j, f⟩ := c
    simp [Memory.wfFrom] at h
    have h1 : i ≠ j := by omega
    have h2 : i < j := by omega
    simp [Memory.read, h1, h2]

theorem Memory.read_write_other (m : Memory) (lo i k : Nat) (e : TmEntry) (h : Memory.wfFrom lo m = true)
    (hk : k ≠ i) : Memory.read (Memory.write m i e) k = Memory.read m k := by
  induction m generalizing lo with
  | nil => simp [Memory.write, Memory.read, hk]
  | cons c m ih =>
    obtain ⟨j, f⟩ := c
    have h' := h
    simp [Memory.wfFrom] at h
    by_cases hlt : i < j
    · by_cases hki : k < i
      · have h1 : k ≠ j := by omega
        have h2 : k < j := by omega
        simp [Memory.write, Memory.read, hlt, hk, hki, h1, h2]
      · simp [Memory.write, Memory.read, hlt, hk, hki]
    · by_cases heq : i = j
      · subst heq
        by_cases hki : k < i
        · simp [Memory.write, Memory.read, hk, hki]
        · simp [Memory.write, Memory.read, hk, hki]
      · simp [Memory.write, Memory.read, hlt, heq, ih (j + 1) h.2]

theorem Memory.wfFrom_write (m : Memory) (lo i : Nat) (e : TmEntry) (h : Memory.wfFrom lo m = true)
    (hlo : lo ≤ i) (hi : i < Config.nNode) : Memory.wfFrom lo (Memory.write m i e) = true := by
  induction m generalizing lo with
  | nil => simp [Memory.write, Memory.wfFrom]; omega
  | cons c m ih =>
    obtain ⟨j, f⟩ := c
    simp [Memory.wfFrom] at h
    obtain ⟨⟨h1, h2⟩, h3⟩ := h
    by_cases hlt : i < j
    · simp [Memory.write, Memory.wfFrom, hlt, h3]; omega
    · by_cases heq : i = j
      · subst heq; simp [Memory.write, Memory.wfFrom, h3]; omega
      · have := ih (j + 1) h3 (by omega)
        simp [Memory.write, Memory.wfFrom, hlt, heq, this]; omega

/-- Every write to an index of TM keeps the canonical form. -/
theorem Memory.wf_write (m : Memory) (i : Nat) (e : TmEntry) (h : Memory.wf m = true) (hi : i < Config.nNode) :
    Memory.wf (Memory.write m i e) = true :=
  Memory.wfFrom_write m 0 i e h (Nat.zero_le i) hi

/-- A write leaves every other entry alone. -/
theorem Memory.read_write_of_wf (m : Memory) (i k : Nat) (e : TmEntry) (h : Memory.wf m = true) (hk : k ≠ i) :
    Memory.read (Memory.write m i e) k = Memory.read m k :=
  Memory.read_write_other m 0 i k e h hk

/-- A canonical memory lists no index outside TM. -/
theorem Memory.read_outside (m : Memory) (lo i : Nat) (h : Memory.wfFrom lo m = true) (hi : Config.nNode ≤ i) :
    Memory.read m i = none := by
  induction m generalizing lo with
  | nil => rfl
  | cons c m ih =>
    obtain ⟨j, f⟩ := c
    simp [Memory.wfFrom] at h
    have h1 : i ≠ j := by omega
    by_cases h2 : i < j
    · simp [Memory.read, h1, h2]
    · simp [Memory.read, h1, h2, ih (j + 1) h.2]

/-- The canonical form makes equal memories equal data: two canonical memories that read alike are one list. -/
theorem Memory.ext_of_wf (m n : Memory) (lo : Nat) (hm : Memory.wfFrom lo m = true) (hn : Memory.wfFrom lo n = true)
    (h : ∀ i, Memory.read m i = Memory.read n i) : m = n := by
  induction m generalizing n lo with
  | nil =>
    cases n with
    | nil => rfl
    | cons d n => obtain ⟨k, g⟩ := d; have := h k; simp [Memory.read] at this
  | cons c m ih =>
    obtain ⟨j, f⟩ := c
    cases n with
    | nil => have := h j; simp [Memory.read] at this
    | cons d n =>
      obtain ⟨k, g⟩ := d
      simp [Memory.wfFrom] at hm hn
      have hjk : j = k := by
        rcases Nat.lt_trichotomy j k with hlt | heq | hgt
        · have := h j
          have h1 : j ≠ k := by omega
          simp [Memory.read, h1, hlt] at this
        · exact heq
        · have := h k
          have h1 : k ≠ j := by omega
          simp [Memory.read, h1, hgt] at this
      subst hjk
      have hfg : f = g := by have := h j; simpa [Memory.read] using this
      subst hfg
      have htail : m = n := by
        refine ih n (j + 1) hm.2 hn.2 (fun i => ?_)
        by_cases hij : i ≤ j
        · rw [Memory.read_below m (j + 1) i hm.2 (by omega), Memory.read_below n (j + 1) i hn.2 (by omega)]
        · have := h i
          have h1 : i ≠ j := by omega
          have h2 : ¬ i < j := by omega
          simpa [Memory.read, h1, h2] using this
      rw [htail]

end Sys2Proof.Machine
end

