-- ==== Sys2Proof/Laws/PerInstr.lean ====
section
/-! SUPPORT. Statements about every instruction as syntax, one lemma per constructor. -/

/-- The row of spec/opcode_table.json (30_encoding.md R96, R90) that the encoded instruction belongs to: its word, with
the row's mask, is the row's match. A port transaction's row fixes bit 41 alone. -/
def Sys2Proof.Laws.TableRow.Statement (i : Sys2Proof.Instr) : Prop :=
  match i, Sys2Proof.encode i with
  | .nop, .cmd w => w &&& 0xFFFFFFFF = 0x00000000
  | .reset, .cmd w => w &&& 0xFFFFFFFF = 0x00000001
  | .pkOpen, .cmd w => w &&& 0xFFFFFFFF = 0x00000010
  | .pkWbit b, .cmd w => w &&& 0xFFFFFEFF = 0x00000011 ∧ w.getLsbD 8 = b
  | .pkClose, .cmd w => w &&& 0xFFFFFFFF = 0x00000012
  | .upOpen, .cmd w => w &&& 0xFFFFFFFF = 0x00000020
  | .upGbit, .cmd w => w &&& 0xFFFFFFFF = 0x00000021
  | .twStart, .cmd w => w &&& 0xFFFFFFFF = 0x00000030
  | .twStep, .cmd w => w &&& 0xFFFFFFFF = 0x00000031
  | .twRun, .cmd w => w &&& 0xFFFFFFFF = 0x00000032
  | .twStop, .cmd w => w &&& 0xFFFFFFFF = 0x00000033
  | .hread _, .port t => t.getLsbD 41 = false
  | .hwrite _ _, .port t => t.getLsbD 41 = true
  | _, _ => False

theorem Sys2Proof.Laws.TableRow.nop : Sys2Proof.Laws.TableRow.Statement .nop := by
  simp [Sys2Proof.Laws.TableRow.Statement, Sys2Proof.encode]

theorem Sys2Proof.Laws.TableRow.reset : Sys2Proof.Laws.TableRow.Statement .reset := by
  simp [Sys2Proof.Laws.TableRow.Statement, Sys2Proof.encode]

theorem Sys2Proof.Laws.TableRow.pkOpen : Sys2Proof.Laws.TableRow.Statement .pkOpen := by
  simp [Sys2Proof.Laws.TableRow.Statement, Sys2Proof.encode]

theorem Sys2Proof.Laws.TableRow.pkWbit (b : Bool) : Sys2Proof.Laws.TableRow.Statement (.pkWbit b) := by
  cases b <;> simp [Sys2Proof.Laws.TableRow.Statement, Sys2Proof.encode]

theorem Sys2Proof.Laws.TableRow.pkClose : Sys2Proof.Laws.TableRow.Statement .pkClose := by
  simp [Sys2Proof.Laws.TableRow.Statement, Sys2Proof.encode]

theorem Sys2Proof.Laws.TableRow.upOpen : Sys2Proof.Laws.TableRow.Statement .upOpen := by
  simp [Sys2Proof.Laws.TableRow.Statement, Sys2Proof.encode]

theorem Sys2Proof.Laws.TableRow.upGbit : Sys2Proof.Laws.TableRow.Statement .upGbit := by
  simp [Sys2Proof.Laws.TableRow.Statement, Sys2Proof.encode]

theorem Sys2Proof.Laws.TableRow.twStart : Sys2Proof.Laws.TableRow.Statement .twStart := by
  simp [Sys2Proof.Laws.TableRow.Statement, Sys2Proof.encode]

theorem Sys2Proof.Laws.TableRow.twStep : Sys2Proof.Laws.TableRow.Statement .twStep := by
  simp [Sys2Proof.Laws.TableRow.Statement, Sys2Proof.encode]

theorem Sys2Proof.Laws.TableRow.twRun : Sys2Proof.Laws.TableRow.Statement .twRun := by
  simp [Sys2Proof.Laws.TableRow.Statement, Sys2Proof.encode]

theorem Sys2Proof.Laws.TableRow.twStop : Sys2Proof.Laws.TableRow.Statement .twStop := by
  simp [Sys2Proof.Laws.TableRow.Statement, Sys2Proof.encode]

theorem Sys2Proof.Laws.TableRow.hread (a : Sys2Proof.PortIndex) : Sys2Proof.Laws.TableRow.Statement (.hread a) := by
  simp only [Sys2Proof.Laws.TableRow.Statement, Sys2Proof.encode, BitVec.getLsbD_append]
  simp

theorem Sys2Proof.Laws.TableRow.hwrite (a : Sys2Proof.PortIndex) (d : Sys2Proof.Word) :
    Sys2Proof.Laws.TableRow.Statement (.hwrite a d) := by
  simp only [Sys2Proof.Laws.TableRow.Statement, Sys2Proof.encode, BitVec.getLsbD_append]
  simp
end

