-- ==== Sys2Proof/Laws/Stream.lean ====
section
/-! SUPPORT. Everything `GetBit()` can do, once: the bit is the head of `pendingBits`, and only UP_BUF, UP_CNT, UP_EOS
and BYTE_IN change. -/

namespace Sys2Proof.Machine

theorem lowBits_succ (b : Byte) (n : Nat) : lowBits b (n + 1) = b.getLsbD n :: lowBits b n := by
  simp only [lowBits, List.range_succ_eq_map, List.map_cons, List.map_map]
  congr 1
  refine List.map_congr_left (fun j _ => ?_)
  have h : n + 1 - 1 - j.succ = n - 1 - j := by omega
  simp only [Function.comp_apply, h]

@[simp] theorem lowBits_zero (b : Byte) : lowBits b 0 = [] := rfl

theorem unpackBits_cons (b : Byte) (bs : List Byte) : unpackBits (b :: bs) = lowBits b 8 ++ unpackBits bs := by
  simp [unpackBits]

/-- `GetBit()` with no bit to give (41_bit_unpacker.md R141). -/
theorem getBit_of_noBit (s : State) (h : s.noBit) : getBit s = (none, { s with upEos := true }) := by
  rcases h with h | ⟨h0, hb⟩
  · simp only [getBit, h, if_true]
    rw [← h]
  · by_cases he : s.upEos = true
    · simp only [getBit, he, if_true]
      rw [← he]
    · simp [getBit, he, h0, srcPull, hb]

/-- `GetBit()` with a bit to give (R141). -/
theorem getBit_of_takesBit (s : State) (b : Bool) (t : State) (h : s.takesBit b t) : getBit s = (some b, t) := by
  obtain ⟨he, ⟨n, hc, rfl, rfl⟩ | ⟨h0, byte, rest, hb, rfl, rfl⟩⟩ := h
  · simp [getBit, he, hc, deliverBit, Fin.succ_ne_zero]
    rfl
  · simp [getBit, he, h0, srcPull, hb, deliverBit]

/-- A bit or the end of the stream, in every state. -/
theorem noBit_or_takesBit (s : State) : s.noBit ∨ ∃ b t, s.takesBit b t := by
  by_cases he : s.upEos = true
  · exact .inl (.inl he)
  · have he : s.upEos = false := by simpa using he
    by_cases h0 : s.upCnt = 0
    · cases hb : s.byteIn with
      | nil => exact .inl (.inr ⟨h0, hb⟩)
      | cons byte rest => exact .inr ⟨_, _, he, .inr ⟨h0, byte, rest, hb, rfl, rfl⟩⟩
    · obtain ⟨n, hn⟩ := Fin.exists_succ_eq.mpr h0
      exact .inr ⟨_, _, he, .inl ⟨n, hn.symm, rfl, rfl⟩⟩

/-- Everything `GetBit()` can do. -/
theorem getBit_cases (s : State) :
    (s.noBit ∧ getBit s = (none, { s with upEos := true })) ∨
    (∃ b t, s.takesBit b t ∧ getBit s = (some b, t)) := by
  rcases noBit_or_takesBit s with h | ⟨b, t, h⟩
  · exact .inl ⟨h, getBit_of_noBit s h⟩
  · exact .inr ⟨b, t, h, getBit_of_takesBit s b t h⟩

/-- What taking a bit writes, and what it leaves. -/
theorem takesBit_frame (s t : State) (b : Bool) (h : s.takesBit b t) :
    ∃ buf cnt src, t = { s with upBuf := buf, upCnt := cnt, byteIn := src } := by
  obtain ⟨-, ⟨n, -, -, rfl⟩ | ⟨-, byte, rest, -, -, rfl⟩⟩ := h
  · exact ⟨_, _, _, rfl⟩
  · exact ⟨_, _, _, rfl⟩

/-- The bit taken is the first of the pending bits, and the rest stay pending. -/
theorem pendingBits_of_takesBit (s t : State) (b : Bool) (h : s.takesBit b t) :
    pendingBits s = b :: pendingBits t := by
  obtain ⟨he, ⟨n, hc, rfl, rfl⟩ | ⟨h0, byte, rest, hb, rfl, rfl⟩⟩ := h
  · simp [pendingBits, he, hc, lowBits_succ]
  · simp [pendingBits, he, h0, hb, unpackBits_cons, lowBits_succ]

/-- With no bit to give, none is pending. -/
theorem pendingBits_of_noBit (s : State) (h : s.noBit) : pendingBits s = [] := by
  rcases h with h | ⟨h0, hb⟩
  · simp [pendingBits, h]
  · simp [pendingBits, h0, hb, unpackBits]

end Sys2Proof.Machine
end

