-- ==== Sys2Proof/Laws/Walker.lean ====
section
/-! SUPPORT. Everything a micro-step can do, once (42_tree_walker.md R164): five cases, each with its whole effect. -/

namespace Sys2Proof.Machine

theorem fetchNode_none (s : State) (h : s.twCur = 255 ∨ Memory.read s.tm s.twCur.toNat = none) :
    fetchNode s = none := by
  unfold fetchNode
  rcases h with h | h
  · simp [h]
  · split <;> simp [h]

theorem fetchNode_some (s : State) (e : TmEntry) (hc : s.twCur ≠ 255)
    (h : Memory.read s.tm s.twCur.toNat = some e) : fetchNode s = some e := by
  rw [fetchNode, if_neg hc, h]

/-- The fetch finds an entry exactly when TW_CUR names a node and the entry is written (R165). -/
theorem fetchNode_eq_some_iff (s : State) (e : TmEntry) :
    fetchNode s = some e ↔ s.twCur ≠ 255 ∧ Memory.read s.tm s.twCur.toNat = some e := by
  constructor
  · intro h
    unfold fetchNode at h
    split at h
    · cases h
    · exact ⟨‹_›, h⟩
  · exact fun h => fetchNode_some s e h.1 h.2

/-- The micro-step on a fetch that finds nothing (R165). -/
theorem walkStep_fetch_none (s : State) (h : fetchNode s = none) :
    walkStep s = stopMalformed (Result.ofCode .malformed) s := by
  simp [walkStep, h]

/-- The micro-step on a leaf (R166). -/
theorem walkStep_leaf (s : State) (e : TmEntry) (h : fetchNode s = some e) (hl : e.isLeaf = true) :
    walkStep s = emitLeaf e s := by
  simp [walkStep, h, hl]

/-- The micro-step that needs a bit and finds none (R167). -/
theorem walkStep_noBit (s : State) (e : TmEntry) (h : fetchNode s = some e) (hl : e.isLeaf = false)
    (hn : s.noBit) : walkStep s = stopTruncated { s with upEos := true } := by
  simp [walkStep, h, hl, readAndDescend, getBit_of_noBit s hn]

/-- The micro-step that takes a bit (R168). -/
theorem walkStep_takesBit (s t : State) (e : TmEntry) (b : Bool) (h : fetchNode s = some e)
    (hl : e.isLeaf = false) (hb : s.takesBit b t) : walkStep s = descend e b t := by
  simp [walkStep, h, hl, readAndDescend, getBit_of_takesBit s b t hb]

/-- Everything a micro-step can do: no entry, a leaf, no bit, a present child, an absent child. -/
theorem walkStep_cases (s : State) :
    (fetchNode s = none ∧ walkStep s = stopMalformed (Result.ofCode .malformed) s) ∨
    (∃ e, fetchNode s = some e ∧ e.isLeaf = true ∧ walkStep s = emitLeaf e s) ∨
    (∃ e, fetchNode s = some e ∧ e.isLeaf = false ∧ s.noBit ∧
      walkStep s = stopTruncated { s with upEos := true }) ∨
    (∃ e b t i, fetchNode s = some e ∧ e.isLeaf = false ∧ s.takesBit b t ∧ e.child b = some i ∧
      walkStep s = respond (Result.ofBit .ok b) { t with twCur := i }) ∨
    (∃ e b t, fetchNode s = some e ∧ e.isLeaf = false ∧ s.takesBit b t ∧ e.child b = none ∧
      walkStep s = stopMalformed (Result.ofBit .malformed b) t) := by
  cases h : fetchNode s with
  | none => exact .inl ⟨rfl, walkStep_fetch_none s h⟩
  | some e =>
    cases hl : e.isLeaf with
    | true => exact .inr (.inl ⟨e, rfl, hl, walkStep_leaf s e h hl⟩)
    | false =>
      rcases noBit_or_takesBit s with hn | ⟨b, t, hb⟩
      · exact .inr (.inr (.inl ⟨e, rfl, hl, hn, walkStep_noBit s e h hl hn⟩))
      · cases hc : e.child b with
        | some i =>
          refine .inr (.inr (.inr (.inl ⟨e, b, t, i, rfl, hl, hb, hc, ?_⟩)))
          rw [walkStep_takesBit s t e b h hl hb]
          simp [descend, hc]
        | none =>
          refine .inr (.inr (.inr (.inr ⟨e, b, t, rfl, hl, hb, hc, ?_⟩)))
          rw [walkStep_takesBit s t e b h hl hb]
          simp [descend, hc]

/-- The loop of TW_RUN outside RUNNING ends at once. -/
theorem walkRun_of_not_running (n : Nat) (s : State) (h : s.twState ≠ .running) : walkRun n s = some s := by
  cases n <;> simp [walkRun, h]

/-- The loop of TW_RUN in RUNNING takes one micro-step. -/
theorem walkRun_succ_of_running (n : Nat) (s : State) (h : s.twState = .running) :
    walkRun (n + 1) s = walkRun n (walkStep s) := by
  simp [walkRun, h]

end Sys2Proof.Machine
end

