-- ==== Sys2Proof/Tests/Slice0.lean ====
section
/-! SUPPORT. The model's own tests: ill-formed words, decoding of words written out from the spec, single steps whose
expected results are the vectors of 95_test_vectors.md, and witnesses that the statements' hypotheses can be met. -/

namespace Sys2Proof.Tests

open Sys2Proof Sys2Proof.Machine

/-! ## Helpers: small states, and what a step leaves -/

/-- The next state of an outcome. -/
def nextOf : Host.Outcome State Fault Refusal → Option State
  | .next s => some s
  | .fault _ => none
  | .refused _ => none

/-- A view of the next state of one instruction. -/
def after {α : Type} (i : Instr) (s : State) (view : State → α) : Option α := (nextOf (exec i s)).map view

/-- PK = (acc, cnt, closed), from reset. -/
def packer (acc : Byte) (cnt : BitVec 3) (closed : Bool) : State :=
  { State.reset with pkAcc := acc, pkCnt := cnt, pkClosed := closed }

/-- UP = (buf, cnt, eos) with the bytes left in BYTE_IN, from reset. -/
def unpacker (buf : Byte) (cnt : Fin 9) (eos : Bool) (src : List Byte) : State :=
  { State.reset with upBuf := buf, upCnt := cnt, upEos := eos, byteIn := src }

/-- A leaf entry (30_encoding.md R93). -/
def leaf (x : Symbol) : TmEntry := { sym := x, lv := false, left := 0, rv := false, right := 0 }

/-- An internal entry (R93). -/
def inner (l r : NodeIndex) : TmEntry := { sym := 0, lv := true, left := l, rv := true, right := r }

/-- The image of vector H3: leaves a, b, c at 0, 1, 2, nodes 3 = (0, 1) and 4 = (2, 3), root 4. -/
def imageH3 : Memory := [(0, leaf 0x61), (1, leaf 0x62), (2, leaf 0x63), (3, inner 0 1), (4, inner 2 3)]

/-- The image of vector W9: leaf a at 0, a node with a left child alone at 1. -/
def imageW9 : Memory := [(0, leaf 0x61), (1, { sym := 0, lv := true, left := 0, rv := false, right := 0 })]

/-- A session on an image: TW_ROOT, TW_CUR, TW_TOTAL, TW_REM, BYTE_IN, RUNNING. -/
def walking (m : Memory) (root cur : NodeIndex) (total rem : Total) (src : List Byte) : State :=
  { State.reset with
    tm := m, twRoot := root, twCur := cur, twTotal := total, twRem := rem, twState := .running, byteIn := src }

/-! ## Ill-formed words, one for each check (R97; the words are vector Y1's) -/

theorem test_wf_reserved_bits : cmdWellFormed 0x00000211 = false ∧ cmdReservedZero 0x00000211 = false := by decide
theorem test_wf_unknown_opcode : cmdWellFormed 0x00000002 = false ∧ cmdOpcodeKnown 0x00000002 = false := by decide
theorem test_wf_stray_arg : cmdWellFormed 0x00000100 = false ∧ cmdArgAllowed 0x00000100 = false := by decide
theorem test_wf_instr_refuses : Instr.wellFormed (.hwrite 0x000 0x80000011) = false := by decide
theorem test_wf_instr_accepts :
    Instr.wellFormed (.hwrite 0x000 0x00000111) = true ∧ Instr.wellFormed (.hwrite 0x001 0x80000011) = true := by decide

/-! ## Decoding: Y1's illegal words by name, and PORT words of the programs P1 to P5 -/

theorem test_decode_rejects_by_name :
    decodeCmd 0x00000211 = .error .reservedBits ∧ decodeCmd 0x80000011 = .error .reservedBits ∧
    decodeCmd 0x00000034 = .error .unknownOpcode ∧ decodeCmd 0x000001FF = .error .unknownOpcode ∧
    decodeCmd 0x00000100 = .error .strayArg ∧ decodeCmd 0x00000110 = .error .strayArg := by decide

theorem test_decode_port_words :
    decodePort 0x20000000111 = .hwrite 0x000 0x111 ∧ decodePort 0x30400000061 = .hwrite 0x104 0x61 ∧
    decodePort 0x00200000000 = .hread 0x002 ∧ decodePort 0x10000000000 = .hread 0x100 := by decide

theorem test_decode_table_rows :
    decodeTableWord 32 0x00000111 = some (.pkWbit true) ∧ decodeTableWord 32 0x00000033 = some .twStop ∧
    decodeTableWord 48 0x00000000000 = some (.hread 0) ∧ decodeTableWord 48 0x20000000000 = some (.hwrite 0 0) ∧
    decodeTableWord 32 0x00000002 = none := by decide

/-- The bits of TW_STOP and HREAD written out field by field: OPC 0x33; WE 0, ADDR 0x00A. -/
theorem test_decode_by_fields :
    decodeCmd (0#23 ++ 0#1 ++ 0x33#8) = .ok .twStop ∧ decodeCmd (0#23 ++ 1#1 ++ 0x11#8) = .ok (.pkWbit true) ∧
    decodeCmd (0#23 ++ 0#1 ++ 0x21#8) = .ok .upGbit ∧ decodeCmd (0#23 ++ 0#1 ++ 0x01#8) = .ok .reset ∧
    decodePort (0#1 ++ 0x00A#9 ++ 0#32) = .hread 0x00A ∧
    decodePort (1#1 ++ 0x003#9 ++ 0x7F#32) = .hwrite 0x003 0x7F := by decide

/-! ## The first step after reset runs the placed operation -/

theorem test_first_step_runs_cmd :
    (nextOf (step (State.reset.withFetchWord 32 0x00000012))).map State.pkClosed = some true := by decide

theorem test_first_step_runs_port :
    (nextOf (step (State.reset.withFetchWord 48 0x20400000007))).map State.twRoot = some 7 := by decide

theorem test_illegal_word_is_refused :
    (nextOf (step { State.reset with port := [.cmd 0x00000034] })).map (fun s => (s.result.code, s.err)) =
      some (.illegalCmd, 0x01) := by decide

/-! ## Single steps (vectors of 95_test_vectors.md) -/

/-- Y7. -/
theorem test_nop : after .nop { State.reset with result := Result.ofCode .notRunning, err := 0x08 }
    (fun s => (resultWord s.result, s.err)) = some (0x00, 0x08) := by decide

/-- Y8: the pulled byte is not given back, the streams stay. -/
theorem test_reset : after .reset { walking imageH3 4 3 9 9 [0xAC] with pkAcc := 0xA0, pkCnt := 3, err := 0x02 }
    (fun s => (statusWord s, pkStateWord s, s.err, s.tm.length, s.byteIn)) = some (0, 0, 0, 0, [0xAC]) := by decide

/-- PK17. -/
theorem test_pkOpen : after .pkOpen (packer 0xA0 3 false)
    (fun s => (pkStateWord s, s.pkClosed, s.byteOut)) = some (0, false, []) := by decide

/-- The example of R122: the eighth bit pushes 0xB5. -/
theorem test_pkWbit_eighth : after (.pkWbit true) (packer 0xB4 7 false)
    (fun s => (s.byteOut, pkStateWord s)) = some ([0xB5], 0) := by decide

/-- PK15, third bit: PK_STATE 0x3A0. -/
theorem test_pkWbit_third : after (.pkWbit true) (packer 0x80 2 false) pkStateWord = some 0x000003A0 := by decide

/-- PK4. -/
theorem test_pkClose_pads : after .pkClose (packer 0xA0 3 false)
    (fun s => (s.byteOut, statusWord s)) = some ([0xA0], 0x10) := by decide

/-- PK1: nothing on a byte boundary. -/
theorem test_pkClose_boundary : after .pkClose (packer 0x00 0 false) State.byteOut = some [] := by decide

/-- UP3. -/
theorem test_upOpen : after .upOpen (unpacker 0x80 5 false [0x01])
    (fun s => (upStateWord s, s.byteIn)) = some (0, [0x01]) := by decide

/-- UP1, first bit: a pull, then bit 7. -/
theorem test_upGbit_refill : after .upGbit (unpacker 0 0 false [0xB5, 0xAC])
    (fun s => (resultWord s.result, upStateWord s, s.byteIn)) = some (0x30, 0x7B5, [0xAC]) := by decide

/-- UP2: EOS sets no ERR bit. -/
theorem test_upGbit_eos : after .upGbit (unpacker 0 0 false [])
    (fun s => (resultWord s.result, statusWord s, s.err)) = some (0x01, 0x08, 0) := by decide

/-- The example of R162. -/
theorem test_twStart : after .twStart { State.reset with twRoot := 4, twTotal := 9 }
    (fun s => (s.twCur, s.twRem, statusWord s, resultWord s.result)) = some (4, 9, 0x01, 0x00) := by decide

/-- W6: the empty source is DONE at once. -/
theorem test_twStart_empty : after .twStart State.reset
    (fun s => (statusWord s, resultWord s.result)) = some (0x02, 0x02) := by decide

/-- W1, step 24: the last symbol ends the session. -/
theorem test_twStep_last_leaf : after .twStep (walking imageH3 4 2 9 1 [])
    (fun s => (resultWord s.result, s.twCur, s.twRem, statusWord s, s.symOut)) =
      some (0x6342, 4, 0, 0x02, [0x63]) := by decide

/-- W9, third step: the missing child, its bit consumed. -/
theorem test_twStep_missing_child : after .twStep { walking imageW9 1 1 3 2 [] with upBuf := 0x40, upCnt := 7 }
    (fun s => (resultWord s.result, s.twCur, s.err, upStateWord s)) = some (0x34, 1, 0x40, 0x640) := by decide

/-- W11: the end of the stream comes before the child check. -/
theorem test_twStep_priority : after .twStep (walking imageW9 1 1 1 1 [])
    (fun s => (resultWord s.result, s.err, s.twCur, upStateWord s)) = some (0x03, 0x20, 1, 0) := by decide

/-- W5: a root leaf reads no bit. -/
theorem test_twRun_single_leaf : after .twRun (walking [(0, leaf 0x61)] 0 0 4 4 [0x55])
    (fun s => (resultWord s.result, s.symOut, s.byteIn)) = some (0x02, [0x61, 0x61, 0x61, 0x61], [0x55]) := by decide

/-- W3: truncated in mid-code, the shortfall in TW_REM. -/
theorem test_twRun_truncated : after .twRun (walking imageH3 4 4 9 9 [0xB5])
    (fun s => (resultWord s.result, s.symOut, s.twRem, s.twCur)) =
      some (0x03, [0x61, 0x62, 0x63, 0x61], 5, 3) := by decide

/-- W16: to IDLE, the rest kept. -/
theorem test_twStop : after .twStop { walking imageH3 4 0 9 9 [0xAC] with upBuf := 0xB5, upCnt := 6 }
    (fun s => (statusWord s, s.twCur, s.twRem, upStateWord s)) = some (0, 0, 9, 0x6B5) := by decide

/-- Y4: an entry reads back masked. -/
theorem test_hread_tm : after (.hread 0x100) { State.reset with tm := [(0, tmEntryOfWord 0xFFFFFFFF)] }
    State.rdata = some 0x83FFFF7F := by decide

/-- Y3, at the edges of the unmapped ranges and of the window. -/
theorem test_hread_edges :
    after (.hread 0x00C) State.reset State.err = some 0x10 ∧ after (.hread 0x0FF) State.reset State.err = some 0x10 ∧
    after (.hread 0x1FF) State.reset State.err = some 0x10 ∧ after (.hread 0x00B) State.reset State.err = some 0 ∧
    after (.hread 0x100) State.reset State.err = some 0 ∧ after (.hread 0x1FE) State.reset State.err = some 0 := by decide

/-- Y4: TM[254] is at 0x1FE. -/
theorem test_hwrite_tm : after (.hwrite 0x1FE 0x7F) State.reset
    (fun s => tmReadWord (Memory.read s.tm 254)) = some 0x8000007F := by decide

/-- Y5: write 1 to clear, the upper bits ignored. -/
theorem test_hwrite_err :
    after (.hwrite 0x003 0x01) { State.reset with err := 0x19 } State.err = some 0x18 ∧
    after (.hwrite 0x003 0xFFFFFF80) { State.reset with err := 0x18 } State.err = some 0x18 := by decide

/-! ## The surrounding software (vectors H3 and H4) -/

/-- H4: freq a = 2, b = 1 gives b = 0, a = 1. -/
theorem test_build_aab : (buildTree (countSymbols [0x61, 0x61, 0x62])).map deriveCodes =
    some [(0x62, [false]), (0x61, [true])] := by decide

/-- H3: the body of "abcabcabc". -/
theorem test_pack_bits : packBits [true, false, true, true, false, true, false, true, true, false, true, false, true,
    true, false] = [0xB5, 0xAC] := by decide

/-! ## Witnesses: a state and operands that meet each statement's hypotheses together -/

theorem witness_StepExecutesTheNextOperation :
    { State.reset with port := [.cmd 0x00000010] }.port = HostOp.cmd 0x00000010 :: [] ∧
    decodeOp (.cmd 0x00000010) = .ok .pkOpen ∧ decodeCmd 0x00000002 = .error .unknownOpcode ∧
    State.reset.port = [] := by decide

theorem witness_IllegalWordsAreThoseOfTheRule :
    ∃ r ∈ cmdTable, cmdRowMatches 0x00000111 r = true := by decide

theorem witness_DecodeEncodeAgree :
    decodeCmd 0x00000111 = .ok (.pkWbit true) ∧ BitVec.getLsbD (0x2030000007F : PortWord) 41 = true ∧
    BitVec.getLsbD (0x00A00000005 : PortWord) 41 = false := by decide

theorem witness_EveryStepKeepsTheInvariants : ∃ t, State.reset.Inv ∧ step State.reset = .next t :=
  ⟨State.reset,
   { packer := by refine ⟨?_, ?_⟩ <;> decide
     walker := by refine ⟨?_, ?_, ?_⟩ <;> decide
     unpacker := by unfold State.unpackerInv; decide
     result := by refine ⟨?_, ?_⟩ <;> decide
     memory := by decide },
   rfl⟩

theorem witness_PkWbitAccumulatesABit :
    (packer 0xB4 7 false).pkClosed = false ∧ (packer 0xB4 7 false).pkCnt = 7 ∧ (packer 0xA0 3 false).pkClosed = false ∧
    (packer 0xA0 3 false).pkCnt ≠ 7 := by decide

theorem witness_PkWbitAfterCloseIsRefused : (packer 0 0 true).pkClosed = true := by decide

theorem witness_PkCloseFlushesThePartialByte :
    (packer 0 0 true).pkClosed = true ∧ ((packer 0 0 false).pkClosed = false ∧ (packer 0 0 false).pkCnt = 0) ∧
    ((packer 0xA0 3 false).pkClosed = false ∧ (packer 0xA0 3 false).pkCnt ≠ 0) := by decide

theorem witness_PackerLaw :
    State.reset.pkClosed = false ∧ State.reset.pkCnt = 0 ∧ State.reset.pkAcc = 0 := by decide

theorem witness_UpOpenEmptiesTheUnpacker :
    State.reset.twState ≠ .running ∧ (walking imageH3 4 4 9 9 []).twState = .running := by decide

/-- A bit left in the buffer: the example of R141. -/
theorem witness_takesBit_buffered : (unpacker 0xB5 3 false []).takesBit true (unpacker 0xB5 2 false []) :=
  ⟨rfl, .inl ⟨2, rfl, rfl, rfl⟩⟩

/-- A refill: the first call of UP1. -/
theorem witness_takesBit_refill :
    (unpacker 0 0 false [0xB5, 0xAC]).takesBit true (unpacker 0xB5 7 false [0xAC]) :=
  ⟨rfl, .inr ⟨rfl, 0xB5, [0xAC], rfl, rfl, rfl⟩⟩

theorem witness_noBit : (unpacker 0 0 false []).noBit ∧ (unpacker 0xB5 0 true [0xAC]).noBit :=
  ⟨.inr ⟨rfl, rfl⟩, .inl rfl⟩

theorem witness_UpGbitReturnsTheNextBit :
    (walking imageH3 4 4 9 9 []).twState = .running ∧
    ((unpacker 0 0 false []).twState ≠ .running ∧ (unpacker 0 0 false []).noBit) ∧
    ((unpacker 0xB5 3 false []).twState ≠ .running ∧
      (unpacker 0xB5 3 false []).takesBit true (unpacker 0xB5 2 false [])) :=
  ⟨rfl, ⟨by decide, witness_noBit.1⟩, by decide, witness_takesBit_buffered⟩

theorem witness_GetBitFollowsTheRule :
    (unpacker 0 0 false []).noBit ∧ (unpacker 0xB5 3 false []).takesBit true (unpacker 0xB5 2 false []) ∧
    ¬(unpacker 0xB5 3 false []).noBit := by
  refine ⟨witness_noBit.1, witness_takesBit_buffered, ?_⟩
  unfold State.noBit
  decide

theorem witness_UnpackerLaw :
    (unpacker 0 0 false [0xB5, 0xAC]).twState ≠ .running ∧ (unpacker 0 0 false [0xB5, 0xAC]).upEos = false ∧
    (unpacker 0 0 false [0xB5, 0xAC]).upCnt = 0 ∧ 15 < 8 * (unpacker 0 0 false [0xB5, 0xAC]).byteIn.length ∧
    8 * (unpacker 0 0 false [0xB5, 0xAC]).byteIn.length ≤ 16 := by decide

theorem witness_CodecRoundTrip :
    (packer 0 0 false).pkClosed = false ∧ (packer 0 0 false).pkCnt = 0 ∧ (packer 0 0 false).pkAcc = 0 ∧
    (unpacker 0 0 false []).twState ≠ .running ∧ (unpacker 0 0 false []).upEos = false ∧
    (unpacker 0 0 false []).upCnt = 0 ∧
    14 < ([true, false, true, true, false, true, false, true, true, false, true, false, true, true, false] :
      List Bool).length ∧ 15 < 8 * ([0xB5, 0xAC] : List Byte).length ∧
    8 * ([0xB5, 0xAC] : List Byte).length ≤ 16 := by decide

theorem witness_TwStartBeginsASession :
    (walking imageH3 4 4 9 9 []).twState = .running ∧
    (State.reset.twState ≠ .running ∧ State.reset.twTotal = 0) ∧
    ({ State.reset with twTotal := 9 }.twState ≠ .running ∧ { State.reset with twTotal := 9 }.twTotal ≠ 0) := by decide

theorem witness_StepAndRunOutsideRunningAreRefused : State.reset.twState ≠ .running := by decide

theorem witness_FetchOfNoEntryIsMalformed :
    ((walking [] 255 255 1 1 []).twState = .running ∧ (walking [] 255 255 1 1 []).twCur = 255) ∧
    ((walking [] 0 0 1 1 []).twState = .running ∧ Memory.read (walking [] 0 0 1 1 []).tm 0 = none) := by decide

theorem witness_LeafIsEmitted :
    ((walking imageH3 4 2 9 1 []).twState = .running ∧ (walking imageH3 4 2 9 1 []).twCur ≠ 255 ∧
      Memory.read imageH3 2 = some (leaf 0x63) ∧ (leaf 0x63).lv = false ∧ (leaf 0x63).rv = false ∧
      0 < (walking imageH3 4 2 9 1 []).twRem ∧ (walking imageH3 4 2 9 1 []).twRem = 1) ∧
    0 < (walking imageH3 4 2 9 9 []).twRem ∧ (walking imageH3 4 2 9 9 []).twRem ≠ 1 := by decide

theorem witness_EndOfStreamInAWalkIsTruncated :
    (walking imageW9 1 1 1 1 []).twState = .running ∧ (walking imageW9 1 1 1 1 []).twCur ≠ 255 ∧
    (∃ e, Memory.read imageW9 1 = some e ∧ (e.lv = true ∨ e.rv = true)) ∧ (walking imageW9 1 1 1 1 []).noBit :=
  ⟨rfl, by decide, ⟨_, rfl, .inl rfl⟩, .inr ⟨rfl, rfl⟩⟩

/-- W9's tree: bit 0 goes to the present child, bit 1 asks for the absent one. -/
theorem witness_DescentFollowsTheWantedChild :
    (walking imageW9 1 1 3 3 [0x40]).twState = .running ∧ (walking imageW9 1 1 3 3 [0x40]).twCur ≠ 255 ∧
    (∃ e, Memory.read imageW9 1 = some e ∧ e.lv = true ∧ e.rv = false) ∧
    (∃ t, (walking imageW9 1 1 3 3 [0x40]).takesBit false t) ∧ (∃ t, (walking imageW9 1 1 3 3 [0x80]).takesBit true t) ∧
    (∃ e, Memory.read imageH3 4 = some e ∧ e.rv = true) :=
  ⟨rfl, by decide, ⟨_, rfl, rfl, rfl⟩, ⟨_, rfl, .inr ⟨rfl, 0x40, [], rfl, rfl, rfl⟩⟩,
    ⟨_, rfl, .inr ⟨rfl, 0x80, [], rfl, rfl, rfl⟩⟩, ⟨_, rfl, rfl⟩⟩

theorem witness_WalkTerminatesWithinTheBound :
    (walking imageH3 4 4 9 9 [0xB5]).twState = .running ∧ 0 < (walking imageH3 4 4 9 9 [0xB5]).twRem ∧
    (walking imageH3 4 4 9 9 [0xB5]).twRem ≤ (walking imageH3 4 4 9 9 [0xB5]).twTotal ∧
    (nextOf (exec .twStep (walking imageH3 4 4 9 9 [0xB5]))).isSome = true := by decide

theorem witness_TwRunIsTheLoopOfMicroSteps :
    State.reset.twState ≠ .running ∧ (walking imageH3 4 4 9 9 [0xB5, 0xAC]).twState = .running := by decide

/-- Vector H4's tree, held at 0, 1, 2. -/
def treeH4 : HuffTree := .node 2 3 (.leaf 1 0x62 1) (.leaf 0 0x61 2)

/-- Vector H4's image. -/
def imageH4 : Memory := [(0, leaf 0x61), (1, leaf 0x62), (2, inner 1 0)]

theorem witness_holdsTree : holdsTree imageH4 2 treeH4 :=
  ⟨by decide, inner 1 0, rfl, rfl, rfl, ⟨by decide, leaf 0x62, rfl, rfl, rfl, rfl⟩,
    ⟨by decide, leaf 0x61, rfl, rfl, rfl, rfl⟩⟩

/-- H4's text "aab" with its body 0xC0: three symbols, then five padding bits. -/
theorem witness_TwRunDecodesTheCodesOfATree :
    (walking imageH4 2 2 3 3 [0xC0]).twState = .running ∧
    (walking imageH4 2 2 3 3 [0xC0]).twCur = (walking imageH4 2 2 3 3 [0xC0]).twRoot ∧ holdsTree imageH4 2 treeH4 ∧
    (∀ c ∈ [((0x61 : Symbol), [true]), (0x61, [true]), (0x62, [false])], c ∈ deriveCodes treeH4) ∧
    (walking imageH4 2 2 3 3 [0xC0]).twRem.toNat = 3 ∧
    pendingBits (walking imageH4 2 2 3 3 [0xC0]) =
      [((0x61 : Symbol), [true]), (0x61, [true]), (0x62, [false])].flatMap Prod.snd ++ [false, false, false, false, false] :=
  ⟨rfl, rfl, witness_holdsTree, by decide, by decide, by decide⟩

/-- One code of a three-leaf tree cut after its first bit, at the end of the stream: W3 in small. -/
theorem witness_TwRunTruncatedKeepsWhatWasDecoded :
    holdsTree imageH3 4 (.node 4 9 (.leaf 2 0x63 3) (.node 3 6 (.leaf 0 0x61 3) (.leaf 1 0x62 3))) ∧
    ((0x61 : Symbol), [true, false]) ∈
      deriveCodes (.node 4 9 (.leaf 2 0x63 3) (.node 3 6 (.leaf 0 0x61 3) (.leaf 1 0x62 3))) ∧
    [true] <+: [true, false] ∧ [true] ≠ [true, false] ∧
    1 < { walking imageH3 4 4 9 9 [] with upBuf := 0x01, upCnt := 2 }.twRem.toNat ∧
    pendingBits { walking imageH3 4 4 9 9 [] with upBuf := 0x01, upCnt := 2 } =
      [((0x63 : Symbol), [false])].flatMap Prod.snd ++ [true] :=
  ⟨⟨by decide, inner 2 3, rfl, rfl, rfl, ⟨by decide, leaf 0x63, rfl, rfl, rfl, rfl⟩,
      ⟨by decide, inner 0 1, rfl, rfl, rfl, ⟨by decide, leaf 0x61, rfl, rfl, rfl, rfl⟩,
        ⟨by decide, leaf 0x62, rfl, rfl, rfl, rfl⟩⟩⟩,
    by decide, by decide, by decide, by decide, by decide⟩

theorem witness_SingleLeafTreeReadsNoBit :
    { State.reset with tm := [(0, leaf 0x61)], twTotal := 4 }.twState ≠ .running ∧
    { State.reset with tm := [(0, leaf 0x61)], twTotal := 4 }.twTotal ≠ 0 ∧ State.reset.twRoot ≠ 255 ∧
    Memory.read [(0, leaf 0x61)] 0 = some (leaf 0x61) ∧ (leaf 0x61).lv = false ∧ (leaf 0x61).rv = false := by decide

theorem witness_IllegalCommandIsRefused : decodeCmd 0x00000211 = .error .reservedBits := by decide

theorem witness_WriteToCmdIssuesTheCommand : decodeCmd 0x00000033 = .ok .twStop := by decide

theorem witness_UnitRegistersRead :
    (0x00B : PortIndex) ∈ ([0x007, 0x008, 0x009, 0x00A, 0x00B] : List PortIndex) := by decide

theorem witness_BadAddressOnlyFlags :
    ((0x00C : PortIndex) ≤ 0x00C ∧ (0x00C : PortIndex) ≤ 0x0FF) ∧ ((0x00C : PortIndex) ≤ 0x0FF) ∧
    (0x007 : PortIndex) ∈ ([0x001, 0x002, 0x007, 0x008, 0x009, 0x00A, 0x00B] : List PortIndex) := by decide

theorem witness_ErrIsStickyAndWriteOneToClear :
    BitVec.getLsbD { State.reset with err := 0x22 }.err 5 = true ∧
    (nextOf (exec .nop { State.reset with err := 0x22 })).isSome = true := by decide

theorem witness_TwRootRegister :
    State.reset.twState ≠ .running ∧ (walking imageH3 4 4 9 9 []).twState = .running := by decide

theorem witness_TwTotalRegisters : State.reset.twState ≠ .running := by decide

theorem witness_TreeMemoryWindow :
    Memory.read State.reset.tm 254 = none ∧ Memory.read (walking imageH3 4 4 9 9 []).tm 0 = some (leaf 0x61) ∧
    Memory.wf (walking imageH3 4 4 9 9 []).tm = true ∧ State.reset.twState ≠ .running ∧
    Memory.wf State.reset.tm = true ∧ (walking imageH3 4 4 9 9 []).twState = .running ∧
    (nextOf (exec .nop (walking imageH3 4 4 9 9 []))).isSome = true := by decide

theorem witness_LockedRegistersTakeWritesOnlyOutsideRunning :
    ((0x100 : PortIndex) ≤ 0x1FE ∧ (0x1FE : PortIndex) ≤ 0x1FE) ∧ ((0x100 : PortIndex) ≤ 0x100) ∧
    State.reset.twState ≠ .running ∧ (walking imageH3 4 4 9 9 []).twState = .running := by decide

theorem witness_BusyProtectsTheWalk : (walking imageH3 4 4 9 9 []).twState = .running := by decide

theorem witness_TreeIsConstantDuringAWalk :
    (walking imageH3 4 4 9 9 []).twState = .running ∧
    (nextOf (exec (.hwrite 0x004 7) (walking imageH3 4 4 9 9 []))).isSome = true := by decide

theorem witness_RemainderStaysWithinTheTotal :
    State.walkerInv (walking imageH3 4 2 9 9 []) ∧
    (walking imageH3 4 2 9 9 []).twRem ≤ (walking imageH3 4 2 9 9 []).twTotal ∧
    (nextOf (exec .twStep (walking imageH3 4 2 9 9 []))).map State.twTotal = some 9 := by
  refine ⟨⟨?_, ?_, ?_⟩, ?_, ?_⟩ <;> decide

theorem witness_OnlyCommandsWriteResult :
    (nextOf (exec (.hread 0x00C) State.reset)).isSome = true ∧ (0x00C : PortIndex) ≠ 0x000 ∧
    (nextOf (exec (.hwrite 0x00C 1) State.reset)).isSome = true := by decide

theorem witness_PackerFrame :
    isPackerCommand (.pkWbit true) = true ∧ (nextOf (exec (.pkWbit true) State.reset)).isSome = true := by decide

theorem witness_DecoderFrame :
    isDecoderCommand .twRun = true ∧ (nextOf (exec .twRun (walking imageH3 4 4 9 9 [0xB5]))).isSome = true := by decide

theorem witness_WalkerAndUnpackerCommandsKeepApart :
    (nextOf (exec .twStart State.reset)).isSome = true ∧ (nextOf (exec .upGbit State.reset)).isSome = true ∧
    (nextOf (exec .upOpen State.reset)).isSome = true := by decide

theorem witness_HostAccessFrame :
    Memory.wf State.reset.tm = true ∧ (0x100 : PortIndex) ≠ 0x000 ∧
    (nextOf (exec (.hread 0x100) State.reset)).isSome = true ∧
    (nextOf (exec (.hwrite 0x100 1) State.reset)).isSome = true := by decide

theorem witness_PackerCommutesWithTheDecoder :
    isPackerCommand .pkClose = true ∧ isDecoderCommand .upGbit = true := by decide

set_option maxRecDepth 4000 in
/-- A table with one symbol, by its counts: H2's shape with symbol 0. -/
theorem witness_BuilderMakesTheTreeOfTheTable :
    (4 :: List.replicate 127 0).length = 128 ∧ buildTree (4 :: List.replicate 127 0) = some (.leaf 0 0 4) ∧
    (List.replicate 128 0).length = 128 ∧ buildTree (List.replicate 128 0) = none := by decide

theorem witness_HeaderReadsBack :
    (List.replicate 128 3).length = 128 ∧ (∀ g, ∀ n ∈ List.replicate 128 3, n < headerLimit g) ∧
    ([0x00] : List Byte).length < 512 := by
  refine ⟨by simp, ?_, by decide⟩
  intro g n hn
  simp only [List.eq_of_mem_replicate hn]
  cases g <;> decide

/-- A file of 513 bytes whose header reads negative when signed, and not when unsigned. -/
def fileOfOnes : List Byte := List.replicate 513 0xFF

set_option maxRecDepth 20000 in
theorem witness_HostErrorsAbortBeforeAnyOperation :
    (∃ b ∈ ([0x61, 0x80] : List Byte), 128 ≤ b.toNat) ∧ (∀ b ∈ ([0x61, 0x7F] : List Byte), b.toNat < 128) ∧
    ([0x00] : List Byte).length < 512 ∧ (∃ n ∈ headerInts .big .signedInt fileOfOnes, n < 0) ∧
    512 ≤ fileOfOnes.length ∧ (∀ n ∈ headerInts .big .unsignedInt fileOfOnes, 0 ≤ n) := by decide

/-- R223: the byte 0x80 is outside the alphabet, and HTD sees nothing of it. -/
theorem test_encodeFile_unsupported :
    encodeFile .big [0x61, 0x80] State.reset = .aborted .unsupportedSymbol State.reset := by decide

set_option maxRecDepth 20000 in
/-- R243: a header too short, and one with a negative integer (log entry 13), leave HTD as it was. -/
theorem test_decodeFile_malformed :
    decodeFile .big .signedInt (some [0x00]) State.reset = .aborted .malformedHeader State.reset ∧
    decodeFile .big .signedInt (some fileOfOnes) State.reset = .aborted .malformedHeader State.reset := by decide

/-- What the host reads at the end of program P3 of 95_test_vectors.md (operations 25, 26 and 29; RESULT is W3's). -/
theorem test_hostWalk_truncated :
    (hostWalk { walking imageH3 4 0 9 0 [0xB5] with twState := .idle }).map Prod.fst =
      some { result := 0x00000003, status := 0x0000000B, remLo := 5, remHi := 0, err := 0x00000020 } := by decide

/-- R297 step 1: a walk that is still RUNNING is stopped, so the new session of the empty source is loaded and ends DONE
without BUSY. -/
theorem test_decodeSession_leaves_running :
    (decodeSession none 0 [] (walking imageH3 4 2 9 3 [0xB5])).map (fun r => (r.1.result, r.1.err, r.2.twTotal)) =
      some (0x00000002, 0x00000000, 0) := by decide

/-- With a total of 0 TW_START is DONE at once and no TW_RUN follows, or ERR would hold NOT_RUNNING (P4). -/
theorem test_hostWalk_empty :
    (hostWalk State.reset).map Prod.fst =
      some { result := 0x00000002, status := 0x00000002, remLo := 0, remHi := 0, err := 0x00000000 } := by decide

/-- The source "aab", whose counts fit every header. -/
theorem witness_EncodedFileRebuildsTreeAndTotal :
    symbolsOf [0x61, 0x61, 0x62] = .ok [0x61, 0x61, 0x62] ∧
    (∀ g, ∀ x : Symbol, ([0x61, 0x61, 0x62] : List Symbol).count x < headerLimit g) := by
  refine ⟨by decide, fun g x => ?_⟩
  cases g <;> exact Nat.lt_of_le_of_lt List.count_le_length (by decide)

theorem witness_EncodedBodyIsSmallerThanTheSource :
    symbolsOf [0x61, 0x61, 0x62] = .ok [0x61, 0x61, 0x62] ∧ ([0x61, 0x61, 0x62] : List Byte) ≠ [] := by decide

theorem witness_SystemRoundTrip :
    (symbolsOf [0x61, 0x61, 0x62] = .ok [0x61, 0x61, 0x62] ∧
      ∀ g, ∀ x : Symbol, ([0x61, 0x61, 0x62] : List Symbol).count x < headerLimit g) ∧
    Memory.wf (walking imageH3 4 2 9 3 [0xB5]).tm = true :=
  ⟨witness_EncodedFileRebuildsTreeAndTotal, by decide⟩

end Sys2Proof.Tests
end

section
/-! # Proofs: every operation in every state ends in a next state (O11) -/

namespace Sys2Proof.Machine

/-! ## The bound of TW_RUN's loop goes down with every micro-step (42_tree_walker.md R171) -/

/-- An emission that does not end the session pays off one of the emissions owed. At TW_REM = 0 the register wraps to
2^39 - 1, which is the 2^39 owed there less one (log entry 5). -/
theorem owed_of_pred_ne_zero (s t : State) (ht : t.twRem = s.twRem - 1) (h0 : t.twRem ≠ 0) :
    owed s = owed t + 1 := by
  rw [ht] at h0
  simp only [owed, ht, if_neg h0]
  split <;> bv_omega

/-- The emission of the last symbol owed (R166). -/
theorem emitLeaf_last (e : TmEntry) (s : State) (h : s.twRem - 1 = 0) :
    emitLeaf e s = respond (Result.ofSym .done e.sym)
      { symPush e.sym s with twRem := s.twRem - 1, twCur := s.twRoot, twState := .done } :=
  if_pos h

/-- The emission of any other symbol (R166). -/
theorem emitLeaf_not_last (e : TmEntry) (s : State) (h : s.twRem - 1 ≠ 0) :
    emitLeaf e s = respond (Result.ofSym .ok e.sym)
      { symPush e.sym s with twRem := s.twRem - 1, twCur := s.twRoot } :=
  if_neg h

theorem walkBound_emitLeaf (e : TmEntry) (s : State) (h : (emitLeaf e s).twState = .running) :
    walkBound s = walkBound (emitLeaf e s) + 1 := by
  by_cases h0 : s.twRem - 1 = 0
  · rw [emitLeaf_last e s h0] at h
    cases h
  · rw [emitLeaf_not_last e s h0, walkBound, owed_of_pred_ne_zero s (respond (Result.ofSym .ok e.sym)
      { symPush e.sym s with twRem := s.twRem - 1, twCur := s.twRoot }) rfl h0]
    simp only [walkBound, respond_byteIn, respond_upCnt, symPush_byteIn, symPush_upCnt]
    omega

theorem walkBound_takesBit (s t : State) (b : Bool) (h : s.takesBit b t) : walkBound s = walkBound t + 1 := by
  obtain ⟨-, ⟨n, hcnt, -, rfl⟩ | ⟨hcnt, byte, rest, hin, -, rfl⟩⟩ := h
  · simp [walkBound, owed, hcnt]
    omega
  · simp [walkBound, owed, hcnt, hin]
    omega

/-- A micro-step that leaves the walker RUNNING emits one symbol owed or takes one pending bit. -/
theorem walkBound_walkStep (s : State) (h : (walkStep s).twState = .running) :
    walkBound s = walkBound (walkStep s) + 1 := by
  rcases walkStep_cases s with
    ⟨-, hw⟩ | ⟨e, -, -, hw⟩ | ⟨e, -, -, -, hw⟩ | ⟨e, b, t, i, -, -, hb, -, hw⟩ | ⟨e, b, t, -, -, -, -, hw⟩
  · simp [hw, stopMalformed] at h
  · rw [hw] at h ⊢
    exact walkBound_emitLeaf e s h
  · simp [hw, stopTruncated] at h
  · rw [hw]
    exact walkBound_takesBit s t b hb
  · simp [hw, stopMalformed] at h

/-- With as many micro-steps as the bound the loop of TW_RUN ends (R171). -/
theorem walkRun_ends_of_walkBound_le (n : Nat) (s : State) (hn : walkBound s ≤ n) : ∃ t, walkRun n s = some t := by
  induction n generalizing s with
  | zero => exact absurd hn (by simp [walkBound])
  | succ n ih =>
    by_cases hs : s.twState = .running
    · rw [walkRun_succ_of_running n s hs]
      by_cases hs' : (walkStep s).twState = .running
      · exact ih (walkStep s) (by have := walkBound_walkStep s hs'; omega)
      · exact ⟨walkStep s, walkRun_of_not_running n (walkStep s) hs'⟩
    · exact ⟨s, walkRun_of_not_running (n + 1) s hs⟩

/-! ## The operations that branch -/

theorem execPkWbit_completes (b : Bool) (s : State) : ∃ t, execPkWbit b s = .next t := by
  unfold execPkWbit
  split <;> exact ⟨_, rfl⟩

theorem execPkClose_completes (s : State) : ∃ t, execPkClose s = .next t := by
  unfold execPkClose
  split <;> exact ⟨_, rfl⟩

theorem execUpOpen_completes (s : State) : ∃ t, execUpOpen s = .next t := by
  unfold execUpOpen
  split <;> exact ⟨_, rfl⟩

theorem execUpGbit_completes (s : State) : ∃ t, execUpGbit s = .next t := by
  unfold execUpGbit
  split
  · exact ⟨_, rfl⟩
  · split <;> exact ⟨_, rfl⟩

theorem execTwStart_completes (s : State) : ∃ t, execTwStart s = .next t := by
  unfold execTwStart
  split <;> exact ⟨_, rfl⟩

theorem execTwStep_completes (s : State) : ∃ t, execTwStep s = .next t := by
  unfold execTwStep
  split <;> exact ⟨_, rfl⟩

/-- The fault behind the loop bound of TW_RUN is never raised (log entry 6). -/
theorem execTwRun_completes (s : State) : ∃ t, execTwRun s = .next t := by
  obtain ⟨t, ht⟩ := walkRun_ends_of_walkBound_le (walkBound s) s le_rfl
  unfold execTwRun
  split
  · exact ⟨_, by rw [ht]⟩
  · exact ⟨_, rfl⟩

/-! ## The commands, and the writes to CMD that issue them (43_system.md R202) -/

theorem exec_completes_of_ne_hwrite (i : Instr) (hi : ∀ a d, i ≠ .hwrite a d) (s : State) :
    ∃ t, exec i s = .next t := by
  cases i with
  | nop => exact ⟨_, rfl⟩
  | reset => exact ⟨_, rfl⟩
  | pkOpen => exact ⟨_, rfl⟩
  | pkWbit b => exact execPkWbit_completes b s
  | pkClose => exact execPkClose_completes s
  | upOpen => exact execUpOpen_completes s
  | upGbit => exact execUpGbit_completes s
  | twStart => exact execTwStart_completes s
  | twStep => exact execTwStep_completes s
  | twRun => exact execTwRun_completes s
  | twStop => exact ⟨_, rfl⟩
  | hread a => exact ⟨_, rfl⟩
  | hwrite a d => exact absurd rfl (hi a d)

/-- A legal command word executes its command (R202). -/
theorem execCommand_of_ok (d : Word) (i : Instr) (s : State) (h : decodeCmd d = .ok i) :
    execCommand d s = exec i s := by
  cases i with
  | hread a => exact absurd h (decodeCmd_not_port d a 0).1
  | hwrite a e => exact absurd h (decodeCmd_not_port d a e).2
  | _ => simp only [execCommand, h, exec]

/-- An illegal command word is refused (R261). -/
theorem execCommand_of_error (d : Word) (r : CmdReject) (s : State) (h : decodeCmd d = .error r) :
    execCommand d s = .next (refuse .illegalCmd s) := by
  simp only [execCommand, h]

theorem execCommand_completes (d : Word) (s : State) : ∃ t, execCommand d s = .next t := by
  cases h : decodeCmd d with
  | ok i =>
    rw [execCommand_of_ok d i s h]
    exact exec_completes_of_ne_hwrite i (fun a e hi => (decodeCmd_not_port d a e).2 (hi ▸ h)) s
  | error r => exact ⟨_, execCommand_of_error d r s h⟩

/-- A write to CMD is a command; any other write is one update of the state. -/
theorem execHwrite_completes (a : PortIndex) (d : Word) (s : State) : ∃ t, execHwrite a d s = .next t := by
  unfold execHwrite
  split
  · exact execCommand_completes d s
  all_goals exact ⟨_, rfl⟩

/-- Settles O11: TW_RUN ends because every micro-step lowers the bound of its loop; every other operation is a case
split whose branches are all next states. -/
theorem everyOperationCompletes : Obligations.EveryOperationCompletes := by
  intro i s
  by_cases hi : ∃ a d, i = .hwrite a d
  · obtain ⟨a, d, rfl⟩ := hi
    exact execHwrite_completes a d s
  · exact exec_completes_of_ne_hwrite i (fun a d h => hi ⟨a, d, h⟩) s

end Sys2Proof.Machine
end

section
/-! # Proofs: the header reads back (O56) -/

namespace Sys2Proof.Machine

/-! ## One header integer (00_scope.md R10) -/

@[simp] theorem headerIntBytes_length (o : Config.ByteOrder) (n : Nat) : (headerIntBytes o n).length = 4 := by
  cases o <;> rfl

/-- A word is its four bytes, the most significant first. -/
theorem word_of_its_bytes (w : Word) :
    w.extractLsb' 24 8 ++ w.extractLsb' 16 8 ++ w.extractLsb' 8 8 ++ w.extractLsb' 0 8 = w := by
  rw [BitVec.extractLsb'_append_extractLsb'_eq_extractLsb' (show 24 = 16 + 8 from rfl),
    BitVec.extractLsb'_append_extractLsb'_eq_extractLsb' (show 16 = 8 + 8 from rfl),
    BitVec.extractLsb'_append_extractLsb'_eq_extractLsb' (show 8 = 0 + 8 from rfl)]
  exact BitVec.extractLsb'_eq_self

/-- The four bytes, read in the byte order they are written in, are the low 32 bits of the integer (log entry 14). -/
theorem headerInt_headerIntBytes_low (o : Config.ByteOrder) (n : Nat) :
    headerInt o .unsignedInt (headerIntBytes o n) = (BitVec.ofNat 32 n).toNat ∧
    headerInt o .signedInt (headerIntBytes o n) = (BitVec.ofNat 32 n).toInt := by
  have hw := word_of_its_bytes (BitVec.ofNat 32 n)
  cases o <;> exact ⟨congrArg (fun w : Word => (w.toNat : Int)) hw, congrArg BitVec.toInt hw⟩

/-- An integer that fits reads back (R10). -/
theorem headerInt_headerIntBytes (o : Config.ByteOrder) (g : Config.Signedness) (n : Nat) (hn : n < headerLimit g) :
    headerInt o g (headerIntBytes o n) = n := by
  obtain ⟨hunsigned, hsigned⟩ := headerInt_headerIntBytes_low o n
  cases g with
  | unsignedInt =>
    have hn : n < 2 ^ 32 := hn
    rw [hunsigned, BitVec.toNat_ofNat, Nat.mod_eq_of_lt hn]
  | signedInt =>
    have hn : n < 2 ^ 31 := hn
    have hw : (BitVec.ofNat 32 n).toNat = n := Nat.mod_eq_of_lt (by omega)
    rw [hsigned, BitVec.toInt_eq_toNat_of_lt (by omega), hw]

/-! ## The header as a list of integers (R236) -/

theorem headerBytes_eq_flatMap (o : Config.ByteOrder) (t : FreqTable) (ht : t.length = 128) :
    headerBytes o t = t.flatMap (headerIntBytes o) := by
  have hmap : (List.range Config.hdrEntries).map (fun s => t.getD s 0) = t :=
    List.ext_getElem (by simp [ht]) (fun k _ hk => by simp [hk])
  calc headerBytes o t
      = ((List.range Config.hdrEntries).map (fun s => t.getD s 0)).flatMap (headerIntBytes o) := by
        rw [List.flatMap_map]; rfl
    _ = t.flatMap (headerIntBytes o) := by rw [hmap]

/-- The bytes at offsets 4k to 4k + 3 are those of the k-th integer. -/
theorem take_drop_flatMap_headerIntBytes (o : Config.ByteOrder) (t : FreqTable) (body : List Byte) (k : Nat)
    (hk : k < t.length) :
    ((t.flatMap (headerIntBytes o) ++ body).drop (4 * k)).take 4 = headerIntBytes o t[k] := by
  induction t generalizing k with
  | nil => cases hk
  | cons n t ih =>
    rw [List.flatMap_cons, List.append_assoc]
    cases k with
    | zero => exact List.take_left' (headerIntBytes_length o n)
    | succ k =>
      have hoff : 4 * (k + 1) = (headerIntBytes o n).length + 4 * k := by rw [headerIntBytes_length]; omega
      rw [hoff, ← List.drop_drop, List.drop_left]
      exact ih k (Nat.lt_of_succ_lt_succ hk)

theorem headerBytes_length (o : Config.ByteOrder) (t : FreqTable) : (headerBytes o t).length = 512 := by
  simp [headerBytes, Config.hdrEntries]

theorem headerInts_headerBytes (o : Config.ByteOrder) (g : Config.Signedness) (t : FreqTable) (body : List Byte)
    (ht : t.length = 128) (hfit : ∀ n ∈ t, n < headerLimit g) :
    headerInts o g (headerBytes o t ++ body) = t.map Int.ofNat := by
  refine List.ext_getElem (by simp [headerInts, ht]) (fun k _ hk => ?_)
  have hk : k < t.length := by simpa using hk
  simp only [headerInts, List.getElem_map, List.getElem_range, headerBytes_eq_flatMap o t ht,
    take_drop_flatMap_headerIntBytes o t body k hk]
  exact headerInt_headerIntBytes o g t[k] (hfit _ (List.getElem_mem hk))

/-! ## Parsing a file (R240, R243) -/

theorem parseHeader_of_short (o : Config.ByteOrder) (g : Config.Signedness) (file : List Byte)
    (h : file.length < 512) : parseHeader o g (some file) = .error .malformedHeader :=
  if_pos h

theorem parseHeader_headerBytes (o : Config.ByteOrder) (g : Config.Signedness) (t : FreqTable) (body : List Byte)
    (ht : t.length = 128) (hfit : ∀ n ∈ t, n < headerLimit g) :
    parseHeader o g (some (headerBytes o t ++ body)) = .ok t := by
  have hlong : ¬ (headerBytes o t ++ body).length < Config.hdrBytes := by
    simp [headerBytes_length]
  have hnonneg : (t.map Int.ofNat).all (fun n => 0 ≤ n) = true := by simp
  have hback : (t.map Int.ofNat).map Int.toNat = t := (List.map_map ..).trans (List.map_id t)
  simp only [parseHeader, if_neg hlong, headerInts_headerBytes o g t body ht hfit, hnonneg, if_true, hback]

/-- Settles O56: the header is the table's integers, four bytes each, and an integer that fits reads back from its four
bytes in either byte order and signedness. -/
theorem headerReadsBack : Obligations.HeaderReadsBack :=
  ⟨fun o g t body ht hfit => ⟨headerBytes_length o t, parseHeader_headerBytes o g t body ht hfit⟩,
    fun o g => ⟨rfl, parseHeader_of_short o g⟩⟩

end Sys2Proof.Machine
end

section
/-! # Proofs: what every operation keeps (O10, O40, O43, O46, O47, O48)

`Guarantee s t` is what every command but RESET, every read and every refused write guarantees of the state `t` it
leaves behind `s`. It is closed under composition, so it is proved once per elementary update, and once by induction for
the loop of TW_RUN. What stands outside it is RESET, the clearing write to ERR, and an accepted write to the tree
(`TreeWrite`): `exec_cases` says that there is nothing else, and each statement about every operation is read off these
four cases. -/

namespace Sys2Proof.Machine

/-- R35, of a response on its own: a value that is not valid is 0. -/
def Result.Canonical (r : Result) : Prop := (r.bitv = false → r.bit = false) ∧ (r.symv = false → r.sym = 0)

theorem Result.ofCode_canonical (c : Code) : (Result.ofCode c).Canonical := ⟨fun _ => rfl, fun _ => rfl⟩

theorem Result.ofBit_canonical (c : Code) (b : Bool) : (Result.ofBit c b).Canonical := ⟨nofun, fun _ => rfl⟩

theorem Result.ofSym_canonical (c : Code) (x : Symbol) : (Result.ofSym c x).Canonical := ⟨fun _ => rfl, nofun⟩

/-- What an operation that neither resets, nor clears ERR, nor writes the tree guarantees. -/
structure Guarantee (s t : State) : Prop where
  root : t.twRoot = s.twRoot
  total : t.twTotal = s.twTotal
  tm : t.tm = s.tm
  err : ∀ n, s.err.getLsbD n = true → t.err.getLsbD n = true
  rem : s.walkerInv → s.twRem ≤ s.twTotal → t.twRem ≤ t.twTotal
  packer : s.packerInv → t.packerInv
  walker : s.walkerInv → t.walkerInv
  unpacker : s.unpackerInv → t.unpackerInv
  result : s.resultInv → t.resultInv

theorem Guarantee.refl (s : State) : Guarantee s s where
  root := rfl
  total := rfl
  tm := rfl
  err _ h := h
  rem _ h := h
  packer := id
  walker := id
  unpacker := id
  result := id

theorem Guarantee.trans {s t u : State} (hst : Guarantee s t) (htu : Guarantee t u) : Guarantee s u where
  root := htu.root.trans hst.root
  total := htu.total.trans hst.total
  tm := htu.tm.trans hst.tm
  err n h := htu.err n (hst.err n h)
  rem hw h := htu.rem (hst.walker hw) (hst.rem hw h)
  packer h := htu.packer (hst.packer h)
  walker h := htu.walker (hst.walker h)
  unpacker h := htu.unpacker (hst.unpacker h)
  result h := htu.result (hst.result h)

/-- The parts of the invariant that a guarantee carries over are all of it. -/
theorem Guarantee.inv {s t : State} (h : Guarantee s t) (hs : s.Inv) : t.Inv where
  packer := h.packer hs.packer
  walker := h.walker hs.walker
  unpacker := h.unpacker hs.unpacker
  result := h.result hs.result
  memory := h.tm ▸ hs.memory

/-! ## Reporting (60_exceptions.md R270) -/

theorem respond_guarantee (r : Result) (hr : r.Canonical) (s : State) : Guarantee s (respond r s) :=
  { Guarantee.refl s with result := fun _ => hr }

theorem Guarantee.respond {s t : State} (h : Guarantee s t) {r : Result} (hr : r.Canonical) :
    Guarantee s (respond r t) :=
  h.trans (respond_guarantee r hr t)

theorem Guarantee.completeOk {s t : State} (h : Guarantee s t) : Guarantee s (completeOk t) :=
  h.respond (Result.ofCode_canonical .ok)

theorem flag_guarantee (c : Cause) (s : State) : Guarantee s (flag c s) :=
  { Guarantee.refl s with err := fun n h => by simp [h] }

theorem raise_guarantee (c : Cause) (r : Result) (hr : r.Canonical) (s : State) : Guarantee s (raise c r s) :=
  (flag_guarantee c s).respond hr

theorem refuse_guarantee (c : Cause) (s : State) : Guarantee s (refuse c s) := by
  unfold refuse
  split
  · exact raise_guarantee c _ (Result.ofCode_canonical _) s
  · exact flag_guarantee c s

/-- A walk that stops short still owes symbols (R33 a, b). -/
theorem stopped_guarantee (s : State) (x : TwState) (hs : s.twState = .running)
    (hx : x = .truncated ∨ x = .malformed) : Guarantee s { s with twState := x } :=
  { Guarantee.refl s with
    walker := by
      rintro ⟨hrun, -, -⟩
      rcases hx with rfl | rfl <;> exact ⟨nofun, nofun, fun _ => (hrun hs).1⟩ }

theorem stopTruncated_guarantee (s : State) (hs : s.twState = .running) : Guarantee s (stopTruncated s) :=
  (stopped_guarantee s .truncated hs (.inl rfl)).trans (raise_guarantee _ _ (Result.ofCode_canonical _) _)

theorem stopMalformed_guarantee (r : Result) (hr : r.Canonical) (s : State) (hs : s.twState = .running) :
    Guarantee s (stopMalformed r s) :=
  (stopped_guarantee s .malformed hs (.inr rfl)).trans (raise_guarantee _ r hr _)

/-! ## The packer (40_bit_packer.md) -/

/-- A bit put at position 7 - PK_CNT leaves the positions below alone. -/
theorem placeBit_below (acc : Byte) (cnt : BitVec 3) (b : Bool) (j : Nat) (hj : j < 7 - cnt.toNat) :
    (placeBit acc cnt b).getLsbD j = acc.getLsbD j := by
  simp [placeBit, hj]

theorem packBit_guarantee (b : Bool) (s : State) (hopen : s.pkClosed = false) : Guarantee s (packBit b s) := by
  by_cases h7 : s.pkCnt = 7
  · rw [packBit, if_pos h7]
    exact { Guarantee.refl s with packer := fun _ => ⟨fun j _ => BitVec.getLsbD_zero, fun _ => ⟨rfl, rfl⟩⟩ }
  · rw [packBit, if_neg h7]
    have hcnt : (s.pkCnt + 1).toNat = s.pkCnt.toNat + 1 := by bv_omega
    refine { Guarantee.refl s with packer := fun ⟨hlow, _⟩ => ⟨fun j hj => ?_, fun hclosed => ?_⟩ }
    · have hj : j < 8 - (s.pkCnt + 1).toNat := hj
      exact (placeBit_below s.pkAcc s.pkCnt b j (by omega)).trans (hlow j (by omega))
    · exact absurd (hopen.symm.trans hclosed) nofun

theorem execPkOpen_guarantee (s : State) :
    Guarantee s (completeOk { s with pkAcc := 0, pkCnt := 0, pkClosed := false }) :=
  .completeOk { Guarantee.refl s with packer := fun _ => ⟨fun _ _ => BitVec.getLsbD_zero, nofun⟩ }

/-- An empty packer's buffer holds no bit (R24). -/
theorem pkAcc_eq_zero_of_packerInv (s : State) (h : s.packerInv) (h0 : s.pkCnt = 0) : s.pkAcc = 0 :=
  BitVec.eq_of_getLsbD_eq (fun j hj => (h.1 j (by simpa [h0] using hj)).trans BitVec.getLsbD_zero.symm)

theorem closed_flushByte_guarantee (s : State) : Guarantee s { flushByte s with pkClosed := true } := by
  by_cases h0 : s.pkCnt = 0
  · rw [flushByte, if_pos h0]
    exact { Guarantee.refl s with packer := fun h => ⟨h.1, fun _ => ⟨h0, pkAcc_eq_zero_of_packerInv s h h0⟩⟩ }
  · rw [flushByte, if_neg h0]
    exact { Guarantee.refl s with packer := fun _ => ⟨fun j _ => BitVec.getLsbD_zero, fun _ => ⟨rfl, rfl⟩⟩ }

/-! ## The unpacker (41_bit_unpacker.md R141) -/

theorem noBit_guarantee (s : State) (h : s.noBit) : Guarantee s { s with upEos := true } :=
  { Guarantee.refl s with unpacker := fun hinv _ => h.elim hinv And.left }

theorem takesBit_guarantee (s t : State) (b : Bool) (h : s.takesBit b t) : Guarantee s t := by
  obtain ⟨buf, cnt, src, rfl⟩ := takesBit_frame s t b h
  exact { Guarantee.refl s with unpacker := fun _ heos => absurd (h.1.symm.trans heos) nofun }

/-! ## The walker (42_tree_walker.md) -/

/-- An emission while RUNNING pays off one of the symbols owed, of which there is one (R33 a). -/
theorem emitLeaf_guarantee (e : TmEntry) (s : State) (hs : s.twState = .running) : Guarantee s (emitLeaf e s) := by
  have hle (h : s.walkerInv) : s.twRem - 1 ≤ s.twTotal := by
    obtain ⟨hrem, hle⟩ := h.1 hs
    bv_omega
  by_cases h0 : s.twRem - 1 = 0
  · rw [emitLeaf_last e s h0]
    refine .respond ?_ (Result.ofSym_canonical _ _)
    exact { Guarantee.refl s with rem := fun h _ => hle h, walker := fun _ => ⟨nofun, fun _ => h0, by simp⟩ }
  · rw [emitLeaf_not_last e s h0]
    refine .respond ?_ (Result.ofSym_canonical _ _)
    have hpos : 0 < s.twRem - 1 := by bv_omega
    exact { Guarantee.refl s with
      rem := fun h _ => hle h
      walker := fun h => ⟨fun _ => ⟨hpos, hle h⟩, fun hdone => absurd (hs.symm.trans hdone) nofun, fun _ => hpos⟩ }

theorem takesBit_twState (s t : State) (b : Bool) (h : s.takesBit b t) : t.twState = s.twState := by
  obtain ⟨buf, cnt, src, rfl⟩ := takesBit_frame s t b h
  rfl

theorem walkStep_guarantee (s : State) (hs : s.twState = .running) : Guarantee s (walkStep s) := by
  rcases walkStep_cases s with
    ⟨-, hw⟩ | ⟨e, -, -, hw⟩ | ⟨e, -, -, hn, hw⟩ | ⟨e, b, t, i, -, -, hb, -, hw⟩ | ⟨e, b, t, -, -, hb, -, hw⟩ <;> rw [hw]
  · exact stopMalformed_guarantee _ (Result.ofCode_canonical _) s hs
  · exact emitLeaf_guarantee e s hs
  · exact (noBit_guarantee s hn).trans (stopTruncated_guarantee _ hs)
  · have hcur : Guarantee t { t with twCur := i } := { Guarantee.refl t with }
    exact ((takesBit_guarantee s t b hb).trans hcur).respond (Result.ofBit_canonical _ _)
  · exact (takesBit_guarantee s t b hb).trans
      (stopMalformed_guarantee _ (Result.ofBit_canonical _ _) t ((takesBit_twState s t b hb).trans hs))

theorem walkRun_guarantee (n : Nat) (s t : State) (h : walkRun n s = some t) : Guarantee s t := by
  induction n generalizing s with
  | zero =>
    by_cases hs : s.twState = .running
    · simp [walkRun, hs] at h
    · rw [walkRun_of_not_running 0 s hs] at h
      cases h
      exact .refl t
  | succ n ih =>
    by_cases hs : s.twState = .running
    · rw [walkRun_succ_of_running n s hs] at h
      exact (walkStep_guarantee s hs).trans (ih (walkStep s) h)
    · rw [walkRun_of_not_running (n + 1) s hs] at h
      cases h
      exact .refl t

theorem startSession_guarantee (s : State) : Guarantee s (startSession s) := by
  by_cases h0 : s.twTotal = 0
  · rw [startSession, if_pos h0]
    refine .respond ?_ (Result.ofCode_canonical _)
    exact { Guarantee.refl s with
      rem := fun _ _ => BitVec.le_refl s.twTotal, walker := fun _ => ⟨nofun, fun _ => h0, by simp⟩ }
  · rw [startSession, if_neg h0]
    refine .completeOk ?_
    have hpos : 0 < s.twTotal := by bv_omega
    exact { Guarantee.refl s with
      rem := fun _ _ => BitVec.le_refl s.twTotal
      walker := fun _ => ⟨fun _ => ⟨hpos, BitVec.le_refl s.twTotal⟩, nofun, fun _ => hpos⟩ }

/-! ## Every operation -/

/-- Every command but RESET, and every read (R200): neither clears an ERR bit nor writes the tree. -/
theorem exec_guarantee (i : Instr) (s t : State) (hreset : i ≠ .reset) (hwrite : ∀ a d, i ≠ .hwrite a d)
    (h : exec i s = .next t) : Guarantee s t := by
  cases i with
  | nop => cases h; exact (Guarantee.refl s).completeOk
  | reset => exact absurd rfl hreset
  | pkOpen => cases h; exact execPkOpen_guarantee s
  | pkWbit b =>
    simp only [exec, execPkWbit] at h
    split at h <;> cases h
    · exact refuse_guarantee .pkClosed s
    · exact (packBit_guarantee b s (Bool.eq_false_of_not_eq_true ‹_›)).completeOk
  | pkClose =>
    simp only [exec, execPkClose] at h
    split at h <;> cases h
    · exact (Guarantee.refl s).completeOk
    · exact (closed_flushByte_guarantee s).completeOk
  | upOpen =>
    simp only [exec, execUpOpen] at h
    split at h <;> cases h
    · exact refuse_guarantee .busy s
    · exact .completeOk { Guarantee.refl s with unpacker := nofun }
  | upGbit =>
    simp only [exec, execUpGbit] at h
    split at h
    · cases h
      exact refuse_guarantee .busy s
    · rcases getBit_cases s with ⟨hn, hg⟩ | ⟨b, u, hb, hg⟩ <;> rw [hg] at h <;> cases h
      · exact (noBit_guarantee s hn).respond (Result.ofCode_canonical .eos)
      · exact (takesBit_guarantee s u b hb).respond (Result.ofBit_canonical .ok b)
  | twStart =>
    simp only [exec, execTwStart] at h
    split at h <;> cases h
    · exact refuse_guarantee .busy s
    · exact startSession_guarantee s
  | twStep =>
    simp only [exec, execTwStep] at h
    split at h <;> cases h
    · exact walkStep_guarantee s ‹_›
    · exact refuse_guarantee .notRunning s
  | twRun =>
    simp only [exec, execTwRun] at h
    split at h
    · split at h
      · cases h
        exact (walkRun_guarantee _ s _ ‹_›).respond (Result.ofCode_canonical _)
      · cases h
    · cases h
      exact refuse_guarantee .notRunning s
  | twStop =>
    cases h
    exact .completeOk { Guarantee.refl s with walker := fun _ => ⟨nofun, nofun, by simp⟩ }
  | hread a =>
    cases h
    have heffect : Guarantee s (readEffect s (regAt a)) := by
      cases regAt a with
      | unmapped => exact flag_guarantee .badAddr s
      | _ => exact .refl s
    have hrdata (u : State) (w : Word) : Guarantee u { u with rdata := w } := { Guarantee.refl u with }
    exact heffect.trans (hrdata _ _)
  | hwrite a d => exact absurd rfl (hwrite a d)

/-- What a write to the tree does when it is accepted (10_state.md R45, R46, R51). -/
inductive TreeWrite (s : State) : State → Prop
  | root (r : NodeIndex) : TreeWrite s { s with twRoot := r }
  | total (n : Total) : TreeWrite s { s with twTotal := n }
  | entry (i : Fin Config.nNode) (e : TmEntry) : TreeWrite s { s with tm := Memory.write s.tm i.val e }

/-- CMD is index 0 alone, and ERR index 3 alone (R40). -/
theorem index_of_regAt (a : PortIndex) : (regAt a = .cmd → a = 0x000) ∧ (regAt a = .err → a = 0x003) := by
  unfold regAt
  split
  case h_1 h0 => exact ⟨fun _ => BitVec.eq_of_toNat_eq h0, nofun⟩
  case h_4 h3 => exact ⟨nofun, fun _ => BitVec.eq_of_toNat_eq h3⟩
  case h_13 => split <;> exact ⟨nofun, nofun⟩
  all_goals exact ⟨nofun, nofun⟩

/-- Everything a host write can do (43_system.md R201, R204). -/
theorem execHwrite_cases (a : PortIndex) (d : Word) (s t : State) (h : execHwrite a d s = .next t) :
    (a = 0x000 ∧ execCommand d s = .next t) ∨
    (a = 0x003 ∧ t = clearErr (errMaskOfWord d) s) ∨
    (s.twState ≠ .running ∧ TreeWrite s t) ∨
    (∃ c, t = flag c s) := by
  have locked (u : State) (hu : TreeWrite s u) (ht : lockedWrite s u = t) :
      (s.twState ≠ .running ∧ TreeWrite s t) ∨ (∃ c, t = flag c s) := by
    by_cases hs : s.twState = .running
    · exact .inr ⟨.busy, ht.symm.trans (lockedWrite_running s u hs)⟩
    · exact .inl ⟨hs, (ht.symm.trans (lockedWrite_not_running s u hs)) ▸ hu⟩
  unfold execHwrite at h
  split at h
  case h_1 hr => exact .inl ⟨(index_of_regAt a).1 hr, h⟩
  case h_2 hr => cases h; exact .inr (.inl ⟨(index_of_regAt a).2 hr, rfl⟩)
  case h_3 => cases h; exact .inr (.inr (locked _ (.root _) rfl))
  case h_4 => cases h; exact .inr (.inr (locked _ (.total _) rfl))
  case h_5 => cases h; exact .inr (.inr (locked _ (.total _) rfl))
  case h_6 i _ => cases h; exact .inr (.inr (locked _ (.entry i _) rfl))
  all_goals cases h; exact .inr (.inr (.inr ⟨.badAddr, rfl⟩))

/-- Everything an operation can do: RESET, as a command or as the write of its word to CMD; the clearing write to ERR;
an accepted write to the tree; or something that keeps the guarantee. -/
theorem exec_cases (i : Instr) (s t : State) (h : exec i s = .next t) :
    (isResetCommand i ∧ execReset s = .next t) ∨
    (∃ d, i = .hwrite 0x003 d ∧ t = clearErr (errMaskOfWord d) s) ∨
    (s.twState ≠ .running ∧ TreeWrite s t) ∨
    Guarantee s t := by
  by_cases hreset : i = .reset
  · subst hreset
    exact .inl ⟨.inl rfl, h⟩
  by_cases hwrite : ∃ a d, i = .hwrite a d
  · obtain ⟨a, d, rfl⟩ := hwrite
    rcases execHwrite_cases a d s t h with ⟨rfl, hc⟩ | ⟨rfl, ht⟩ | ht | ⟨c, rfl⟩
    · cases hd : decodeCmd d with
      | error r =>
        rw [execCommand_of_error d r s hd] at hc
        cases hc
        exact .inr (.inr (.inr (refuse_guarantee .illegalCmd s)))
      | ok j =>
        rw [execCommand_of_ok d j s hd] at hc
        by_cases hj : j = .reset
        · subst hj
          have hd : d = 0x00000001 := by simpa using decodeCmd_cases d .reset hd
          exact .inl ⟨.inr (by rw [hd]), hc⟩
        · exact .inr (.inr (.inr (exec_guarantee j s t hj
            (fun a e he => (decodeCmd_not_port d a e).2 (he ▸ hd)) hc)))
    · exact .inr (.inl ⟨d, rfl, ht⟩)
    · exact .inr (.inr (.inl ht))
    · exact .inr (.inr (.inr (flag_guarantee c s)))
  · exact .inr (.inr (.inr (exec_guarantee i s t hreset (fun a d he => hwrite ⟨a, d, he⟩) h)))

/-! ## The invariants (O9, O10) -/

/-- Settles O9: every register of the reset state is 0, and its tree memory is empty. -/
theorem resetStateMeetsTheInvariants : Obligations.ResetStateMeetsTheInvariants where
  packer := ⟨fun _ _ => BitVec.getLsbD_zero, nofun⟩
  walker := ⟨nofun, nofun, by simp [State.reset]⟩
  unpacker := nofun
  result := ⟨fun _ => rfl, fun _ => rfl⟩
  memory := rfl

theorem inv_of_execReset (s t : State) (h : execReset s = .next t) : t.Inv := by
  obtain ⟨hpacker, hwalker, hunpacker, hresult, hmemory⟩ := resetStateMeetsTheInvariants
  cases h
  exact ⟨hpacker, hwalker, hunpacker, hresult, hmemory⟩

/-- A write to the tree keeps the invariants: it is accepted outside RUNNING only, where TW_TOTAL binds nothing. -/
theorem TreeWrite.inv {s t : State} (h : TreeWrite s t) (hs : s.twState ≠ .running) (hinv : s.Inv) : t.Inv := by
  obtain ⟨hpacker, hwalker, hunpacker, hresult, hmemory⟩ := hinv
  cases h with
  | root r => exact ⟨hpacker, hwalker, hunpacker, hresult, hmemory⟩
  | total n => exact ⟨hpacker, ⟨fun hrun => absurd hrun hs, hwalker.2⟩, hunpacker, hresult, hmemory⟩
  | entry i e => exact ⟨hpacker, hwalker, hunpacker, hresult, Memory.wf_write s.tm i.val e hmemory i.isLt⟩

theorem exec_keeps_inv (i : Instr) (s t : State) (hinv : s.Inv) (h : exec i s = .next t) : t.Inv := by
  rcases exec_cases i s t h with ⟨-, ht⟩ | ⟨d, -, rfl⟩ | ⟨hs, ht⟩ | ht
  · exact inv_of_execReset s t ht
  · exact ⟨hinv.packer, hinv.walker, hinv.unpacker, hinv.result, hinv.memory⟩
  · exact ht.inv hs hinv
  · exact ht.inv hinv

/-- Settles O10: an idle step changes nothing, and any other step is an operation, each of whose four kinds keeps the
invariants; no invariant speaks of the pending operations. -/
theorem everyStepKeepsTheInvariants : Obligations.EveryStepKeepsTheInvariants := by
  intro s t hinv h
  cases hport : s.port with
  | nil =>
    rw [step_nil s hport] at h
    cases h
    exact hinv
  | cons op rest =>
    rw [step_cons s op rest hport] at h
    exact exec_keeps_inv (issued op) { s with port := rest } t
      ⟨hinv.packer, hinv.walker, hinv.unpacker, hinv.result, hinv.memory⟩ h

/-! ## What changes TW_ROOT, TW_TOTAL, TM, TW_REM and RESULT (O46, O47, O48) -/

/-- Settles O46: a write to the tree is accepted outside RUNNING only, and nothing else but RESET touches the tree. -/
theorem treeIsConstantDuringAWalk : Obligations.TreeIsConstantDuringAWalk := by
  intro i s t hs h
  rcases exec_cases i s t h with ⟨hreset, -⟩ | ⟨d, -, rfl⟩ | ⟨hidle, -⟩ | ht
  · exact .inl hreset
  · exact .inr ⟨rfl, rfl, rfl⟩
  · exact absurd hs hidle
  · exact .inr ⟨ht.root, ht.total, ht.tm⟩

theorem TreeWrite.twRem {s t : State} (h : TreeWrite s t) : t.twRem = s.twRem := by
  cases h <;> rfl

/-- Settles O47: a command only counts TW_REM down or loads TW_TOTAL into it, and a write to the tree leaves TW_REM. -/
theorem remainderStaysWithinTheTotal : Obligations.RemainderStaysWithinTheTotal := by
  intro i s t hwalker hle h htotal
  rcases exec_cases i s t h with ⟨-, ht⟩ | ⟨d, -, rfl⟩ | ⟨-, ht⟩ | ht
  · cases ht
    exact BitVec.le_refl _
  · exact hle
  · rw [ht.twRem, htotal]
    exact hle
  · exact ht.rem hwalker hle

theorem readEffect_result (s : State) (r : HostReg) : (readEffect s r).result = s.result := by
  cases r <;> rfl

theorem TreeWrite.result {s t : State} (h : TreeWrite s t) : t.result = s.result := by
  cases h <;> rfl

/-- Settles O48: of the kinds of write only a command, which is a write to index 0, responds. -/
theorem onlyCommandsWriteResult : Obligations.OnlyCommandsWriteResult := by
  intro a d s t
  refine ⟨fun h => ?_, fun ha h => ?_⟩
  · cases h
    exact readEffect_result s (regAt a)
  · rcases execHwrite_cases a d s t h with ⟨h0, -⟩ | ⟨-, rfl⟩ | ⟨-, ht⟩ | ⟨c, rfl⟩
    · exact absurd h0 ha
    · rfl
    · exact ht.result
    · rfl

/-! ## What an ERR bit and a written entry outlast (O40, O43) -/

theorem err_sticky (i : Instr) (s t : State) (n : Nat) (hn : n < 7) (h : exec i s = .next t)
    (hbit : s.err.getLsbD n = true) :
    t.err.getLsbD n = true ∨ isResetCommand i ∨ ∃ d : Word, i = .hwrite 0x003 d ∧ d.getLsbD n = true := by
  rcases exec_cases i s t h with ⟨hreset, -⟩ | ⟨d, hi, rfl⟩ | ⟨-, ht⟩ | ht
  · exact .inr (.inl hreset)
  · cases hd : d.getLsbD n with
    | true => exact .inr (.inr ⟨d, hi, hd⟩)
    | false => exact .inl (by simp [errMaskOfWord, hn, hd, hbit])
  · cases ht <;> exact .inl hbit
  · exact .inl (ht.err n hbit)

theorem written_until_reset (i : Instr) (s t : State) (j : Nat) (hwf : Memory.wf s.tm = true)
    (hj : Memory.read s.tm j ≠ none) (h : exec i s = .next t) :
    isResetCommand i ∨ Memory.read t.tm j ≠ none := by
  rcases exec_cases i s t h with ⟨hreset, -⟩ | ⟨d, -, rfl⟩ | ⟨-, ht⟩ | ht
  · exact .inl hreset
  · exact .inr hj
  · cases ht with
    | root r => exact .inr hj
    | total n => exact .inr hj
    | entry k e =>
      by_cases hk : j = k.val
      · exact .inr (by simp [hk, Memory.read_write_same])
      · exact .inr ((Memory.read_write_of_wf s.tm k.val j e hwf hk).symm ▸ hj)
  · exact .inr (ht.tm.symm ▸ hj)

end Sys2Proof.Machine
end

section
/-! # Proofs: the registers at the host port (O7, O36 to O43) -/

namespace Sys2Proof.Machine

/-! ## Words of the host port, field by field -/

theorem zero_append_eq_setWidth (k : Nat) {n : Nat} (lo : BitVec n) : 0#k ++ lo = lo.setWidth (k + n) := by
  rw [← BitVec.setWidth_eq (0#k ++ lo), BitVec.setWidth_append_eq_shiftLeft_setWidth_or]
  simp

theorem zero_append_append_eq_or (k : Nat) {m n : Nat} (hi : BitVec m) (lo : BitVec n) :
    0#k ++ hi ++ lo = lo.setWidth (k + m + n) ||| hi.setWidth (k + m + n) <<< n := by
  rw [← BitVec.setWidth_eq (0#k ++ hi ++ lo), BitVec.setWidth_append_append_eq_shiftLeft_setWidth_or]
  simp [BitVec.or_comm]

/-- STATUS (10_state.md R42). -/
theorem statusWord_fields (s : State) :
    (statusWord s).extractLsb' 0 3 = s.twState.toBits ∧ (statusWord s).getLsbD 3 = s.upEos ∧
    (statusWord s).getLsbD 4 = s.pkClosed ∧ (statusWord s).extractLsb' 5 27 = 0 := by
  simp only [statusWord, BitVec.extractLsb'_append_eq_ite, BitVec.getLsbD_append]
  simp

/-- RESULT (R43). -/
theorem resultWord_fields (r : Result) :
    (resultWord r).extractLsb' 0 4 = r.code.toBits ∧ (resultWord r).getLsbD 4 = r.bitv ∧
    (resultWord r).getLsbD 5 = r.bit ∧ (resultWord r).getLsbD 6 = r.symv ∧ (resultWord r).getLsbD 7 = false ∧
    (resultWord r).extractLsb' 8 7 = r.sym ∧ (resultWord r).extractLsb' 15 17 = 0 := by
  simp only [resultWord, BitVec.extractLsb'_append_eq_ite, BitVec.getLsbD_append]
  simp

/-- A TMENT word (R51, 30_encoding.md R93). -/
theorem wordOfTmEntry_fields (e : TmEntry) :
    (wordOfTmEntry e).extractLsb' 0 7 = e.sym ∧ (wordOfTmEntry e).getLsbD 7 = false ∧
    (wordOfTmEntry e).extractLsb' 8 8 = e.left ∧ (wordOfTmEntry e).extractLsb' 16 8 = e.right ∧
    (wordOfTmEntry e).getLsbD 24 = e.lv ∧ (wordOfTmEntry e).getLsbD 25 = e.rv ∧
    (wordOfTmEntry e).extractLsb' 26 5 = 0 ∧ (wordOfTmEntry e).getLsbD 31 = true := by
  simp only [wordOfTmEntry, BitVec.extractLsb'_append_eq_ite, BitVec.getLsbD_append]
  simp

theorem totalLo_eq (n : Total) : totalLo n = n.setWidth 32 := (BitVec.setWidth_eq_extractLsb' (by decide)).symm

theorem totalHi_eq (n : Total) : totalHi n = (n >>> 32).setWidth 32 := by
  refine (zero_append_eq_setWidth 25 (n.extractLsb' 32 7)).trans (BitVec.eq_of_toNat_eq ?_)
  have hn : n.toNat >>> 32 < 2 ^ 7 := by
    rw [Nat.shiftRight_eq_div_pow]
    omega
  simp only [BitVec.toNat_setWidth, BitVec.extractLsb'_toNat, BitVec.toNat_ushiftRight, Nat.mod_eq_of_lt hn]

theorem pkStateWord_eq (s : State) : pkStateWord s = s.pkAcc.setWidth 32 ||| s.pkCnt.setWidth 32 <<< 8 :=
  zero_append_append_eq_or 21 s.pkCnt s.pkAcc

/-- UP_CNT is at most 8, so its four bits lose nothing (R50). -/
theorem upStateWord_eq (s : State) :
    upStateWord s = s.upBuf.setWidth 32 ||| BitVec.ofNat 32 s.upCnt.val <<< 8 := by
  have hcnt : (BitVec.ofNat 4 s.upCnt.val).setWidth 32 = BitVec.ofNat 32 s.upCnt.val := by
    have := s.upCnt.isLt
    bv_omega
  rw [← hcnt]
  exact zero_append_append_eq_or 20 (BitVec.ofNat 4 s.upCnt.val) s.upBuf

/-- The two halves of a total (R46). -/
theorem withTotalLo_fields (n : Total) (w : Word) :
    (withTotalLo n w).extractLsb' 0 32 = w ∧ (withTotalLo n w).extractLsb' 32 7 = n.extractLsb' 32 7 :=
  ⟨BitVec.extractLsb'_append_eq_right, BitVec.extractLsb'_append_eq_left⟩

theorem withTotalHi_fields (n : Total) (w : Word) :
    (withTotalHi n w).extractLsb' 32 7 = w.extractLsb' 0 7 ∧
    (withTotalHi n w).extractLsb' 0 32 = n.extractLsb' 0 32 :=
  ⟨BitVec.extractLsb'_append_eq_left, BitVec.extractLsb'_append_eq_right⟩

/-! ## Reads and writes -/

/-- The read-only registers STATUS, RESULT, both halves of TW_REM, TW_CUR, PK_STATE and UP_STATE (R42, R43, R47 to
R50): a write only flags BAD_ADDR (60_exceptions.md R265). -/
theorem exec_hwrite_readOnly (a : PortIndex) (d : Word) (s : State)
    (ha : a ∈ ([0x001, 0x002, 0x007, 0x008, 0x009, 0x00A, 0x00B] : List PortIndex)) :
    exec (.hwrite a d) s = .next { s with err := s.err ||| 0x10 } := by
  simp only [List.mem_cons, List.not_mem_nil, or_false] at ha
  rcases ha with rfl | rfl | rfl | rfl | rfl | rfl | rfl <;> rfl

/-- A read answers with the word of the register its index names (43_system.md R200). -/
theorem exec_hread_of_regAt (a : PortIndex) (r : HostReg) (s : State) (h : regAt a = r) :
    exec (.hread a) s = .next { readEffect s r with rdata := readReg s r } := by
  subst h
  rfl

theorem exec_hread_unmapped (a : PortIndex) (s : State) (ha : (0x00C ≤ a ∧ a ≤ 0x0FF) ∨ a = 0x1FF) :
    exec (.hread a) s = .next { s with rdata := 0, err := s.err ||| 0x10 } :=
  exec_hread_of_regAt a .unmapped s (regAt_unmapped a ha)

theorem exec_hwrite_unmapped (a : PortIndex) (d : Word) (s : State) (ha : (0x00C ≤ a ∧ a ≤ 0x0FF) ∨ a = 0x1FF) :
    exec (.hwrite a d) s = .next { s with err := s.err ||| 0x10 } := by
  rw [exec, execHwrite, regAt_unmapped a ha]
  rfl

theorem exec_hread_tm (i : Nat) (hi : i < 255) (s : State) :
    exec (.hread (BitVec.ofNat 9 (0x100 + i))) s = .next { s with rdata := tmReadWord (Memory.read s.tm i) } :=
  exec_hread_of_regAt _ (.tm ⟨i, hi⟩) s (regAt_tm i hi)

theorem exec_hwrite_tm (i : Nat) (hi : i < 255) (d : Word) (s : State) :
    exec (.hwrite (BitVec.ofNat 9 (0x100 + i)) d) s =
      .next (lockedWrite s { s with tm := Memory.write s.tm i (tmEntryOfWord d) }) := by
  rw [exec, execHwrite, regAt_tm i hi]

theorem exec_hwrite_twRoot (d : Word) (s : State) :
    exec (.hwrite 0x004 d) s = .next (lockedWrite s { s with twRoot := rootOfWord d }) := rfl

theorem exec_hwrite_twTotalLo (d : Word) (s : State) (hs : s.twState ≠ .running) :
    exec (.hwrite 0x005 d) s = .next { s with twTotal := withTotalLo s.twTotal d } :=
  congrArg Host.Outcome.next (lockedWrite_not_running s _ hs)

theorem exec_hwrite_twTotalHi (d : Word) (s : State) (hs : s.twState ≠ .running) :
    exec (.hwrite 0x006 d) s = .next { s with twTotal := withTotalHi s.twTotal d } :=
  congrArg Host.Outcome.next (lockedWrite_not_running s _ hs)

/-! ## A session on a new total (R46) -/

theorem startSession_twRem (s : State) : (startSession s).twRem = s.twTotal := by
  unfold startSession
  split <;> rfl

theorem exec_twStart_of_not_running (s : State) (hs : s.twState ≠ .running) :
    exec .twStart s = .next (startSession s) :=
  if_neg hs

theorem execAll_cons (i : Instr) (is : List Instr) (s t : State) (h : exec i s = .next t) :
    execAll (i :: is) s = execAll is t := by
  simp only [execAll, h]

/-- Both halves are written, then TW_START reads them at once. -/
theorem execAll_total_start (lo hi : Word) (s : State) (hs : s.twState ≠ .running) :
    execAll [.hwrite 0x005 lo, .hwrite 0x006 hi, .twStart] s =
      .next (startSession { s with twTotal := withTotalHi (withTotalLo s.twTotal lo) hi }) := by
  have hlo := exec_hwrite_twTotalLo lo s hs
  have hhi := exec_hwrite_twTotalHi hi { s with twTotal := withTotalLo s.twTotal lo } hs
  have hstart := exec_twStart_of_not_running { s with twTotal := withTotalHi (withTotalLo s.twTotal lo) hi } hs
  rw [execAll_cons _ _ _ _ hlo, execAll_cons _ _ _ _ hhi, execAll_cons _ _ _ _ hstart, execAll]

/-! ## The statements -/

/-- Settles O7: the reset state is written out field by field, and an empty tree memory lists no entry. -/
theorem resetLeavesTheStatedValues : Obligations.ResetLeavesTheStatedValues :=
  ⟨rfl, rfl, rfl, rfl, rfl, rfl, rfl, rfl, rfl, rfl, rfl, fun _ _ => rfl, rfl, rfl, rfl, rfl, rfl, rfl⟩

/-- Settles O36: CMD is index 0, where a write executes the command its word decodes to, and which reads as 0. -/
theorem writeToCmdIssuesTheCommand : Obligations.WriteToCmdIssuesTheCommand :=
  ⟨fun w i s h => execCommand_of_ok w i s h, fun _ => rfl⟩

/-- Settles O37: the two words are the concatenation of their fields. -/
theorem statusAndResultRead : Obligations.StatusAndResultRead := fun s =>
  ⟨⟨statusWord s, rfl, statusWord_fields s⟩, fun w => exec_hwrite_readOnly 0x001 w s (by decide),
    ⟨resultWord s.result, rfl, resultWord_fields s.result⟩⟩

/-- Settles O38: each word is its registers' bits with zeros above. -/
theorem unitRegistersRead : Obligations.UnitRegistersRead := by
  intro s
  rw [← totalLo_eq, ← totalHi_eq, ← zero_append_eq_setWidth 24 s.twCur, ← pkStateWord_eq, ← upStateWord_eq]
  exact ⟨rfl, rfl, rfl, rfl, rfl, fun a ha w => exec_hwrite_readOnly a w s (.tail _ (.tail _ ha))⟩

/-- Settles O39: an unmapped index and a read-only register take no write, and an unmapped index reads as 0. -/
theorem badAddressOnlyFlags : Obligations.BadAddressOnlyFlags := by
  refine fun a d s => ⟨exec_hread_unmapped a s, fun ha => ?_⟩
  rcases ha with hrange | htop | hreg
  · exact exec_hwrite_unmapped a d s (.inl hrange)
  · exact exec_hwrite_unmapped a d s (.inr htop)
  · exact exec_hwrite_readOnly a d s hreg

/-- Settles O40: a write to ERR keeps the bits that its word does not name, and `err_sticky` says that an ERR bit
outlasts everything else but RESET. -/
theorem errIsStickyAndWriteOneToClear : Obligations.ErrIsStickyAndWriteOneToClear := by
  refine ⟨fun s => ?_, fun d s => ⟨_, rfl, fun n hn => ?_⟩, fun i s t n hn h => err_sticky i s t n hn h⟩
  · rw [← zero_append_eq_setWidth 25 s.err]
    rfl
  · simp [errMaskOfWord, hn]

/-- Settles O41: TW_ROOT is behind the tree lock. -/
theorem twRootRegister : Obligations.TwRootRegister := by
  refine fun w s => ⟨?_, fun hs => ?_, fun hs => ?_⟩
  · rw [← zero_append_eq_setWidth 24 s.twRoot]
    rfl
  · rw [exec_hwrite_twRoot, lockedWrite_not_running _ _ hs, BitVec.setWidth_eq_extractLsb' (by decide)]
    rfl
  · rw [exec_hwrite_twRoot, lockedWrite_running _ _ hs]
    rfl

/-- Settles O42: a write to a half of TW_TOTAL keeps the other half. -/
theorem twTotalRegisters : Obligations.TwTotalRegisters := by
  intro lo hi s
  refine ⟨?_, ?_, fun hs =>
    ⟨⟨_, exec_hwrite_twTotalLo lo s hs, withTotalLo_fields s.twTotal lo⟩,
      ⟨_, exec_hwrite_twTotalHi hi s hs, withTotalHi_fields s.twTotal hi⟩,
      _, execAll_total_start lo hi s hs, ?_⟩⟩
  · rw [← totalLo_eq]
    rfl
  · rw [← totalHi_eq]
    rfl
  · rw [startSession_twRem]
    exact congrArg (hi.extractLsb' 0 7 ++ ·) (withTotalLo_fields s.twTotal lo).1

/-- Settles O43: a written entry's word is the concatenation of its fields, a write is behind the tree lock, and
`written_until_reset` says that a written entry outlasts everything but RESET. -/
theorem treeMemoryWindow : Obligations.TreeMemoryWindow := by
  refine ⟨fun d s i hi => ⟨fun h => ?_, fun e h => ⟨wordOfTmEntry e, ?_, wordOfTmEntry_fields e⟩,
    fun hs hwf => ?_, fun hs => ?_⟩, written_until_reset⟩
  · rw [exec_hread_tm i hi, h]
    rfl
  · rw [exec_hread_tm i hi, h]
    rfl
  · refine ⟨Memory.write s.tm i (tmEntryOfWord d), ?_,
      ⟨tmEntryOfWord d, Memory.read_write_same s.tm i _, rfl, rfl, rfl, rfl, rfl⟩,
      fun j hj => Memory.read_write_of_wf s.tm i j _ hwf hj⟩
    rw [exec_hwrite_tm i hi, lockedWrite_not_running _ _ hs]
  · rw [exec_hwrite_tm i hi, lockedWrite_running _ _ hs]
    rfl

/-! ## The two forms of a command (O2) -/

/-- Settles O2: a command word is issued as its command, or else as the write of it to CMD, and that write executes the
same command. -/
theorem commandWordIsItsPortTransaction : Obligations.CommandWordIsItsPortTransaction := by
  intro op rest s
  rw [step_cons _ op rest rfl, step_cons _ (.port op.transaction) rest rfl]
  cases op with
  | port w => rfl
  | cmd w =>
    have hport : issued (.port (HostOp.cmd w).transaction) = .hwrite 0x000 w := decodePort_write 0x000 w
    rw [hport]
    cases h : decodeCmd w with
    | ok i =>
      rw [issued_of_ok (.cmd w) i h]
      exact (execCommand_of_ok w i _ h).symm
    | error r => rw [issued_of_error w r h]

end Sys2Proof.Machine
end

section
/-! # Proofs: bits through the packer and back through the unpacker (O22)

The packer is followed by an invariant over the bits written so far, in terms of `packedByte`; the unpacker by the list
`pendingBits`, of which every UP_GBIT takes the head. What joins them is that unpacking the packed bytes gives the bits
back, then the padding. -/

namespace Sys2Proof.Machine

/-! ## Bits and bytes (20_memory.md R66, R69) -/

theorem getLsbD_byteOfBits (f : Nat → Bool) (j : Nat) (hj : j < 8) : (byteOfBits f).getLsbD (7 - j) = f j := by
  simp only [byteOfBits, BitVec.getLsbD_append]
  interval_cases j <;> simp

/-- A byte is known by its bits, most-significant first (R66). -/
theorem byte_ext (x y : Byte) (h : ∀ j, j < 8 → x.getLsbD (7 - j) = y.getLsbD (7 - j)) : x = y := by
  refine BitVec.eq_of_getLsbD_eq (fun i hi => ?_)
  have hflip : 7 - (7 - i) = i := by omega
  exact hflip ▸ h (7 - i) (by omega)

/-- Byte `k` of a packed bit string (R69). -/
def packedByte (bits : List Bool) (k : Nat) : Byte := byteOfBits (fun j => bits.getD (8 * k + j) false)

theorem getLsbD_packedByte (bits : List Bool) (k j : Nat) (hj : j < 8) :
    (packedByte bits k).getLsbD (7 - j) = bits.getD (8 * k + j) false :=
  getLsbD_byteOfBits _ j hj

theorem packedByte_past_end (bits : List Bool) (k : Nat) (hk : bits.length ≤ 8 * k) : packedByte bits k = 0 := by
  refine byte_ext _ _ (fun j hj => ?_)
  rw [getLsbD_packedByte _ _ _ hj, List.getD_eq_default _ _ (by omega)]
  exact BitVec.getLsbD_zero.symm

theorem packBits_eq_map (bits : List Bool) :
    packBits bits = (List.range ((bits.length + 7) / 8)).map (packedByte bits) := rfl

@[simp] theorem packBits_length (bits : List Bool) : (packBits bits).length = (bits.length + 7) / 8 := by
  simp [packBits]

theorem getD_packBits (bits : List Bool) (k : Nat) (hk : k < (bits.length + 7) / 8) :
    (packBits bits).getD k 0 = packedByte bits k := by
  simp [packBits_eq_map, List.getD_eq_getElem?_getD, hk]

/-- The bytes whose eight bits are all there. -/
def fullBytes (bits : List Bool) : List Byte := (List.range (bits.length / 8)).map (packedByte bits)

theorem packBits_of_mod_eq_zero (bits : List Bool) (h : bits.length % 8 = 0) : packBits bits = fullBytes bits := by
  rw [packBits_eq_map, fullBytes, show (bits.length + 7) / 8 = bits.length / 8 by omega]

theorem packBits_of_mod_ne_zero (bits : List Bool) (h : bits.length % 8 ≠ 0) :
    packBits bits = fullBytes bits ++ [packedByte bits (bits.length / 8)] := by
  rw [packBits_eq_map, fullBytes, show (bits.length + 7) / 8 = bits.length / 8 + 1 by omega, List.range_succ,
    List.map_append, List.map_singleton]

/-- A further bit leaves the full bytes alone. -/
theorem packedByte_append_of_full (bits : List Bool) (b : Bool) (k : Nat) (hk : k < bits.length / 8) :
    packedByte (bits ++ [b]) k = packedByte bits k := by
  refine byte_ext _ _ (fun j hj => ?_)
  rw [getLsbD_packedByte _ _ _ hj, getLsbD_packedByte _ _ _ hj, List.getD_append _ _ _ _ (by omega)]

theorem fullBytes_append (bits : List Bool) (b : Bool) :
    fullBytes (bits ++ [b]) =
      fullBytes bits ++ if bits.length % 8 = 7 then [packedByte (bits ++ [b]) (bits.length / 8)] else [] := by
  have hsame : (List.range (bits.length / 8)).map (packedByte (bits ++ [b])) = fullBytes bits :=
    List.map_congr_left (fun k hk => packedByte_append_of_full bits b k (List.mem_range.mp hk))
  rw [← hsame, fullBytes, List.length_append, List.length_singleton]
  split
  · rw [show (bits.length + 1) / 8 = bits.length / 8 + 1 by omega, List.range_succ, List.map_append,
      List.map_singleton]
  · rw [show (bits.length + 1) / 8 = bits.length / 8 by omega, List.append_nil]

/-! ## The packer's invariant (40_bit_packer.md R122, R125) -/

/-- The eighth bit pushes the byte (R122). -/
theorem packBit_full (b : Bool) (s : State) (h : s.pkCnt = 7) :
    packBit b s = { sinkPush (placeBit s.pkAcc s.pkCnt b) s with pkAcc := 0, pkCnt := 0 } :=
  if_pos h

theorem packBit_not_full (b : Bool) (s : State) (h : s.pkCnt ≠ 7) :
    packBit b s = { s with pkAcc := placeBit s.pkAcc s.pkCnt b, pkCnt := s.pkCnt + 1 } :=
  if_neg h

theorem flushByte_boundary (s : State) (h : s.pkCnt = 0) : flushByte s = s := if_pos h

theorem flushByte_partial (s : State) (h : s.pkCnt ≠ 0) :
    flushByte s = { sinkPush s.pkAcc s with pkAcc := 0, pkCnt := 0 } :=
  if_neg h

theorem getLsbD_placeBit (acc : Byte) (cnt : BitVec 3) (b : Bool) (j : Nat) (hj : j < 8) :
    (placeBit acc cnt b).getLsbD (7 - j) = (acc.getLsbD (7 - j) || (decide (j = cnt.toNat) && b)) := by
  have hcnt := cnt.isLt
  cases b with
  | false => simp [placeBit]
  | true =>
    simp only [placeBit, BitVec.getLsbD_or, BitVec.getLsbD_shiftLeft, BitVec.getLsbD_setWidth, BitVec.getLsbD_ofBool]
    congr 1
    rw [Bool.eq_iff_iff]
    simp
    omega

/-- Placing the next bit of a partial byte gives the partial byte of the longer bit string. -/
theorem placeBit_packedByte (bits : List Bool) (b : Bool) (cnt : BitVec 3) (hcnt : cnt.toNat = bits.length % 8) :
    placeBit (packedByte bits (bits.length / 8)) cnt b = packedByte (bits ++ [b]) (bits.length / 8) := by
  refine byte_ext _ _ (fun j hj => ?_)
  rw [getLsbD_placeBit _ _ _ _ hj, getLsbD_packedByte _ _ _ hj, getLsbD_packedByte _ _ _ hj, hcnt]
  rcases Nat.lt_trichotomy j (bits.length % 8) with hlt | rfl | hgt
  · rw [List.getD_append _ _ _ _ (by omega)]
    simp [hlt.ne]
  · rw [Nat.div_add_mod, List.getD_append_right _ _ _ _ le_rfl, List.getD_eq_default _ _ le_rfl]
    simp
  · rw [List.getD_eq_default _ _ (by omega), List.getD_eq_default _ _ (by simp; omega)]
    simp [hgt.ne']

/-- The packer at `t` after `bits` went into an open, empty one whose BYTE_OUT was `sink` (R125). -/
structure Packed (sink : List Byte) (bits : List Bool) (t : State) : Prop where
  isOpen : t.pkClosed = false
  cnt : t.pkCnt.toNat = bits.length % 8
  acc : t.pkAcc = packedByte bits (bits.length / 8)
  out : t.byteOut = sink ++ fullBytes bits

theorem Packed.empty (s : State) (hopen : s.pkClosed = false) (hcnt : s.pkCnt = 0) (hacc : s.pkAcc = 0) :
    Packed s.byteOut [] s where
  isOpen := hopen
  cnt := by simp [hcnt]
  acc := hacc.trans (packedByte_past_end [] 0 le_rfl).symm
  out := by simp [fullBytes]

theorem Packed.packBit {sink : List Byte} {bits : List Bool} {t : State} (h : Packed sink bits t) (b : Bool) :
    Packed sink (bits ++ [b]) (completeOk (packBit b t)) := by
  obtain ⟨hopen, hcnt, hacc, hout⟩ := h
  have hplace : placeBit t.pkAcc t.pkCnt b = packedByte (bits ++ [b]) (bits.length / 8) :=
    hacc ▸ placeBit_packedByte bits b t.pkCnt hcnt
  have hlen : (bits ++ [b]).length = bits.length + 1 := by simp
  by_cases h7 : t.pkCnt = 7
  · have hmod : bits.length % 8 = 7 := by rw [← hcnt, h7]; rfl
    rw [packBit_full b t h7, hplace]
    refine ⟨hopen, ?_, ?_, ?_⟩
    · rw [hlen, Nat.add_mod, hmod]
      rfl
    · exact (packedByte_past_end _ _ (by omega)).symm
    · simp [hout, fullBytes_append, hmod]
  · have hmod : bits.length % 8 ≠ 7 := fun h => h7 (BitVec.eq_of_toNat_eq (hcnt.trans h))
    rw [packBit_not_full b t h7, hplace]
    refine ⟨hopen, ?_, ?_, ?_⟩
    · simp only [completeOk_pkCnt]
      bv_omega
    · rw [hlen, show (bits.length + 1) / 8 = bits.length / 8 by omega]
      rfl
    · simp [hout, fullBytes_append, hmod]

theorem exec_pkWbit_of_open (b : Bool) (s : State) (h : s.pkClosed = false) :
    exec (.pkWbit b) s = .next (completeOk (packBit b s)) :=
  if_neg (by simp [h])

theorem exec_pkClose_of_open (s : State) (h : s.pkClosed = false) :
    exec .pkClose s = .next (completeOk { flushByte s with pkClosed := true }) :=
  if_neg (by simp [h])

theorem execAll_append (xs ys : List Instr) (s t : State) (h : execAll xs s = .next t) :
    execAll (xs ++ ys) s = execAll ys t := by
  induction xs generalizing s with
  | nil => cases h; rfl
  | cons x xs ih =>
    simp only [execAll] at h
    split at h
    case h_1 u hu => rw [List.cons_append, execAll_cons _ _ _ _ hu, ih u h]
    all_goals cases h

/-- Writing further bits carries the invariant on. -/
theorem execAll_pkWbit (sink : List Byte) (pre bits : List Bool) (s : State) (h : Packed sink pre s) :
    ∃ t, execAll (bits.map Instr.pkWbit) s = .next t ∧ Packed sink (pre ++ bits) t := by
  induction bits generalizing pre s with
  | nil => exact ⟨s, rfl, by simpa using h⟩
  | cons b bits ih =>
    obtain ⟨t, ht, hpacked⟩ := ih (pre ++ [b]) _ (h.packBit b)
    refine ⟨t, ?_, by simpa using hpacked⟩
    rw [List.map_cons, execAll_cons _ _ _ _ (exec_pkWbit_of_open b s h.isOpen), ht]

/-- Closing pushes the partial byte, if there is one (R124). -/
theorem Packed.flushByte {sink : List Byte} {bits : List Bool} {t : State} (h : Packed sink bits t) :
    (flushByte t).byteOut = sink ++ packBits bits := by
  by_cases h0 : t.pkCnt = 0
  · have hmod : bits.length % 8 = 0 := by rw [← h.cnt, h0]; rfl
    rw [flushByte_boundary t h0, h.out, packBits_of_mod_eq_zero bits hmod]
  · have hmod : bits.length % 8 ≠ 0 := fun h' => h0 (BitVec.eq_of_toNat_eq (h.cnt.trans h'))
    rw [flushByte_partial t h0, packBits_of_mod_ne_zero bits hmod]
    simp [h.out, h.acc]

/-- A bit string written to an open, empty packer and closed is appended to BYTE_OUT packed (R69, R125). -/
theorem execAll_pack_close (bits : List Bool) (s : State) (hopen : s.pkClosed = false) (hcnt : s.pkCnt = 0)
    (hacc : s.pkAcc = 0) :
    ∃ p, execAll (bits.map Instr.pkWbit ++ [.pkClose]) s = .next p ∧ p.byteOut = s.byteOut ++ packBits bits := by
  obtain ⟨t, ht, hpacked⟩ := execAll_pkWbit s.byteOut [] bits s (.empty s hopen hcnt hacc)
  refine ⟨completeOk { flushByte t with pkClosed := true }, ?_, hpacked.flushByte⟩
  rw [execAll_append _ _ _ _ ht, execAll_cons _ _ _ _ (exec_pkClose_of_open t hpacked.isOpen)]
  rfl

/-! ## The unpacker as the list of its pending bits (41_bit_unpacker.md R141, R143) -/

/-- What UP_GBIT responds to an answer of `GetBit()` (R143). -/
def gbitResult : Option Bool → Result
  | none => Result.ofCode .eos
  | some b => Result.ofBit .ok b

theorem exec_upGbit_of_noBit (s : State) (hs : s.twState ≠ .running) (h : s.noBit) :
    exec .upGbit s = .next (respond (Result.ofCode .eos) { s with upEos := true }) := by
  simp only [exec, execUpGbit, hs, if_false, getBit_of_noBit s h]

theorem exec_upGbit_of_takesBit (s t : State) (b : Bool) (hs : s.twState ≠ .running) (h : s.takesBit b t) :
    exec .upGbit s = .next (respond (Result.ofBit .ok b) t) := by
  simp only [exec, execUpGbit, hs, if_false, getBit_of_takesBit s b t h]

/-- UP_GBIT responds with the first pending bit and leaves the others pending. -/
theorem exec_upGbit_pending (s : State) (hs : s.twState ≠ .running) :
    ∃ t, exec .upGbit s = .next t ∧ t.twState = s.twState ∧ t.result = gbitResult (pendingBits s).head? ∧
      pendingBits t = (pendingBits s).tail := by
  rcases noBit_or_takesBit s with hn | ⟨b, u, hb⟩
  · rw [pendingBits_of_noBit s hn]
    exact ⟨_, exec_upGbit_of_noBit s hs hn, rfl, rfl, rfl⟩
  · rw [pendingBits_of_takesBit s u b hb]
    exact ⟨_, exec_upGbit_of_takesBit s u b hs hb, takesBit_twState s u b hb, rfl, rfl⟩

theorem execAll_upGbit (k : Nat) (s : State) (hs : s.twState ≠ .running) :
    ∃ t, execAll (List.replicate k .upGbit) s = .next t ∧ t.twState ≠ .running ∧
      pendingBits t = (pendingBits s).drop k := by
  induction k generalizing s with
  | zero => exact ⟨s, rfl, hs, rfl⟩
  | succ k ih =>
    obtain ⟨u, hu, hstate, -, hrest⟩ := exec_upGbit_pending s hs
    obtain ⟨t, ht, hrun, hpending⟩ := ih u (hstate.symm ▸ hs)
    refine ⟨t, ?_, hrun, ?_⟩
    · rw [List.replicate_succ, execAll_cons _ _ _ _ hu, ht]
    · rw [hpending, hrest, List.drop_tail]

@[simp] theorem lowBits_length (b : Byte) (n : Nat) : (lowBits b n).length = n := by simp [lowBits]

@[simp] theorem unpackBits_length (bs : List Byte) : (unpackBits bs).length = 8 * bs.length := by
  simp [unpackBits, List.length_flatMap, Nat.mul_comm]

/-- Bit `k` of a byte sequence is bit `7 - k mod 8` of byte `k / 8` (R66). -/
theorem getElem?_unpackBits (bs : List Byte) (k : Nat) (hk : k < 8 * bs.length) :
    (unpackBits bs)[k]? = some ((bs.getD (k / 8) 0).getLsbD (7 - k % 8)) := by
  induction bs generalizing k with
  | nil => simp at hk
  | cons b bs ih =>
    rw [unpackBits_cons]
    by_cases h8 : k < 8
    · rw [List.getElem?_append_left (by simpa using h8)]
      simp [lowBits, h8, Nat.div_eq_of_lt, Nat.mod_eq_of_lt h8]
    · have hk : k - 8 < 8 * bs.length := by simp at hk; omega
      rw [List.getElem?_append_right (by simp; omega), lowBits_length, ih (k - 8) hk,
        show k / 8 = (k - 8) / 8 + 1 by omega, show k % 8 = (k - 8) % 8 by omega, List.getD_cons_succ]

/-- Unpacking what was packed gives the bits, then zeros to the end of the last byte (R69). -/
theorem getElem?_unpackBits_packBits (bits : List Bool) (k : Nat) (hk : k < 8 * (packBits bits).length) :
    (unpackBits (packBits bits))[k]? = some (bits.getD k false) := by
  rw [packBits_length] at hk
  rw [getElem?_unpackBits _ k (by simpa using hk), getD_packBits bits _ (by omega),
    getLsbD_packedByte _ _ _ (by omega), Nat.div_add_mod]

/-- The pending bits of an empty unpacker are those of BYTE_IN (R144). -/
theorem pendingBits_of_empty (s : State) (heos : s.upEos = false) (hcnt : s.upCnt = 0) :
    pendingBits s = unpackBits s.byteIn := by
  simp [pendingBits, heos, hcnt]

/-! ## The round trip -/

/-- Settles O22: the packer appends `packBits bits`, an empty unpacker on these bytes has their bits pending, and those
are the bits written, then the padding. -/
theorem codecRoundTrip : Obligations.CodecRoundTrip := by
  intro s r bits hopen hcnt hacc hrun heos hup
  obtain ⟨p, hp, hout⟩ := execAll_pack_close bits s hopen hcnt hacc
  refine ⟨p, packBits bits, hp, hout, packBits_length bits, fun k j hk hj => ?_, fun k => ?_⟩
  · rw [getD_packBits bits k (by simpa using hk), getLsbD_packedByte bits k j hj]
  · have hpending : pendingBits { r with byteIn := packBits bits } = unpackBits (packBits bits) :=
      pendingBits_of_empty _ heos hup
    obtain ⟨t, ht, hrun', hrest⟩ := execAll_upGbit k { r with byteIn := packBits bits } hrun
    obtain ⟨u, hu, -, hresult, -⟩ := exec_upGbit_pending t hrun'
    rw [hrest, hpending, List.head?_drop] at hresult
    have hbit (hk : k < 8 * (packBits bits).length) : u.result = Result.ofBit .ok (bits.getD k false) := by
      rw [hresult, getElem?_unpackBits_packBits bits k hk, gbitResult]
    refine ⟨t, u, ht, hu, fun hk => hbit (by rw [packBits_length]; omega), fun hpad hk => ?_, fun hk => ?_⟩
    · rw [hbit hk, List.getD_eq_default _ _ hpad]
    · rw [hresult, List.getElem?_eq_none (by simpa using hk), gbitResult]

end Sys2Proof.Machine
end

section
/-! # Proofs: the packer and the decoder keep apart (O49, O50, O53)

A state is cut in two (20_memory.md R76): `State.join d p r` has the unpacker's and the walker's side of `d` and the
packer's side of `p`. A packer command does the same to the packer's side whatever the other side is, and a decoder
command the same to its own side. That the two commute, and that a decoder command leaves the packer alone, is read off
from this. -/

namespace Sys2Proof.Machine

/-- The ERR bits no unpacker or walker command sets: ILLEGAL_CMD, PK_CLOSED and BAD_ADDR (60_exceptions.md R260). -/
def packerErr : BitVec 7 := 0x15

/-- The decoder's side of `d` with the packer's side of `p` and the response `r`. RDATA, the pending operations and the
ERR bits of the host stand with the packer, since no decoder command touches them. -/
def State.join (d p : State) (r : Result) : State :=
  { d with
    pkAcc := p.pkAcc, pkCnt := p.pkCnt, pkClosed := p.pkClosed, byteOut := p.byteOut
    rdata := p.rdata, port := p.port
    err := d.err &&& ~~~packerErr ||| p.err &&& packerErr
    result := r }

theorem State.join_self (s : State) : s.join s s.result = s := by
  have herr : s.err &&& ~~~packerErr ||| s.err &&& packerErr = s.err := by
    rw [← BitVec.and_or_distrib_left, BitVec.not_or_self, BitVec.and_allOnes]
  simp [State.join, herr]

/-! ## The packer's side -/

theorem getLsbD_mask (c : Cause) (n : Nat) : c.mask.getLsbD n = decide (n = c.bitIndex) := by
  have hc : c.bitIndex < 7 := by cases c <;> decide
  rw [Cause.mask, BitVec.getLsbD_shiftLeft, BitVec.getLsbD_one, Bool.eq_iff_iff]
  simp
  omega

/-- A cause leaves every other cause's ERR bit alone (10_state.md R36). -/
theorem getLsbD_or_mask_of_ne (c : Cause) (e m : BitVec 7) (hm : m = 0 ∨ m = c.mask) (n : Nat)
    (hn : n ≠ c.bitIndex) : (e ||| m).getLsbD n = e.getLsbD n := by
  rcases hm with rfl | rfl
  · simp
  · simp [getLsbD_mask, hn]

theorem exec_pkWbit_of_closed (b : Bool) (s : State) (h : s.pkClosed = true) :
    exec (.pkWbit b) s = .next (refuse .pkClosed s) :=
  if_pos h

theorem exec_pkClose_of_closed (s : State) (h : s.pkClosed = true) : exec .pkClose s = .next (completeOk s) :=
  if_pos h

theorem refuse_pkClosed_join (d p : State) (r : Result) :
    refuse .pkClosed (d.join p r) = d.join (refuse .pkClosed p) (refuse .pkClosed p).result := by
  have hmask : Cause.mask .pkClosed &&& packerErr = Cause.mask .pkClosed := by decide
  have herr : (d.err &&& ~~~packerErr ||| p.err &&& packerErr) ||| Cause.mask .pkClosed =
      d.err &&& ~~~packerErr ||| (p.err ||| Cause.mask .pkClosed) &&& packerErr := by
    rw [BitVec.and_or_distrib_right, hmask, BitVec.or_assoc]
  exact congrArg (fun e => { d.join p r with err := e, result := Result.ofCode .pkClosed }) herr

theorem packBit_join (b : Bool) (d p : State) (r : Result) : packBit b (d.join p r) = d.join (packBit b p) r := by
  by_cases h7 : p.pkCnt = 7
  · rw [packBit_full b p h7, packBit_full b (d.join p r) h7]
    rfl
  · rw [packBit_not_full b p h7, packBit_not_full b (d.join p r) h7]
    rfl

theorem flushByte_join (d p : State) (r : Result) : flushByte (d.join p r) = d.join (flushByte p) r := by
  by_cases h0 : p.pkCnt = 0
  · rw [flushByte_boundary p h0, flushByte_boundary (d.join p r) h0]
  · rw [flushByte_partial p h0, flushByte_partial (d.join p r) h0]
    rfl

/-- R76, R120: a packer command acts on the packer's side alone, and the decoder's side has no part in what it does. -/
theorem exec_packer_join (i : Instr) (hi : isPackerCommand i = true) (s t : State) (h : exec i s = .next t) (d : State)
    (r : Result) : ∃ r', exec i (d.join s r) = .next (d.join t r') := by
  cases i with
  | pkOpen => cases h; exact ⟨_, rfl⟩
  | pkWbit b =>
    cases hc : s.pkClosed with
    | true =>
      rw [exec_pkWbit_of_closed b s hc] at h
      cases h
      rw [exec_pkWbit_of_closed b (d.join s r) hc]
      exact ⟨_, congrArg _ (refuse_pkClosed_join d s r)⟩
    | false =>
      rw [exec_pkWbit_of_open b s hc] at h
      cases h
      rw [exec_pkWbit_of_open b (d.join s r) hc, packBit_join]
      exact ⟨_, rfl⟩
  | pkClose =>
    cases hc : s.pkClosed with
    | true =>
      rw [exec_pkClose_of_closed s hc] at h
      cases h
      rw [exec_pkClose_of_closed (d.join s r) hc]
      exact ⟨_, rfl⟩
    | false =>
      rw [exec_pkClose_of_open s hc] at h
      cases h
      rw [exec_pkClose_of_open (d.join s r) hc, flushByte_join]
      exact ⟨_, rfl⟩
  | _ => cases hi

theorem packBit_frame (b : Bool) (s : State) :
    ∃ acc cnt out, packBit b s = { s with pkAcc := acc, pkCnt := cnt, byteOut := s.byteOut ++ out } := by
  by_cases h7 : s.pkCnt = 7
  · exact ⟨_, _, _, packBit_full b s h7⟩
  · exact ⟨placeBit s.pkAcc s.pkCnt b, s.pkCnt + 1, [], by rw [packBit_not_full b s h7, List.append_nil]⟩

theorem flushByte_frame (s : State) :
    ∃ acc cnt out, flushByte s = { s with pkAcc := acc, pkCnt := cnt, byteOut := s.byteOut ++ out } := by
  by_cases h0 : s.pkCnt = 0
  · exact ⟨s.pkAcc, s.pkCnt, [], by rw [flushByte_boundary s h0, List.append_nil]⟩
  · exact ⟨_, _, _, flushByte_partial s h0⟩

/-- Everything a packer command writes. -/
theorem exec_packer_frame (i : Instr) (hi : isPackerCommand i = true) (s t : State) (h : exec i s = .next t) :
    ∃ acc cnt closed out m r, (m = 0 ∨ m = Cause.mask .pkClosed) ∧
      t = { s with
        pkAcc := acc, pkCnt := cnt, pkClosed := closed, byteOut := s.byteOut ++ out
        err := s.err ||| m, result := r } := by
  cases i with
  | pkOpen =>
    cases h
    exact ⟨0, 0, false, [], 0, Result.ofCode .ok, .inl rfl, by simp [completeOk, respond]⟩
  | pkWbit b =>
    cases hc : s.pkClosed with
    | true =>
      rw [exec_pkWbit_of_closed b s hc] at h
      cases h
      exact ⟨s.pkAcc, s.pkCnt, s.pkClosed, [], _, Result.ofCode .pkClosed, .inr rfl,
        by simp [refuse_eq .pkClosed .pkClosed rfl]⟩
    | false =>
      rw [exec_pkWbit_of_open b s hc] at h
      obtain ⟨acc, cnt, out, hpack⟩ := packBit_frame b s
      cases h
      exact ⟨acc, cnt, s.pkClosed, out, 0, Result.ofCode .ok, .inl rfl, by simp [hpack, completeOk, respond]⟩
  | pkClose =>
    cases hc : s.pkClosed with
    | true =>
      rw [exec_pkClose_of_closed s hc] at h
      cases h
      exact ⟨s.pkAcc, s.pkCnt, s.pkClosed, [], 0, Result.ofCode .ok, .inl rfl, by simp [completeOk, respond]⟩
    | false =>
      rw [exec_pkClose_of_open s hc] at h
      obtain ⟨acc, cnt, out, hflush⟩ := flushByte_frame s
      cases h
      exact ⟨acc, cnt, true, out, 0, Result.ofCode .ok, .inl rfl, by simp [hflush, completeOk, respond]⟩
  | _ => cases hi

/-! ## The decoder's side -/

theorem raise_join (c : Cause) (hc : c.mask &&& ~~~packerErr = c.mask) (r' : Result) (d p : State) (r : Result) :
    raise c r' (d.join p r) = (raise c r' d).join p r' := by
  have herr : (d.err &&& ~~~packerErr ||| p.err &&& packerErr) ||| c.mask =
      (d.err ||| c.mask) &&& ~~~packerErr ||| p.err &&& packerErr := by
    rw [BitVec.and_or_distrib_right, hc, BitVec.or_assoc, BitVec.or_assoc, BitVec.or_comm c.mask]
  exact congrArg (fun e => { d.join p r with err := e, result := r' }) herr

theorem stopTruncated_join (d p : State) (r : Result) :
    stopTruncated (d.join p r) = (stopTruncated d).join p (stopTruncated d).result :=
  raise_join .truncated (by decide) _ { d with twState := .truncated } p r

theorem stopMalformed_join (r' : Result) (d p : State) (r : Result) :
    stopMalformed r' (d.join p r) = (stopMalformed r' d).join p r' :=
  raise_join .malformed (by decide) r' { d with twState := .malformed } p r

theorem takesBit_join (d t : State) (b : Bool) (h : d.takesBit b t) (p : State) (r : Result) :
    (d.join p r).takesBit b (t.join p r) := by
  obtain ⟨heos, ⟨n, hcnt, rfl, rfl⟩ | ⟨hcnt, byte, rest, hin, rfl, rfl⟩⟩ := h
  · exact ⟨heos, .inl ⟨n, hcnt, rfl, rfl⟩⟩
  · exact ⟨heos, .inr ⟨hcnt, byte, rest, hin, rfl, rfl⟩⟩

theorem emitLeaf_join (e : TmEntry) (d p : State) (r : Result) :
    emitLeaf e (d.join p r) = (emitLeaf e d).join p (emitLeaf e d).result := by
  by_cases h0 : d.twRem - 1 = 0
  · rw [emitLeaf_last e d h0, emitLeaf_last e (d.join p r) h0]
    rfl
  · rw [emitLeaf_not_last e d h0, emitLeaf_not_last e (d.join p r) h0]
    rfl

theorem startSession_nothing_owed (s : State) (h : s.twTotal = 0) :
    startSession s = respond (Result.ofCode .done)
      { s with twCur := s.twRoot, twRem := s.twTotal, twState := .done } :=
  if_pos h

theorem startSession_owing (s : State) (h : s.twTotal ≠ 0) :
    startSession s = completeOk { s with twCur := s.twRoot, twRem := s.twTotal, twState := .running } :=
  if_neg h

theorem startSession_join (d p : State) (r : Result) :
    startSession (d.join p r) = (startSession d).join p (startSession d).result := by
  by_cases h0 : d.twTotal = 0
  · rw [startSession_nothing_owed d h0, startSession_nothing_owed (d.join p r) h0]
    rfl
  · rw [startSession_owing d h0, startSession_owing (d.join p r) h0]
    rfl

theorem descend_join (e : TmEntry) (b : Bool) (d p : State) (r : Result) :
    descend e b (d.join p r) = (descend e b d).join p (descend e b d).result := by
  unfold descend
  cases e.child b with
  | some i => rfl
  | none => exact stopMalformed_join _ d p r

theorem walkStep_join (d p : State) (r : Result) :
    walkStep (d.join p r) = (walkStep d).join p (walkStep d).result := by
  cases hf : fetchNode d with
  | none =>
    rw [walkStep_fetch_none d hf, walkStep_fetch_none (d.join p r) hf]
    exact stopMalformed_join _ d p r
  | some e =>
    cases hl : e.isLeaf with
    | true =>
      rw [walkStep_leaf d e hf hl, walkStep_leaf (d.join p r) e hf hl]
      exact emitLeaf_join e d p r
    | false =>
      rcases noBit_or_takesBit d with hn | ⟨b, t, hb⟩
      · rw [walkStep_noBit d e hf hl hn, walkStep_noBit (d.join p r) e hf hl hn]
        exact stopTruncated_join { d with upEos := true } p r
      · have hj := takesBit_join d t b hb p r
        rw [walkStep_takesBit d t e b hf hl hb, walkStep_takesBit (d.join p r) (t.join p r) e b hf hl hj]
        exact descend_join e b t p r

/-- A fact about the walks that end in `t` holds when it holds of `t` itself and goes back over a micro-step (R169). -/
theorem walkRun_induction {P : Nat → State → Prop} {t : State} (ended : t.twState ≠ .running → ∀ n, P n t)
    (back : ∀ n s, s.twState = .running → P n (walkStep s) → P (n + 1) s) (n : Nat) (s : State)
    (h : walkRun n s = some t) : P n s := by
  induction n generalizing s with
  | zero =>
    by_cases hs : s.twState = .running
    · simp [walkRun, hs] at h
    · rw [walkRun_of_not_running 0 s hs] at h
      cases h
      exact ended hs 0
  | succ n ih =>
    by_cases hs : s.twState = .running
    · rw [walkRun_succ_of_running n s hs] at h
      exact back n s hs (ih (walkStep s) h)
    · rw [walkRun_of_not_running (n + 1) s hs] at h
      cases h
      exact ended hs (n + 1)

/-- A walk is the same walk whatever the packer's side is. -/
theorem walkRun_join (n : Nat) (d t p : State) (r : Result) (h : walkRun n d = some t) :
    ∃ r', walkRun n (d.join p r) = some (t.join p r') := by
  refine walkRun_induction (P := fun n s => ∀ r, ∃ r', walkRun n (s.join p r) = some (t.join p r'))
    (fun ht m r => ⟨r, walkRun_of_not_running m (t.join p r) ht⟩) (fun m s hs ih r => ?_) n d h r
  rw [walkRun_succ_of_running m (s.join p r) hs, walkStep_join]
  exact ih _

/-- TW_STEP and TW_RUN are accepted in RUNNING, UP_OPEN, UP_GBIT and TW_START outside it, TW_STOP always
(60_exceptions.md R262, R264). -/
def decoderAccepts (i : Instr) (x : TwState) : Prop :=
  match i with
  | .twStep | .twRun => x = .running
  | .twStop => True
  | _ => x ≠ .running

/-- A decoder command that is not accepted is refused with BUSY or NOT_RUNNING. -/
theorem exec_decoder_refused (i : Instr) (hi : isDecoderCommand i = true) (s : State)
    (h : ¬decoderAccepts i s.twState) :
    ∃ c, (c = .busy ∨ c = .notRunning) ∧ ∀ u, u.twState = s.twState → exec i u = .next (refuse c u) := by
  cases i with
  | twStop => exact absurd trivial h
  | twStep | twRun => exact ⟨.notRunning, .inr rfl, fun u hu => if_neg (hu ▸ h)⟩
  | upOpen | upGbit | twStart => exact ⟨.busy, .inl rfl, fun u hu => if_pos (hu.trans (Classical.not_not.mp h))⟩
  | _ => cases hi

theorem exec_upOpen_of_not_running (s : State) (hs : s.twState ≠ .running) :
    exec .upOpen s = .next (completeOk { s with upBuf := 0, upCnt := 0, upEos := false }) :=
  if_neg hs

theorem exec_twStep_of_running (s : State) (hs : s.twState = .running) : exec .twStep s = .next (walkStep s) :=
  if_pos hs

theorem walkRun_of_exec_twRun (s t : State) (hs : s.twState = .running) (h : exec .twRun s = .next t) :
    ∃ u, walkRun (walkBound s) s = some u ∧ t = respond (Result.ofCode u.twState.runCode) u := by
  simp only [exec, execTwRun, hs, if_true] at h
  split at h
  case h_1 u hu => cases h; exact ⟨u, hu, rfl⟩
  case h_2 => cases h

theorem exec_twRun_of_walkRun (s u : State) (hs : s.twState = .running) (h : walkRun (walkBound s) s = some u) :
    exec .twRun s = .next (respond (Result.ofCode u.twState.runCode) u) := by
  simp only [exec, execTwRun, hs, if_true, h]

theorem refuse_join (c : Cause) (hc : c = .busy ∨ c = .notRunning) (d p : State) (r : Result) :
    refuse c (d.join p r) = (refuse c d).join p (refuse c d).result := by
  rcases hc with rfl | rfl
  · exact raise_join .busy (by decide) _ d p r
  · exact raise_join .notRunning (by decide) _ d p r

/-- R76: a decoder command acts on the decoder's side alone, and the packer's side has no part in what it does. -/
theorem exec_decoder_join (i : Instr) (hi : isDecoderCommand i = true) (s t : State) (h : exec i s = .next t)
    (p : State) (r : Result) : ∃ r', exec i (s.join p r) = .next (t.join p r') := by
  by_cases ha : decoderAccepts i s.twState
  · cases i with
    | upOpen =>
      rw [exec_upOpen_of_not_running s ha] at h
      cases h
      exact ⟨_, exec_upOpen_of_not_running (s.join p r) ha⟩
    | upGbit =>
      rcases noBit_or_takesBit s with hn | ⟨b, u, hb⟩
      · rw [exec_upGbit_of_noBit s ha hn] at h
        cases h
        exact ⟨_, exec_upGbit_of_noBit (s.join p r) ha hn⟩
      · rw [exec_upGbit_of_takesBit s u b ha hb] at h
        cases h
        exact ⟨_, exec_upGbit_of_takesBit (s.join p r) (u.join p r) b ha (takesBit_join s u b hb p r)⟩
    | twStart =>
      rw [exec_twStart_of_not_running s ha] at h
      cases h
      rw [exec_twStart_of_not_running (s.join p r) ha, startSession_join]
      exact ⟨_, rfl⟩
    | twStep =>
      rw [exec_twStep_of_running s ha] at h
      cases h
      rw [exec_twStep_of_running (s.join p r) ha, walkStep_join]
      exact ⟨_, rfl⟩
    | twRun =>
      obtain ⟨u, hu, rfl⟩ := walkRun_of_exec_twRun s t ha h
      obtain ⟨r', hj⟩ := walkRun_join (walkBound s) s u p r hu
      exact ⟨_, exec_twRun_of_walkRun (s.join p r) (u.join p r') ha hj⟩
    | twStop =>
      cases h
      exact ⟨_, rfl⟩
    | _ => cases hi
  · obtain ⟨c, hc, hrefuse⟩ := exec_decoder_refused i hi s ha
    rw [hrefuse s rfl] at h
    cases h
    rw [hrefuse (s.join p r) rfl, refuse_join c hc]
    exact ⟨_, rfl⟩

/-! ## What a decoder command does to the streams -/

/-- SYM_OUT only grows at its end, and BYTE_IN only loses bytes at its front (20_memory.md R63, R65). -/
structure StreamsAdvance (s t : State) : Prop where
  symOut : s.symOut <+: t.symOut
  byteIn : t.byteIn <:+ s.byteIn

theorem StreamsAdvance.of_eq {s t : State} (hsym : t.symOut = s.symOut) (hbyte : t.byteIn = s.byteIn) :
    StreamsAdvance s t :=
  ⟨hsym ▸ List.prefix_rfl, hbyte ▸ List.suffix_rfl⟩

theorem StreamsAdvance.trans {s t u : State} (hst : StreamsAdvance s t) (htu : StreamsAdvance t u) :
    StreamsAdvance s u :=
  ⟨hst.symOut.trans htu.symOut, htu.byteIn.trans hst.byteIn⟩

theorem takesBit_streamsAdvance (s t : State) (b : Bool) (h : s.takesBit b t) : StreamsAdvance s t := by
  obtain ⟨-, ⟨n, -, -, rfl⟩ | ⟨-, byte, rest, hin, -, rfl⟩⟩ := h
  · exact .of_eq rfl rfl
  · exact ⟨List.prefix_rfl, hin ▸ List.suffix_cons byte rest⟩

theorem emitLeaf_streamsAdvance (e : TmEntry) (s : State) : StreamsAdvance s (emitLeaf e s) := by
  have hpush : s.symOut <+: s.symOut ++ [e.sym] := List.prefix_append _ _
  by_cases h0 : s.twRem - 1 = 0
  · rw [emitLeaf_last e s h0]
    exact ⟨hpush, List.suffix_rfl⟩
  · rw [emitLeaf_not_last e s h0]
    exact ⟨hpush, List.suffix_rfl⟩

theorem walkStep_streamsAdvance (s : State) : StreamsAdvance s (walkStep s) := by
  rcases walkStep_cases s with
    ⟨-, hw⟩ | ⟨e, -, -, hw⟩ | ⟨e, -, -, -, hw⟩ | ⟨e, b, t, i, -, -, hb, -, hw⟩ |
      ⟨e, b, t, -, -, hb, -, hw⟩ <;>
    rw [hw]
  · exact .of_eq rfl rfl
  · exact emitLeaf_streamsAdvance e s
  · exact .of_eq rfl rfl
  · exact (takesBit_streamsAdvance s t b hb).trans (.of_eq rfl rfl)
  · exact (takesBit_streamsAdvance s t b hb).trans (.of_eq rfl rfl)

theorem walkRun_streamsAdvance (n : Nat) (s t : State) (h : walkRun n s = some t) : StreamsAdvance s t :=
  walkRun_induction (P := fun _ s => StreamsAdvance s t) (fun _ _ => .of_eq rfl rfl)
    (fun _ s _ ih => (walkStep_streamsAdvance s).trans ih) n s h

theorem startSession_streamsAdvance (s : State) : StreamsAdvance s (startSession s) := by
  by_cases h0 : s.twTotal = 0
  · rw [startSession_nothing_owed s h0]
    exact .of_eq rfl rfl
  · rw [startSession_owing s h0]
    exact .of_eq rfl rfl

theorem exec_decoder_streamsAdvance (i : Instr) (hi : isDecoderCommand i = true) (s t : State)
    (h : exec i s = .next t) : StreamsAdvance s t := by
  by_cases ha : decoderAccepts i s.twState
  · cases i with
    | upOpen =>
      rw [exec_upOpen_of_not_running s ha] at h
      cases h
      exact .of_eq rfl rfl
    | upGbit =>
      rcases noBit_or_takesBit s with hn | ⟨b, u, hb⟩
      · rw [exec_upGbit_of_noBit s ha hn] at h
        cases h
        exact .of_eq rfl rfl
      · rw [exec_upGbit_of_takesBit s u b ha hb] at h
        cases h
        exact (takesBit_streamsAdvance s u b hb).trans (.of_eq rfl rfl)
    | twStart =>
      rw [exec_twStart_of_not_running s ha] at h
      cases h
      exact startSession_streamsAdvance s
    | twStep =>
      rw [exec_twStep_of_running s ha] at h
      cases h
      exact walkStep_streamsAdvance s
    | twRun =>
      obtain ⟨u, hu, rfl⟩ := walkRun_of_exec_twRun s t ha h
      exact (walkRun_streamsAdvance _ s u hu).trans (.of_eq rfl rfl)
    | twStop =>
      cases h
      exact .of_eq rfl rfl
    | _ => cases hi
  · obtain ⟨c, -, hrefuse⟩ := exec_decoder_refused i hi s ha
    rw [hrefuse s rfl] at h
    cases h
    exact .of_eq (refuse_symOut c s) (refuse_byteIn c s)

/-! ## The statements -/

/-- Settles O49: all that a packer command writes is its registers, the end of BYTE_OUT, RESULT and PK_CLOSED in ERR. -/
theorem packerFrame : Obligations.PackerFrame := by
  intro i s t hi h
  obtain ⟨acc, cnt, closed, out, m, r, hm, rfl⟩ := exec_packer_frame i hi s t h
  refine ⟨rfl, rfl, rfl, rfl, rfl, rfl, rfl, rfl, fun _ => rfl, rfl, rfl, rfl, rfl, fun n hn => ?_,
    List.prefix_append _ _⟩
  exact getLsbD_or_mask_of_ne .pkClosed s.err m hm n hn

/-- A decoder command leaves a state with the packer's side of the one before. -/
theorem exec_decoder_eq_join (i : Instr) (hi : isDecoderCommand i = true) (s t : State) (h : exec i s = .next t) :
    ∃ r, t = t.join s r := by
  obtain ⟨r, hr⟩ := exec_decoder_join i hi s t h s s.result
  rw [State.join_self, h] at hr
  exact ⟨r, Host.Outcome.next.inj hr⟩

theorem exec_packer_eq_join (i : Instr) (hi : isPackerCommand i = true) (s t : State) (h : exec i s = .next t) :
    ∃ r, t = s.join t r := by
  obtain ⟨r, hr⟩ := exec_packer_join i hi s t h s s.result
  rw [State.join_self, h] at hr
  exact ⟨r, Host.Outcome.next.inj hr⟩

/-- ILLEGAL_CMD, PK_CLOSED and BAD_ADDR are on the packer's side. -/
theorem State.join_err_packer (d p : State) (r : Result) (n : Nat) (hn : n = 0 ∨ n = 2 ∨ n = 4) :
    (d.join p r).err.getLsbD n = p.err.getLsbD n := by
  rcases hn with rfl | rfl | rfl <;> simp [State.join, packerErr]

/-- Settles O50: the packer's side stays, the tree stays as under every command but RESET, and the streams advance. -/
theorem decoderFrame : Obligations.DecoderFrame := by
  intro i s t hi h
  obtain ⟨r, hr⟩ := exec_decoder_eq_join i hi s t h
  have keep {α : Type} (f : State → α) := congrArg f hr
  have htree : Guarantee s t :=
    exec_guarantee i s t (fun hreset => by simp [hreset, isDecoderCommand] at hi)
      (fun a d hwrite => by simp [hwrite, isDecoderCommand] at hi) h
  have hstreams := exec_decoder_streamsAdvance i hi s t h
  exact ⟨keep State.pkAcc, keep State.pkCnt, keep State.pkClosed, keep State.byteOut, htree.root, htree.total,
    fun j => by rw [htree.tm], keep State.rdata, keep State.port,
    fun n hn => (keep (fun u => u.err.getLsbD n)).trans (State.join_err_packer t s r n hn),
    hstreams.symOut, hstreams.byteIn⟩

/-- Settles O53: in either order the decoder's side is what the decoder command makes of it, and the packer's side what
the packer command does. -/
theorem packerCommutesWithTheDecoder : Obligations.PackerCommutesWithTheDecoder := by
  intro p u s hp hu
  obtain ⟨sp, hsp⟩ := everyOperationCompletes p s
  obtain ⟨su, hsu⟩ := everyOperationCompletes u s
  obtain ⟨rp, hsp'⟩ := exec_packer_eq_join p hp s sp hsp
  obtain ⟨ru, hsu'⟩ := exec_decoder_eq_join u hu s su hsu
  obtain ⟨r, hpu⟩ := exec_decoder_join u hu s su hsu sp rp
  obtain ⟨r', hup⟩ := exec_packer_join p hp s sp hsp su ru
  rw [← hsp'] at hpu
  rw [← hsu'] at hup
  refine ⟨su.join sp r, su.join sp r', ?_, ?_, rfl⟩
  · rw [execAll_cons _ _ _ _ hsp, execAll_cons _ _ _ _ hpu, execAll]
  · rw [execAll_cons _ _ _ _ hsu, execAll_cons _ _ _ _ hup, execAll]

end Sys2Proof.Machine
end

section
/-! # Proofs: what a host access touches, and the issue of an operation (O52, O1) -/

namespace Sys2Proof.Machine

/-! ## Everything a host access can do (43_system.md R200, R201) -/

/-- TW_ROOT is index 4 alone, TW_TOTAL indices 5 and 6, and the window begins at 0x100 (10_state.md R40). -/
theorem treeIndex_of_regAt (a : PortIndex) :
    (regAt a = .twRoot → a = 0x004) ∧ (regAt a = .twTotalLo → a = 0x005) ∧
    (regAt a = .twTotalHi → a = 0x006) ∧ (∀ i, regAt a = .tm i → a.toNat = 0x100 + i.val) := by
  unfold regAt
  split
  case h_5 h4 => exact ⟨fun _ => BitVec.eq_of_toNat_eq h4, nofun, nofun, nofun⟩
  case h_6 h5 => exact ⟨nofun, fun _ => BitVec.eq_of_toNat_eq h5, nofun, nofun⟩
  case h_7 h6 => exact ⟨nofun, nofun, fun _ => BitVec.eq_of_toNat_eq h6, nofun⟩
  case h_13 =>
    split
    case isTrue hw =>
      refine ⟨nofun, nofun, nofun, fun i hi => ?_⟩
      have hval := congrArg Fin.val (HostReg.tm.inj hi)
      simp only [Config.tmBase] at hw hval
      omega
    case isFalse => exact ⟨nofun, nofun, nofun, nofun⟩
  all_goals exact ⟨nofun, nofun, nofun, nofun⟩

/-- Everything a write to an index other than CMD can do, by the index (R201, R203, R204). -/
inductive RegisterWrite (a : PortIndex) (d : Word) (s : State) : State → Prop
  | clear (h : a = 0x003) : RegisterWrite a d s (clearErr (errMaskOfWord d) s)
  | root (h : a = 0x004) (r : NodeIndex) : RegisterWrite a d s { s with twRoot := r }
  | total (h : a = 0x005 ∨ a = 0x006) (n : Total) : RegisterWrite a d s { s with twTotal := n }
  | entry (i : Nat) (h : a.toNat = 0x100 + i) (e : TmEntry) :
      RegisterWrite a d s { s with tm := Memory.write s.tm i e }
  | refused (h : a ≠ 0x003) (c : Cause) (hc : c = .busy ∨ c = .badAddr) : RegisterWrite a d s (flag c s)

/-- A write behind the tree lock is done or refused with BUSY (R204). -/
theorem RegisterWrite.locked {a : PortIndex} {d : Word} {s u : State} (h : RegisterWrite a d s u) (ha : a ≠ 0x003) :
    RegisterWrite a d s (lockedWrite s u) := by
  by_cases hs : s.twState = .running
  · rw [lockedWrite_running s u hs]
    exact .refused ha .busy (.inl rfl)
  · rw [lockedWrite_not_running s u hs]
    exact h

theorem exec_hwrite_registerWrite (a : PortIndex) (d : Word) (s t : State) (ha : a ≠ 0x000)
    (h : exec (.hwrite a d) s = .next t) : RegisterWrite a d s t := by
  obtain ⟨hroot, hlo, hhi, htm⟩ := treeIndex_of_regAt a
  have herr (h3 : regAt a ≠ .err) : a ≠ 0x003 := by
    rintro rfl
    exact h3 regAt_err
  simp only [exec, execHwrite] at h
  split at h
  case h_1 hr => exact absurd ((index_of_regAt a).1 hr) ha
  case h_2 hr => cases h; exact .clear ((index_of_regAt a).2 hr)
  case h_3 hr => cases h; exact (RegisterWrite.root (hroot hr) _).locked (herr (by simp [hr]))
  case h_4 hr => cases h; exact (RegisterWrite.total (.inl (hlo hr)) _).locked (herr (by simp [hr]))
  case h_5 hr => cases h; exact (RegisterWrite.total (.inr (hhi hr)) _).locked (herr (by simp [hr]))
  case h_6 i hr => cases h; exact (RegisterWrite.entry i.val (htm i hr) _).locked (herr (by simp [hr]))
  all_goals
    rename_i hr
    cases h
    exact .refused (herr (by simp [hr])) .badAddr (.inr rfl)

/-- A register write touches the tree and ERR alone. -/
theorem RegisterWrite.eq_tree_err {a : PortIndex} {d : Word} {s t : State} (h : RegisterWrite a d s t) :
    t = { s with twRoot := t.twRoot, twTotal := t.twTotal, tm := t.tm, err := t.err } := by
  cases h <;> rfl

theorem readEffect_eq (s : State) (r : HostReg) : readEffect s r = s ∨ readEffect s r = flag .badAddr s := by
  cases r with
  | unmapped => exact .inr rfl
  | _ => exact .inl rfl

/-- All that a host read writes is RDATA, and BAD_ADDR in ERR (R73). -/
theorem exec_hread_frame (a : PortIndex) (s t : State) (h : exec (.hread a) s = .next t) :
    ∃ w m, (m = 0 ∨ m = Cause.mask .badAddr) ∧ t = { s with rdata := w, err := s.err ||| m } := by
  cases h
  rcases readEffect_eq s (regAt a) with he | he
  · exact ⟨readReg s (regAt a), 0, .inl rfl, by simp [he]⟩
  · exact ⟨readReg s (regAt a), _, .inr rfl, by rw [he]; rfl⟩

/-! ## What a register write does to each field it can reach -/

theorem RegisterWrite.twRoot {a : PortIndex} {d : Word} {s t : State} (h : RegisterWrite a d s t) (ha : a ≠ 0x004) :
    t.twRoot = s.twRoot := by
  cases h with
  | root h4 r => exact absurd h4 ha
  | _ => rfl

theorem RegisterWrite.twTotal {a : PortIndex} {d : Word} {s t : State} (h : RegisterWrite a d s t) (hlo : a ≠ 0x005)
    (hhi : a ≠ 0x006) : t.twTotal = s.twTotal := by
  cases h with
  | total h56 n => exact (h56.elim hlo hhi).elim
  | _ => rfl

theorem RegisterWrite.read_tm {a : PortIndex} {d : Word} {s t : State} (h : RegisterWrite a d s t)
    (hwf : Memory.wf s.tm = true) (j : Nat) (hj : a.toNat ≠ 0x100 + j) :
    Memory.read t.tm j = Memory.read s.tm j := by
  cases h with
  | entry i hi e => exact Memory.read_write_of_wf s.tm i j e hwf (fun hji => hj (hji ▸ hi))
  | _ => rfl

theorem RegisterWrite.err_clear {a : PortIndex} {d : Word} {s t : State} (h : RegisterWrite a d s t) (ha : a = 0x003)
    (n : Nat) (hn : n < 7) : t.err.getLsbD n = (s.err.getLsbD n && !d.getLsbD n) := by
  subst ha
  cases h with
  | clear _ => simp [errMaskOfWord, hn]
  | root h4 _ => exact absurd h4 (by decide)
  | total h56 _ => exact absurd h56 (by decide)
  | entry i hi _ => exact absurd hi (by simp; omega)
  | refused h3 _ _ => exact absurd rfl h3

theorem RegisterWrite.err_set {a : PortIndex} {d : Word} {s t : State} (h : RegisterWrite a d s t) (ha : a ≠ 0x003) :
    t.err = s.err ∨ t.err = s.err ||| 0x02 ∨ t.err = s.err ||| 0x10 := by
  cases h with
  | clear h3 => exact absurd h3 ha
  | refused _ c hc =>
    rcases hc with rfl | rfl
    · exact .inr (.inl rfl)
    · exact .inr (.inr rfl)
  | _ => exact .inl rfl

/-! ## The statements -/

/-- Settles O52: a read writes RDATA and BAD_ADDR, and a write is one of the five kinds of `RegisterWrite`. -/
theorem hostAccessFrame : Obligations.HostAccessFrame := by
  intro i a d s t hwf hi h
  rcases hi with rfl | ⟨rfl, ha⟩
  · obtain ⟨w, m, hm, rfl⟩ := exec_hread_frame a s t h
    refine ⟨rfl, rfl, rfl, rfl, rfl, rfl, rfl, rfl, rfl, rfl, rfl, rfl, rfl, rfl,
      fun _ => ⟨rfl, rfl, rfl, fun n hn => ?_⟩, nofun⟩
    exact getLsbD_or_mask_of_ne .badAddr s.err m hm n hn
  · have hw := exec_hwrite_registerWrite a d s t ha h
    have keep {α : Type} (f : State → α) := congrArg f hw.eq_tree_err
    exact ⟨keep State.pkAcc, keep State.pkCnt, keep State.pkClosed, keep State.upBuf, keep State.upCnt,
      keep State.upEos, keep State.twRem, keep State.twCur, keep State.twState, keep State.result, keep State.byteIn,
      keep State.byteOut, keep State.symOut, keep State.port, nofun,
      fun _ => ⟨keep State.rdata, hw.twRoot, hw.twTotal, hw.read_tm hwf, hw.err_clear, hw.err_set⟩⟩

/-- Settles O1: `step_cons` and `step_nil` say what a step is, and `issued_of_ok` and `issued_of_error` what an
operation is issued as. -/
theorem stepExecutesTheNextOperation : Obligations.StepExecutesTheNextOperation :=
  ⟨step_cons, issued_of_ok, issued_of_error, step_nil⟩

end Sys2Proof.Machine
end

section
/-! # Proofs: TW_RUN decodes the codes of a tree (O32)

A walk goes down the tree along the pending bits (`walks_down`), so the code of a symbol takes it from the root to that
symbol's leaf, whose emission puts it back at the root: between two codes the walk is `AtRoot`, and the codes in front of
the stream are decoded one by one (`walks_codes`). -/

namespace Sys2Proof.Machine

/-! ## Trees and codes (45_host_contract.md R235, R242) -/

/-- The subtree that a bit string leads to: left on 0, right on 1. -/
def HuffTree.subtree : HuffTree → List Bool → Option HuffTree
  | t, [] => some t
  | .leaf _ _ _, _ :: _ => none
  | .node _ _ l r, b :: bits => HuffTree.subtree (if b then r else l) bits

/-- The code of a symbol leads from the root to a leaf with that symbol. -/
theorem subtree_of_mem_deriveCodes (tree : HuffTree) (c : Symbol × List Bool) (h : c ∈ deriveCodes tree) :
    ∃ k f, tree.subtree c.2 = some (.leaf k c.1 f) := by
  induction tree generalizing c with
  | leaf k x f =>
    obtain rfl : c = (x, []) := by simpa [deriveCodes] using h
    exact ⟨k, f, rfl⟩
  | node k f l r ihl ihr =>
    rw [deriveCodes, List.mem_append, List.mem_map, List.mem_map] at h
    rcases h with ⟨d, hd, rfl⟩ | ⟨d, hd, rfl⟩
    · exact ihl d hd
    · exact ihr d hd

/-! ## Fetching from a held tree (R165, R242) -/

theorem fetchNode_of_holdsTree_leaf (s : State) (k f : Nat) (x : Symbol) (h : holdsTree s.tm s.twCur (.leaf k x f)) :
    ∃ e, fetchNode s = some e ∧ e.isLeaf = true ∧ e.sym = x := by
  obtain ⟨hcur, e, he, hlv, hrv, hsym⟩ := h
  exact ⟨e, fetchNode_some s e hcur he, by simp [TmEntry.isLeaf, hlv, hrv], hsym⟩

theorem fetchNode_of_holdsTree_node (s : State) (k f : Nat) (l r : HuffTree)
    (h : holdsTree s.tm s.twCur (.node k f l r)) :
    ∃ e, fetchNode s = some e ∧ e.isLeaf = false ∧
      ∀ b, ∃ i, e.child b = some i ∧ holdsTree s.tm i (if b then r else l) := by
  obtain ⟨hcur, e, he, hlv, hrv, hleft, hright⟩ := h
  refine ⟨e, fetchNode_some s e hcur he, by simp [TmEntry.isLeaf, hlv], fun b => ?_⟩
  cases b with
  | false => exact ⟨e.left, by simp [TmEntry.child, hlv], hleft⟩
  | true => exact ⟨e.right, by simp [TmEntry.child, hrv], hright⟩

/-! ## Walks: micro-steps while RUNNING (42_tree_walker.md R169) -/

/-- A micro-step of the loop of TW_RUN. -/
def MicroStep (s t : State) : Prop := s.twState = .running ∧ t = walkStep s

/-- Any number of micro-steps of the loop. -/
abbrev Walks : State → State → Prop := Relation.ReflTransGen MicroStep

/-- The loop goes through every state that a walk from its first state reaches. -/
theorem walkRun_of_walks {s u t : State} (h : Walks s u) (n : Nat) (hn : walkRun n s = some t) :
    ∃ m, walkRun m u = some t := by
  induction h with
  | refl => exact ⟨n, hn⟩
  | tail _ hstep ih =>
    obtain ⟨hrun, rfl⟩ := hstep
    obtain ⟨m, hm⟩ := ih
    cases m with
    | zero => simp [walkRun, hrun] at hm
    | succ m => exact ⟨m, (walkRun_succ_of_running m _ hrun).symm.trans hm⟩

/-- A walk that has left RUNNING is what TW_RUN does. -/
theorem exec_twRun_of_walks {s t : State} (hs : s.twState = .running) (h : Walks s t) (ht : t.twState ≠ .running) :
    exec .twRun s = .next (respond (Result.ofCode t.twState.runCode) t) := by
  obtain ⟨u, hu⟩ := walkRun_ends_of_walkBound_le (walkBound s) s le_rfl
  obtain ⟨m, hm⟩ := walkRun_of_walks h (walkBound s) hu
  obtain rfl : t = u := Option.some.inj ((walkRun_of_not_running m t ht).symm.trans hm)
  exact exec_twRun_of_walkRun s t hs hu

/-! ## What a walk has decoded -/

/-- A walk from `s` to `t` that emits the symbols of `coded` and raises nothing. -/
structure Decodes (s : State) (coded : List (Symbol × List Bool)) (t : State) : Prop where
  walk : Walks s t
  symOut : t.symOut = s.symOut ++ coded.map Prod.fst
  rem : t.twRem.toNat + coded.length = s.twRem.toNat
  root : t.twRoot = s.twRoot
  tm : t.tm = s.tm
  err : t.err = s.err

theorem Decodes.refl (s : State) : Decodes s [] s :=
  ⟨.refl, (List.append_nil _).symm, rfl, rfl, rfl, rfl⟩

theorem Decodes.trans {s t u : State} {xs ys : List (Symbol × List Bool)} (hst : Decodes s xs t)
    (htu : Decodes t ys u) : Decodes s (xs ++ ys) u where
  walk := hst.walk.trans htu.walk
  symOut := by rw [htu.symOut, hst.symOut, List.map_append, List.append_assoc]
  rem := by rw [← hst.rem, ← htu.rem, List.length_append]; omega
  root := htu.root.trans hst.root
  tm := htu.tm.trans hst.tm
  err := htu.err.trans hst.err

/-! ## Down the tree (R167, R168) -/

theorem takesBit_of_pendingBits (s : State) (b : Bool) (bits : List Bool) (h : pendingBits s = b :: bits) :
    ∃ t, s.takesBit b t ∧ pendingBits t = bits := by
  rcases noBit_or_takesBit s with hn | ⟨b', t, ht⟩
  · rw [pendingBits_of_noBit s hn] at h
    cases h
  · rw [pendingBits_of_takesBit s t b' ht] at h
    cases h
    exact ⟨t, ht, rfl⟩

/-- A micro-step on an inner node goes to the child on the first pending bit. -/
theorem walkStep_down (s : State) (k f : Nat) (l r : HuffTree) (b : Bool) (bits : List Bool)
    (hrun : s.twState = .running) (htree : holdsTree s.tm s.twCur (.node k f l r))
    (hbits : pendingBits s = b :: bits) :
    ∃ t, Decodes s [] t ∧ t.twState = .running ∧ holdsTree t.tm t.twCur (if b then r else l) ∧
      pendingBits t = bits := by
  obtain ⟨e, he, hleaf, hchild⟩ := fetchNode_of_holdsTree_node s k f l r htree
  obtain ⟨i, hi, hsub⟩ := hchild b
  obtain ⟨t, ht, hrest⟩ := takesBit_of_pendingBits s b bits hbits
  have hstep : respond (Result.ofBit .ok b) { t with twCur := i } = walkStep s := by
    rw [walkStep_takesBit s t e b he hleaf ht, descend, hi]
  obtain ⟨buf, cnt, src, rfl⟩ := takesBit_frame s t b ht
  exact ⟨_, ⟨.single ⟨hrun, hstep⟩, (List.append_nil _).symm, rfl, rfl, rfl, rfl⟩, hrun, hsub, hrest⟩

/-- With the bits of a path in front of the stream a walk goes down that path. -/
theorem walks_down (path : List Bool) (tree sub : HuffTree) (hsub : tree.subtree path = some sub) (s : State)
    (hrun : s.twState = .running) (htree : holdsTree s.tm s.twCur tree) (rest : List Bool)
    (hbits : pendingBits s = path ++ rest) :
    ∃ t, Decodes s [] t ∧ t.twState = .running ∧ holdsTree t.tm t.twCur sub ∧ pendingBits t = rest := by
  induction path generalizing tree s with
  | nil =>
    cases hsub
    exact ⟨s, .refl s, hrun, htree, hbits⟩
  | cons b path ih =>
    cases tree with
    | leaf k x f => cases hsub
    | node k f l r =>
      obtain ⟨u, hsu, hurun, hutree, hubits⟩ := walkStep_down s k f l r b (path ++ rest) hrun htree hbits
      obtain ⟨t, hut, htrun, httree, hrest⟩ := ih _ hsub u hurun hutree hubits
      exact ⟨t, hsu.trans hut, htrun, httree, hrest⟩

/-! ## From code to code (R166) -/

/-- Between two codes: at the root of the held tree, DONE when nothing is owed. -/
structure AtRoot (tree : HuffTree) (s : State) : Prop where
  cur : s.twCur = s.twRoot
  tree : holdsTree s.tm s.twRoot tree
  state : s.twState = if s.twRem = 0 then .done else .running

/-- What an emission writes, whether it is the last one or not. -/
theorem emitLeaf_frame (e : TmEntry) (s : State) (hrun : s.twState = .running) :
    ∃ res, emitLeaf e s = { s with
      symOut := s.symOut ++ [e.sym], twRem := s.twRem - 1, twCur := s.twRoot, result := res
      twState := if s.twRem - 1 = 0 then .done else .running } := by
  by_cases h0 : s.twRem - 1 = 0
  · rw [emitLeaf_last e s h0, if_pos h0]
    exact ⟨_, rfl⟩
  · rw [emitLeaf_not_last e s h0, if_neg h0, ← hrun]
    exact ⟨_, rfl⟩

/-- A micro-step on a leaf emits its symbol and goes back to the root. -/
theorem walkStep_emits (tree : HuffTree) (c : Symbol × List Bool) (k f : Nat) (s : State)
    (hrun : s.twState = .running) (hleaf : holdsTree s.tm s.twCur (.leaf k c.1 f))
    (htree : holdsTree s.tm s.twRoot tree) (howed : 0 < s.twRem.toNat) :
    ∃ t, AtRoot tree t ∧ Decodes s [c] t ∧ pendingBits t = pendingBits s := by
  obtain ⟨e, he, hl, hsym⟩ := fetchNode_of_holdsTree_leaf s k f c.1 hleaf
  obtain ⟨res, hemit⟩ := emitLeaf_frame e s hrun
  have hstep : MicroStep s (emitLeaf e s) := ⟨hrun, (walkStep_leaf s e he hl).symm⟩
  have hpaid : (s.twRem - 1).toNat + 1 = s.twRem.toNat := by bv_omega
  rw [hemit] at hstep
  refine ⟨_, ?_, ⟨.single hstep, ?_, hpaid, rfl, rfl, rfl⟩, rfl⟩
  · exact ⟨rfl, htree, rfl⟩
  · rw [hsym]
    rfl

/-- With the code of a symbol in front of the stream a walk goes from the root to that symbol's leaf and emits it. -/
theorem walks_code (tree : HuffTree) (c : Symbol × List Bool) (hc : c ∈ deriveCodes tree) (s : State)
    (hroot : AtRoot tree s) (howed : 0 < s.twRem.toNat) (rest : List Bool) (hbits : pendingBits s = c.2 ++ rest) :
    ∃ t, AtRoot tree t ∧ Decodes s [c] t ∧ pendingBits t = rest := by
  obtain ⟨hcur, htree, hstate⟩ := hroot
  have hrun : s.twState = .running := by rw [hstate, if_neg (fun h0 => by simp [h0] at howed)]
  obtain ⟨k, f, hleaf⟩ := subtree_of_mem_deriveCodes tree c hc
  obtain ⟨u, hsu, hurun, huleaf, hubits⟩ := walks_down c.2 tree _ hleaf s hrun (hcur ▸ htree) rest hbits
  obtain ⟨t, htroot, hut, hrest⟩ := walkStep_emits tree c k f u hurun huleaf (by rwa [hsu.tm, hsu.root])
    (by have hrem : u.twRem.toNat = s.twRem.toNat := hsu.rem; omega)
  exact ⟨t, htroot, hsu.trans hut, hrest.trans hubits⟩

/-- A walk decodes the codes in front of the stream, as many as are owed. -/
theorem walks_codes (tree : HuffTree) (coded : List (Symbol × List Bool)) (hcoded : ∀ c ∈ coded, c ∈ deriveCodes tree)
    (s : State) (hroot : AtRoot tree s) (howed : coded.length ≤ s.twRem.toNat) (rest : List Bool)
    (hbits : pendingBits s = coded.flatMap Prod.snd ++ rest) :
    ∃ t, AtRoot tree t ∧ Decodes s coded t ∧ pendingBits t = rest := by
  induction coded generalizing s with
  | nil => exact ⟨s, hroot, .refl s, hbits⟩
  | cons c cs ih =>
    obtain ⟨hc, hcs⟩ := List.forall_mem_cons.mp hcoded
    rw [List.length_cons] at howed
    rw [List.flatMap_cons, List.append_assoc] at hbits
    obtain ⟨u, huroot, hsu, hubits⟩ := walks_code tree c hc s hroot (by omega) _ hbits
    have hrem : u.twRem.toNat + 1 = s.twRem.toNat := hsu.rem
    obtain ⟨t, htroot, hut, hrest⟩ := ih hcs u huroot (by omega) hubits
    exact ⟨t, htroot, hsu.trans hut, hrest⟩

/-- Settles O32: RUNNING at the root with symbols owed is between two codes, and there the walk that decodes all of them
owes nothing, so it is DONE. -/
theorem twRunDecodesTheCodesOfATree : Obligations.TwRunDecodesTheCodesOfATree := by
  intro s tree coded rest hrun hcur htree hcoded hne hrem hbits
  have hpos : 0 < coded.length := List.length_pos_of_ne_nil hne
  have howed : s.twRem ≠ 0 := fun h0 => by simp [h0] at hrem; omega
  have hroot : AtRoot tree s := ⟨hcur, htree, by rw [if_neg howed, hrun]⟩
  obtain ⟨t, ⟨htcur, -, htstate⟩, hdec, hrest⟩ := walks_codes tree coded hcoded s hroot hrem.ge rest hbits
  have htrem : t.twRem = 0 := BitVec.eq_of_toNat_eq (by have := hdec.rem; simp; omega)
  have hdone : t.twState = .done := by rw [htstate, if_pos htrem]
  exact ⟨_, exec_twRun_of_walks hrun hdec.walk (by simp [hdone]), hdec.symOut, hdone, htrem, htcur.trans hdec.root,
    hdec.err, hrest⟩

end Sys2Proof.Machine
end

section
/-! # Proofs: command words and port words, both ways (O3, O4, O5, O6)

The opcode map is taken by fields (30_encoding.md R92): a word matches a row when bits 31:9 are zero, bits 7:0 are the
row's opcode, and bit 8 is clear unless the row is PK_WBIT's (`cmdRowMatches_iff`). -/

namespace Sys2Proof

open Machine

/-! ## The fields of a command word (R92) and of a port word (R90) -/

/-- A command word is known by bits 31:9, bit 8 and bits 7:0. -/
theorem cmdWord_ext_iff (w v : Word) :
    w = v ↔ w.extractLsb' 9 23 = v.extractLsb' 9 23 ∧ w.getLsbD 8 = v.getLsbD 8 ∧
      w.extractLsb' 0 8 = v.extractLsb' 0 8 := by
  refine ⟨fun h => h ▸ ⟨rfl, rfl, rfl⟩, fun ⟨hhi, harg, hop⟩ => BitVec.eq_of_getLsbD_eq (fun j hj => ?_)⟩
  rcases Nat.lt_trichotomy j 8 with hlt | rfl | hgt
  · simpa [hlt] using congrArg (fun x => x.getLsbD j) hop
  · exact harg
  · have hbit := congrArg (fun x => x.getLsbD (j - 9)) hhi
    simpa [show j - 9 < 23 by omega, show 9 + (j - 9) = j by omega] using hbit

/-- A port word is its three fields. -/
theorem portWord_eq_append (t : PortWord) :
    BitVec.ofBool (t.getLsbD 41) ++ t.extractLsb' 32 9 ++ t.extractLsb' 0 32 = t := by
  have hwe : BitVec.ofBool (t.getLsbD 41) = t.extractLsb' 41 1 := by
    refine BitVec.eq_of_getLsbD_eq (fun j hj => ?_)
    simp [show j = 0 by omega]
  rw [hwe, BitVec.extractLsb'_append_extractLsb'_eq_extractLsb' (show 41 = 32 + 9 from rfl),
    BitVec.extractLsb'_append_extractLsb']

/-! ## The opcode map by fields (R96) -/

/-- A row's opcode, bits 7:0 of its pattern. -/
def CmdRow.opcode (r : CmdRow) : BitVec 8 := r.pattern.extractLsb' 0 8

/-- Every row fixes bits 31:9 to zero and bits 7:0 to its opcode, and, but for PK_WBIT's, bit 8 to zero. -/
theorem cmdTable_fields : ∀ r ∈ cmdTable,
    r.mask.extractLsb' 9 23 = BitVec.allOnes 23 ∧ r.mask.extractLsb' 0 8 = BitVec.allOnes 8 ∧
    r.mask.getLsbD 8 = (r.opcode != 0x11) ∧
    r.pattern.extractLsb' 9 23 = 0 ∧ r.pattern.getLsbD 8 = false := by
  decide

theorem cmdRowMatches_iff (w : Word) (r : CmdRow) (hr : r ∈ cmdTable) :
    cmdRowMatches w r = true ↔
      w.extractLsb' 9 23 = 0 ∧ (w.getLsbD 8 = true → r.opcode = 0x11) ∧ w.extractLsb' 0 8 = r.opcode := by
  obtain ⟨hmaskhi, hmaskop, hmaskarg, hhi, harg⟩ := cmdTable_fields r hr
  rw [cmdRowMatches, beq_iff_eq, cmdWord_ext_iff, BitVec.extractLsb'_and, BitVec.extractLsb'_and, BitVec.getLsbD_and,
    hmaskhi, hmaskop, hmaskarg, hhi, harg, BitVec.and_allOnes, BitVec.and_allOnes]
  simp [CmdRow.opcode]

/-- The eleven opcodes are different. -/
theorem nodup_map_opcode_cmdTable : (cmdTable.map CmdRow.opcode).Nodup := by
  decide

theorem opcode_eq_of_matches (w : Word) (r q : CmdRow) (hr : r ∈ cmdTable) (hq : q ∈ cmdTable)
    (hwr : cmdRowMatches w r = true) (hwq : cmdRowMatches w q = true) : r.opcode = q.opcode := by
  obtain ⟨-, -, hopr⟩ := (cmdRowMatches_iff w r hr).mp hwr
  obtain ⟨-, -, hopq⟩ := (cmdRowMatches_iff w q hq).mp hwq
  exact hopr.symm.trans hopq

/-- Settles O6: two rows that a word matches have the same opcode. -/
theorem opcodeRowsDoNotOverlap : Obligations.OpcodeRowsDoNotOverlap :=
  (List.pairwise_map.mp nodup_map_opcode_cmdTable).imp_of_mem
    (fun {r q} hr hq hne w ⟨hwr, hwq⟩ => hne (opcode_eq_of_matches w r q hr hq hwr hwq))

theorem cmdRow_eq_of_matches (w : Word) (r q : CmdRow) (hr : r ∈ cmdTable) (hq : q ∈ cmdTable)
    (hwr : cmdRowMatches w r = true) (hwq : cmdRowMatches w q = true) : r = q :=
  List.inj_on_of_nodup_map nodup_map_opcode_cmdTable hr hq (opcode_eq_of_matches w r q hr hq hwr hwq)

/-! ## Legal and illegal command words (R97) -/

theorem decodeCmd_of_matches (w : Word) (r : CmdRow) (hr : r ∈ cmdTable) (hw : cmdRowMatches w r = true) :
    decodeCmd w = .ok (r.command w) := by
  unfold decodeCmd
  split
  next q hq =>
    rw [cmdRow_eq_of_matches w r q hr (List.mem_of_find?_eq_some hq) hw (List.find?_some hq)]
  next hnone =>
    exact absurd hw (List.find?_eq_none.mp hnone r hr)

theorem decodeCmd_error_iff (w : Word) :
    (∃ r, decodeCmd w = .error r) ↔ ∀ r ∈ cmdTable, cmdRowMatches w r = false := by
  constructor
  · rintro ⟨reason, herror⟩ r hr
    by_contra hw
    rw [decodeCmd_of_matches w r hr (Bool.eq_true_of_not_eq_false hw)] at herror
    cases herror
  · intro h
    have hnone : cmdTable.find? (cmdRowMatches w) = none := List.find?_eq_none.mpr (by simpa using h)
    exact ⟨cmdRejectReason w, by rw [decodeCmd, hnone]⟩

/-- A word matches some row when it fails none of the three checks of R97. -/
theorem exists_cmdRowMatches_iff (w : Word) :
    (∃ r ∈ cmdTable, cmdRowMatches w r = true) ↔
      w.extractLsb' 9 23 = 0 ∧ w.extractLsb' 0 8 ∈ cmdTable.map CmdRow.opcode ∧
        (w.getLsbD 8 = true → w.extractLsb' 0 8 = 0x11) := by
  constructor
  · rintro ⟨r, hr, hw⟩
    obtain ⟨hhi, harg, hop⟩ := (cmdRowMatches_iff w r hr).mp hw
    exact ⟨hhi, List.mem_map.mpr ⟨r, hr, hop.symm⟩, fun h => hop.trans (harg h)⟩
  · rintro ⟨hhi, hmem, harg⟩
    obtain ⟨r, hr, hop⟩ := List.mem_map.mp hmem
    exact ⟨r, hr, (cmdRowMatches_iff w r hr).mpr ⟨hhi, fun h => hop.trans (harg h), hop.symm⟩⟩

/-- Settles O5: a word that matches no row fails a check, and the table's opcodes are the eleven of the rule. -/
theorem illegalWordsAreThoseOfTheRule : Obligations.IllegalWordsAreThoseOfTheRule := by
  refine ⟨decodeCmd_of_matches, fun w => ⟨decodeCmd_error_iff w, ?_⟩⟩
  have hnone : (∀ r ∈ cmdTable, cmdRowMatches w r = false) ↔ ¬∃ r ∈ cmdTable, cmdRowMatches w r = true := by simp
  rw [decodeCmd_error_iff, hnone, exists_cmdRowMatches_iff, not_and_or, not_and_or, Classical.not_imp]
  rfl

/-! ## Decoding an encoding, and encoding what was decoded (R90, R96) -/

theorem decodeOp_encode (i : Instr) : decodeOp (encode i) = .ok i := by
  cases i with
  | nop => exact decodeCmd_nop
  | reset => exact decodeCmd_reset
  | pkOpen => exact decodeCmd_pkOpen
  | pkWbit b =>
    cases b with
    | false => exact decodeCmd_pkWbit_zero
    | true => exact decodeCmd_pkWbit_one
  | pkClose => exact decodeCmd_pkClose
  | upOpen => exact decodeCmd_upOpen
  | upGbit => exact decodeCmd_upGbit
  | twStart => exact decodeCmd_twStart
  | twStep => exact decodeCmd_twStep
  | twRun => exact decodeCmd_twRun
  | twStop => exact decodeCmd_twStop
  | hread a => exact congrArg Except.ok (decodePort_read a 0)
  | hwrite a d => exact congrArg Except.ok (decodePort_write a d)

/-- A PK_WBIT word is its opcode and, in bit 8, its operand. -/
theorem encode_pkWbit_of_mask (w : Word) (h : w &&& 0xFFFFFEFF = 0x00000011) :
    encode (.pkWbit (w.getLsbD 8)) = .cmd w := by
  have harg : (BitVec.ofBool (w.getLsbD 8)).setWidth 32 <<< 8 = w &&& BitVec.twoPow 32 8 := by
    rw [BitVec.and_twoPow]
    cases w.getLsbD 8 <;> rfl
  have hall : (0xFFFFFEFF ||| BitVec.twoPow 32 8 : Word) = BitVec.allOnes 32 := by decide
  calc encode (.pkWbit (w.getLsbD 8))
      = .cmd ((0x00000011 : Word) ||| (BitVec.ofBool (w.getLsbD 8)).setWidth 32 <<< 8) := rfl
    _ = .cmd (w &&& 0xFFFFFEFF ||| w &&& BitVec.twoPow 32 8) := by rw [h, harg]
    _ = .cmd w := by rw [← BitVec.and_or_distrib_left, hall, BitVec.and_allOnes]

theorem encode_of_decodeCmd (w : Word) (i : Instr) (h : decodeCmd w = .ok i) : encode i = .cmd w := by
  rcases decodeCmd_cases w i h with
    ⟨rfl, rfl⟩ | ⟨rfl, rfl⟩ | ⟨rfl, rfl⟩ | ⟨hw, rfl⟩ | ⟨rfl, rfl⟩ | ⟨rfl, rfl⟩ | ⟨rfl, rfl⟩ | ⟨rfl, rfl⟩ |
      ⟨rfl, rfl⟩ | ⟨rfl, rfl⟩ | ⟨rfl, rfl⟩
  case inr.inr.inr.inl => exact encode_pkWbit_of_mask w hw
  all_goals rfl

theorem encode_decodePort_write (t : PortWord) (h : t.getLsbD 41 = true) : encode (decodePort t) = .port t := by
  have ht := portWord_eq_append t
  rw [h] at ht
  rw [decodePort, if_pos h]
  exact congrArg HostOp.port ht

/-- The encoding of a read leaves WDATA zero. -/
theorem encode_decodePort_read (t : PortWord) (h : t.getLsbD 41 = false) :
    encode (decodePort t) = .port (t &&& 0x1FF00000000) := by
  have ht := portWord_eq_append t
  rw [h] at ht
  have hmask : t &&& 0x1FF00000000 = 0#1 ++ t.extractLsb' 32 9 ++ 0#32 := calc
    t &&& 0x1FF00000000
      = (0#1 ++ t.extractLsb' 32 9 ++ t.extractLsb' 0 32) &&& (0#1 ++ BitVec.allOnes 9 ++ 0#32) := by
        congr 1
        exact ht.symm
    _ = 0#1 ++ t.extractLsb' 32 9 ++ 0#32 := by
        rw [BitVec.and_append, BitVec.and_append, BitVec.and_allOnes, BitVec.and_zero, BitVec.and_zero]
  rw [decodePort, h, hmask]
  rfl

/-- Settles O4: the four clauses are `decodeOp_encode` and the encodings of a decoded command, write and read. -/
theorem decodeEncodeAgree : Obligations.DecodeEncodeAgree :=
  ⟨decodeOp_encode, encode_of_decodeCmd, encode_decodePort_write, encode_decodePort_read⟩

/-- Settles O3: each word is one the decoder's laws name, but for the clearing write to ERR. -/
theorem specWordsDecode : Obligations.SpecWordsDecode :=
  ⟨decodeCmd_nop, decodeCmd_reset, decodeCmd_pkOpen, decodeCmd_pkWbit_zero, decodeCmd_pkWbit_one, decodeCmd_pkClose,
    decodeCmd_upOpen, decodeCmd_upGbit, decodeCmd_twStart, decodeCmd_twStep, decodeCmd_twRun, decodeCmd_twStop,
    decodePort_hread, decodePort_hwrite, decodePort_write 0x003 0x7F⟩

end Sys2Proof
end

section
/-! # Proofs: the packer's commands and its law (O13 to O17) -/

namespace Sys2Proof.Machine

/-! ## The commands, one by one (40_bit_packer.md R121 to R124) -/

/-- Settles O13: PK_OPEN has one case, and its word is a constant of the encoder. -/
theorem pkOpenEmptiesThePacker : Obligations.PkOpenEmptiesThePacker := ⟨rfl, fun _ => rfl⟩

/-- Position `7 − PK_CNT` as the top bit moved down by PK_CNT (R122). -/
theorem placeBit_eq_or (acc : Byte) (cnt : BitVec 3) (b : Bool) :
    placeBit acc cnt b = acc ||| if b then 0x80#8 >>> cnt.toNat else 0x00#8 := by
  refine congrArg (acc ||| ·) ?_
  cases b with
  | false => exact BitVec.zero_shiftLeft _
  | true =>
    revert cnt
    decide

/-- Settles O14: on an open packer PK_WBIT is `packBit`, whose two cases are PK_CNT = 7 and the rest. -/
theorem pkWbitAccumulatesABit : Obligations.PkWbitAccumulatesABit := by
  refine ⟨rfl, rfl, fun b s hopen => ⟨fun h7 => ?_, fun h7 => ?_⟩⟩
  · rw [exec_pkWbit_of_open b s hopen, packBit_full b s h7, placeBit_eq_or, h7]
    rfl
  · rw [exec_pkWbit_of_open b s hopen, packBit_not_full b s h7, placeBit_eq_or]
    rfl

/-- Settles O15: the refusal is `refuse .pkClosed`, and the cause's mask is ERR bit 2. -/
theorem pkWbitAfterCloseIsRefused : Obligations.PkWbitAfterCloseIsRefused := by
  intro b s hclosed
  rw [exec_pkWbit_of_closed b s hclosed, refuse_eq .pkClosed .pkClosed rfl]
  rfl

/-- Settles O16: a closed packer only answers OK, and an open one flushes, which on a byte boundary pushes nothing. -/
theorem pkCloseFlushesThePartialByte : Obligations.PkCloseFlushesThePartialByte := by
  refine ⟨rfl, fun s => ⟨exec_pkClose_of_closed s, fun hopen h0 => ?_, fun hopen h0 => ?_⟩⟩
  · rw [exec_pkClose_of_open s hopen, flushByte_boundary s h0]
    rfl
  · rw [exec_pkClose_of_open s hopen, flushByte_partial s h0]
    rfl

/-! ## The law of the packer (R125) -/

/-- Before the close the sink holds the full bytes of the packed bit string. -/
theorem take_packBits (bits : List Bool) : (packBits bits).take (bits.length / 8) = fullBytes bits := by
  rw [packBits_eq_map, ← List.map_take, List.take_range, Nat.min_eq_left (by omega), fullBytes]

/-- Settles O17: the invariant `Packed`, carried over the bits by `execAll_pkWbit`, says what the packer holds before
the close; the close completes the full bytes to `packBits bits`. -/
theorem packerLaw : Obligations.PackerLaw := by
  intro s bits hopen hcnt hacc
  obtain ⟨t, ht, hpacked⟩ := execAll_pkWbit s.byteOut [] bits s (.empty s hopen hcnt hacc)
  refine ⟨t, completeOk { flushByte t with pkClosed := true }, packBits bits, ht,
    exec_pkClose_of_open t hpacked.isOpen, packBits_length bits, fun k j hk hj => ?_, ?_, hpacked.cnt, fun j hj => ?_,
    hpacked.flushByte, rfl⟩
  · rw [getD_packBits bits k (by simpa using hk), getLsbD_packedByte bits k j hj]
  · rw [take_packBits]
    exact hpacked.out
  · rw [hpacked.acc]
    exact getLsbD_packedByte bits _ j hj

end Sys2Proof.Machine
end

section
/-! # Proofs: the unpacker's commands and its law (O18 to O21), and their frame beside the walker's (O51)

Where the law counts the bytes pulled, no induction over the calls follows the buffer: the bits still pending fix how
many bytes are left, and what is left of BYTE_IN is always an end of what was there. -/

namespace Sys2Proof.Machine

/-! ## The commands, one by one (41_bit_unpacker.md R141 to R143) -/

theorem refuse_busy_eq (s : State) :
    refuse .busy s = { s with result := Result.ofCode .busy, err := s.err ||| 0x02 } :=
  refuse_eq .busy .busy rfl s

/-- The commands that would disturb a walk are refused during one (R142, R143, 42_tree_walker.md R162). -/
theorem exec_of_running (i : Instr) (hi : i = .upOpen ∨ i = .upGbit ∨ i = .twStart) (s : State)
    (hs : s.twState = .running) : exec i s = .next (refuse .busy s) := by
  rcases hi with rfl | rfl | rfl <;> exact if_pos hs

/-- Settles O18: UP_OPEN has two cases, by whether a walk is RUNNING. -/
theorem upOpenEmptiesTheUnpacker : Obligations.UpOpenEmptiesTheUnpacker := by
  refine ⟨rfl, fun s => ⟨exec_upOpen_of_not_running s, fun hs => ?_⟩⟩
  rw [exec_of_running .upOpen (.inl rfl) s hs, refuse_busy_eq]

/-- Settles O19: outside RUNNING, UP_GBIT responds with what `GetBit()` answers. -/
theorem upGbitReturnsTheNextBit : Obligations.UpGbitReturnsTheNextBit := by
  refine ⟨rfl, fun s => ⟨fun hs => ?_, exec_upGbit_of_noBit s, fun hs b t => exec_upGbit_of_takesBit s t b hs⟩⟩
  rw [exec_of_running .upGbit (.inr (.inl rfl)) s hs, refuse_busy_eq]

/-- Settles O20: `noBit` and `takesBit` are the two ways through `GetBit()`, and one of them is open in every state. -/
theorem getBitFollowsTheRule : Obligations.GetBitFollowsTheRule :=
  fun s => ⟨getBit_of_noBit s, getBit_of_takesBit s, (noBit_or_takesBit s).resolve_left⟩

/-! ## What the unpacker's commands and the walker's leave of each other (R140, R162, R170) -/

theorem exec_upOpen_frame (s t : State) (h : exec .upOpen s = .next t) :
    ∃ buf cnt eos r e, t = { s with upBuf := buf, upCnt := cnt, upEos := eos, result := r, err := e } := by
  by_cases hs : s.twState = .running
  · rw [exec_of_running .upOpen (.inl rfl) s hs] at h
    cases h
    exact ⟨_, _, _, _, _, refuse_busy_eq s⟩
  · rw [exec_upOpen_of_not_running s hs] at h
    cases h
    exact ⟨_, _, _, _, _, rfl⟩

theorem exec_upGbit_frame (s t : State) (h : exec .upGbit s = .next t) :
    ∃ buf cnt eos src r e,
      t = { s with upBuf := buf, upCnt := cnt, upEos := eos, byteIn := src, result := r, err := e } := by
  by_cases hs : s.twState = .running
  · rw [exec_of_running .upGbit (.inr (.inl rfl)) s hs] at h
    cases h
    exact ⟨_, _, _, _, _, _, refuse_busy_eq s⟩
  · rcases noBit_or_takesBit s with hn | ⟨b, u, hb⟩
    · rw [exec_upGbit_of_noBit s hs hn] at h
      cases h
      exact ⟨_, _, _, _, _, _, rfl⟩
    · obtain ⟨buf, cnt, src, rfl⟩ := takesBit_frame s u b hb
      rw [exec_upGbit_of_takesBit s _ b hs hb] at h
      cases h
      exact ⟨_, _, _, _, _, _, rfl⟩

theorem startSession_frame (s : State) :
    ∃ cur rem x r, startSession s = { s with twCur := cur, twRem := rem, twState := x, result := r } := by
  by_cases h0 : s.twTotal = 0
  · exact ⟨_, _, _, _, startSession_nothing_owed s h0⟩
  · exact ⟨_, _, _, _, startSession_owing s h0⟩

theorem exec_twStart_frame (s t : State) (h : exec .twStart s = .next t) :
    ∃ cur rem x r e, t = { s with twCur := cur, twRem := rem, twState := x, result := r, err := e } := by
  by_cases hs : s.twState = .running
  · rw [exec_of_running .twStart (.inr (.inr rfl)) s hs] at h
    cases h
    exact ⟨_, _, _, _, _, refuse_busy_eq s⟩
  · obtain ⟨cur, rem, x, r, hstart⟩ := startSession_frame s
    rw [exec_twStart_of_not_running s hs] at h
    cases h
    exact ⟨cur, rem, x, r, s.err, hstart⟩

/-- Settles O51: read off from what each of the four commands writes. -/
theorem walkerAndUnpackerCommandsKeepApart : Obligations.WalkerAndUnpackerCommandsKeepApart := by
  refine fun s t => ⟨?_, ?_, fun h => ?_⟩
  · rintro (h | h)
    · obtain ⟨cur, rem, x, r, e, rfl⟩ := exec_twStart_frame s t h
      exact ⟨rfl, rfl, rfl, rfl, rfl⟩
    · cases h
      exact ⟨rfl, rfl, rfl, rfl, rfl⟩
  · rintro (h | h)
    · obtain ⟨buf, cnt, eos, r, e, rfl⟩ := exec_upOpen_frame s t h
      exact ⟨rfl, rfl, rfl, rfl⟩
    · obtain ⟨buf, cnt, eos, src, r, e, rfl⟩ := exec_upGbit_frame s t h
      exact ⟨rfl, rfl, rfl, rfl⟩
  · obtain ⟨buf, cnt, eos, r, e, rfl⟩ := exec_upOpen_frame s t h
    rfl

/-! ## The law of the unpacker (R144) -/

theorem pendingBits_length (s : State) (heos : s.upEos = false) :
    (pendingBits s).length = s.upCnt.val + 8 * s.byteIn.length := by
  simp [pendingBits, heos]

/-- The refill is lazy: a bit just taken leaves less than a byte in the buffer, and no end of stream (R141). -/
theorem takesBit_leaves (s t : State) (b : Bool) (h : s.takesBit b t) : t.upEos = false ∧ t.upCnt.val < 8 := by
  obtain ⟨heos, ⟨n, -, -, rfl⟩ | ⟨-, byte, rest, -, -, rfl⟩⟩ := h
  · exact ⟨heos, n.isLt⟩
  · exact ⟨heos, Nat.lt_add_one 7⟩

/-- After a bit is taken the pending bits fix how many bytes BYTE_IN still holds: those that fill whole bytes. -/
theorem byteIn_length_of_takesBit (s t : State) (b : Bool) (h : s.takesBit b t) :
    t.byteIn.length = (pendingBits t).length / 8 := by
  obtain ⟨heos, hcnt⟩ := takesBit_leaves s t b h
  rw [pendingBits_length t heos]
  omega

/-- The streams advance over any sequence of decoder commands (20_memory.md R63, R65). -/
theorem execAll_decoder_streamsAdvance (is : List Instr) (his : ∀ i ∈ is, isDecoderCommand i = true) (s t : State)
    (h : execAll is s = .next t) : StreamsAdvance s t := by
  induction is generalizing s with
  | nil =>
    cases h
    exact .of_eq rfl rfl
  | cons i is ih =>
    obtain ⟨hi, his⟩ := List.forall_mem_cons.mp his
    obtain ⟨u, hu⟩ := everyOperationCompletes i s
    rw [execAll_cons i is s u hu] at h
    exact (exec_decoder_streamsAdvance i hi s u hu).trans (ih his u h)

/-- What the call that takes bit `k` of `src` leaves of it: all but the bytes that its first `k + 1` bits reach. -/
theorem byteIn_eq_drop_of_takesBit (src : List Byte) (k : Nat) (s t : State) (b : Bool) (h : s.takesBit b t)
    (hs : s.byteIn <:+ src) (hpending : pendingBits s = (unpackBits src).drop k) :
    t.byteIn = src.drop ((k + 8) / 8) := by
  have hsuffix : t.byteIn <:+ src := (takesBit_streamsAdvance s t b h).byteIn.trans hs
  have hcount : (pendingBits t).length + 1 = 8 * src.length - k := by
    have hlength := congrArg List.length hpending
    rwa [pendingBits_of_takesBit s t b h, List.length_cons, List.length_drop, unpackBits_length] at hlength
  have hlength := byteIn_length_of_takesBit s t b h
  rw [List.suffix_iff_eq_drop.mp hsuffix, show src.length - t.byteIn.length = (k + 8) / 8 by omega]

/-- Settles O21: after `k` calls the bits of BYTE_IN from bit `k` on are pending; if there is one, the next call takes
it, and otherwise it finds none. -/
theorem unpackerLaw : Obligations.UnpackerLaw := by
  intro s k hrun heos hcnt
  obtain ⟨t, ht, hrun', hpending⟩ := execAll_upGbit k s hrun
  rw [pendingBits_of_empty s heos hcnt] at hpending
  have hsuffix : t.byteIn <:+ s.byteIn :=
    (execAll_decoder_streamsAdvance _ (fun i hi => List.eq_of_mem_replicate hi ▸ rfl) s t ht).byteIn
  rcases noBit_or_takesBit t with hn | ⟨b, v, hb⟩
  · have hend : 8 * s.byteIn.length ≤ k := by
      rw [pendingBits_of_noBit t hn] at hpending
      simpa using List.drop_eq_nil_iff.mp hpending.symm
    exact ⟨t, _, ht, exec_upGbit_of_noBit t hrun' hn, fun hk => absurd hk (by omega), fun _ => rfl⟩
  · have hbit : (unpackBits s.byteIn)[k]? = some b := by
      rw [← List.head?_drop, ← hpending, pendingBits_of_takesBit t v b hb, List.head?_cons]
    have hlt : k < 8 * s.byteIn.length := by
      simpa using (List.getElem?_eq_some_iff.mp hbit).1
    have hb' : (s.byteIn.getD (k / 8) 0).getLsbD (7 - k % 8) = b :=
      Option.some.inj ((getElem?_unpackBits s.byteIn k hlt).symm.trans hbit)
    refine ⟨t, _, ht, exec_upGbit_of_takesBit t v b hrun' hb, fun _ => ⟨?_, ?_⟩, fun hk => absurd hk (by omega)⟩
    · rw [hb', respond_result]
    · exact byteIn_eq_drop_of_takesBit s.byteIn k t v b hb hsuffix hpending

end Sys2Proof.Machine
end

section
/-! # Proofs: the walker's commands, its micro-step and its loop (O23, O25 to O31, O33, O34)

The micro-steps of a walk are iterates of `walkStep`: `RunsFor n s` says that the first `n` of them are each made in
RUNNING. Then they are `n` TW_STEPs, and if they leave RUNNING they are TW_RUN (R169); that some number of them within
the bound of R171 does so is read off the loop of TW_RUN. -/

namespace Sys2Proof.Machine

/-! ## What a stop and a refusal write (60_exceptions.md R264, R266, R267) -/

theorem stopTruncated_eq (s : State) :
    stopTruncated s =
      { s with twState := .truncated, err := s.err ||| 0x20, result := Result.ofCode .truncated } := rfl

theorem stopMalformed_eq (r : Result) (s : State) :
    stopMalformed r s = { s with twState := .malformed, err := s.err ||| 0x40, result := r } := rfl

theorem refuse_notRunning_eq (s : State) :
    refuse .notRunning s = { s with result := Result.ofCode .notRunning, err := s.err ||| 0x08 } :=
  refuse_eq .notRunning .notRunning rfl s

theorem exec_twRun_of_not_running (s : State) (hs : s.twState ≠ .running) :
    exec .twRun s = .next (refuse .notRunning s) :=
  if_neg hs

/-! ## The kinds of entries, and the child on an edge (10_state.md R34, R168) -/

theorem isLeaf_eq_true (e : TmEntry) (hl : e.lv = false) (hr : e.rv = false) : e.isLeaf = true := by
  simp [TmEntry.isLeaf, hl, hr]

theorem isLeaf_eq_false (e : TmEntry) (h : e.lv = true ∨ e.rv = true) : e.isLeaf = false := by
  rcases h with h | h <;> simp [TmEntry.isLeaf, h]

theorem child_false (e : TmEntry) : e.child false = if e.lv then some e.left else none := rfl

theorem child_true (e : TmEntry) : e.child true = if e.rv then some e.right else none := rfl

theorem descend_of_child_eq_some (e : TmEntry) (b : Bool) (i : NodeIndex) (s : State) (h : e.child b = some i) :
    descend e b s = { s with twCur := i, result := Result.ofBit .ok b } := by
  rw [descend, h]
  rfl

theorem descend_of_child_eq_none (e : TmEntry) (b : Bool) (s : State) (h : e.child b = none) :
    descend e b s = stopMalformed (Result.ofBit .malformed b) s := by
  rw [descend, h]

/-! ## TW_START and TW_STOP (R162, R170) -/

/-- Settles O23: TW_START is refused in RUNNING, and begins a session with or without a symbol owed outside it. -/
theorem twStartBeginsASession : Obligations.TwStartBeginsASession := by
  refine ⟨rfl, fun s => ⟨fun hs => ?_, fun hs h0 => ?_, fun hs h0 => ?_⟩⟩
  · rw [exec_of_running .twStart (.inr (.inr rfl)) s hs, refuse_busy_eq]
  · rw [exec_twStart_of_not_running s hs, startSession_nothing_owed s h0, h0]
    rfl
  · rw [exec_twStart_of_not_running s hs, startSession_owing s h0]
    rfl

/-- Settles O29: TW_STOP has one case, which is the stated update. -/
theorem twStopReturnsToIdle : Obligations.TwStopReturnsToIdle := ⟨rfl, fun _ => rfl⟩

/-! ## One micro-step (R165 to R168) -/

/-- Settles O25: a fetch without an entry stops the walker where it stands. -/
theorem fetchOfNoEntryIsMalformed : Obligations.FetchOfNoEntryIsMalformed := by
  intro s hs hnone
  rw [exec_twStep_of_running s hs, walkStep_fetch_none s (fetchNode_none s hnone), stopMalformed_eq]

/-- Settles O26: the micro-step is the leaf's emission, and the last one if TW_REM is 1. -/
theorem leafIsEmitted : Obligations.LeafIsEmitted := by
  intro s e hs hcur he hlv hrv _
  rw [exec_twStep_of_running s hs, walkStep_leaf s e (fetchNode_some s e hcur he) (isLeaf_eq_true e hlv hrv)]
  refine ⟨fun h1 => ?_, fun h1 => ?_⟩
  · have h0 : s.twRem - 1 = 0 := by rw [h1]; rfl
    rw [emitLeaf_last e s h0, h0]
    rfl
  · have h0 : s.twRem - 1 ≠ 0 := by bv_omega
    rw [emitLeaf_not_last e s h0]
    rfl

/-- Settles O27: a node with a child needs a bit, and without one the walker stops before it looks at the child. -/
theorem endOfStreamInAWalkIsTruncated : Obligations.EndOfStreamInAWalkIsTruncated := by
  intro s e hs hcur he hchild hn
  rw [exec_twStep_of_running s hs, walkStep_noBit s e (fetchNode_some s e hcur he) (isLeaf_eq_false e hchild) hn,
    stopTruncated_eq]

/-- TW_STEP on an entry with a child and a bit to take is the descent on that bit. -/
theorem exec_twStep_descends (s t : State) (e : TmEntry) (b : Bool) (hs : s.twState = .running)
    (he : fetchNode s = some e) (hchild : e.lv = true ∨ e.rv = true) (hb : s.takesBit b t) :
    exec .twStep s = .next (descend e b t) := by
  rw [exec_twStep_of_running s hs, walkStep_takesBit s t e b he (isLeaf_eq_false e hchild) hb]

/-- Settles O28: the descent goes by the child on the edge of the bit, left on 0 and right on 1, present or absent. -/
theorem descentFollowsTheWantedChild : Obligations.DescentFollowsTheWantedChild := by
  intro s t e b hs hcur hread hb
  have he : fetchNode s = some e := fetchNode_some s e hcur hread
  refine ⟨?_, ?_, fun habsent => ?_⟩
  · rintro rfl hlv
    rw [exec_twStep_descends s t e false hs he (.inl hlv) hb,
      descend_of_child_eq_some e false e.left t (by simp [child_false, hlv])]
  · rintro rfl hrv
    rw [exec_twStep_descends s t e true hs he (.inr hrv) hb,
      descend_of_child_eq_some e true e.right t (by simp [child_true, hrv])]
  · obtain ⟨hnone, hchild⟩ : e.child b = none ∧ (e.lv = true ∨ e.rv = true) := by
      rcases habsent with ⟨rfl, hlv, hrv⟩ | ⟨rfl, hrv, hlv⟩
      · exact ⟨by simp [child_false, hlv], .inr hrv⟩
      · exact ⟨by simp [child_true, hrv], .inl hlv⟩
    have herr : t.err = s.err := by
      obtain ⟨_, _, _, rfl⟩ := takesBit_frame s t b hb
      rfl
    rw [exec_twStep_descends s t e b hs he hchild hb, descend_of_child_eq_none e b t hnone, stopMalformed_eq, herr]

/-! ## TW_RUN as a number of TW_STEPs (R169) -/

/-- The first `n` micro-steps from `s` are each made in RUNNING. -/
def RunsFor (n : Nat) (s : State) : Prop := ∀ k < n, (walkStep^[k] s).twState = .running

theorem RunsFor.mono {m n : Nat} {s : State} (h : RunsFor n s) (hmn : m ≤ n) : RunsFor m s :=
  fun k hk => h k (by omega)

theorem RunsFor.cons {n : Nat} {s : State} (hs : s.twState = .running) (h : RunsFor n (walkStep s)) :
    RunsFor (n + 1) s
  | 0, _ => hs
  | k + 1, hk => h k (by omega)

/-- Micro-steps made in RUNNING are TW_STEPs (R163). -/
theorem RunsFor.execAll_twStep {n : Nat} {s : State} (h : RunsFor n s) :
    execAll (List.replicate n .twStep) s = .next (walkStep^[n] s) := by
  induction n with
  | zero => rfl
  | succ n ih =>
    rw [List.replicate_succ', execAll_append _ _ _ _ (ih (h.mono n.le_succ)),
      execAll_cons _ _ _ _ (exec_twStep_of_running _ (h n n.lt_succ_self)), Function.iterate_succ_apply']
    rfl

/-- Micro-steps made in RUNNING are micro-steps of the loop of TW_RUN. -/
theorem RunsFor.walks {n : Nat} {s : State} (h : RunsFor n s) : Walks s (walkStep^[n] s) := by
  induction n with
  | zero => exact .refl
  | succ n ih =>
    exact (ih (h.mono n.le_succ)).tail ⟨h n n.lt_succ_self, Function.iterate_succ_apply' walkStep n s⟩

/-- The loop of TW_RUN makes its micro-steps in RUNNING, no more of them than it is given, and ends outside RUNNING. -/
theorem exists_runsFor_of_walkRun (n : Nat) (s t : State) (h : walkRun n s = some t) :
    ∃ m ≤ n, RunsFor m s ∧ walkStep^[m] s = t ∧ t.twState ≠ .running := by
  refine walkRun_induction (P := fun n s => ∃ m ≤ n, RunsFor m s ∧ walkStep^[m] s = t ∧ t.twState ≠ .running)
    (fun ht n => ⟨0, n.zero_le, nofun, rfl, ht⟩) (fun n s hs ih => ?_) n s h
  obtain ⟨m, hm, hruns, hend, ht⟩ := ih
  exact ⟨m + 1, Nat.succ_le_succ hm, hruns.cons hs, hend, ht⟩

/-- A micro-step never leads from RUNNING to IDLE. -/
theorem walkStep_ne_idle (s : State) (hs : s.twState = .running) : (walkStep s).twState ≠ .idle := by
  rcases walkStep_cases s with
    ⟨-, hw⟩ | ⟨e, -, -, hw⟩ | ⟨e, -, -, -, hw⟩ | ⟨e, b, t, i, -, -, hb, -, hw⟩ | ⟨e, b, t, -, -, -, -, hw⟩ <;>
    rw [hw]
  · exact nofun
  · obtain ⟨r, hemit⟩ := emitLeaf_frame e s hs
    rw [hemit]
    dsimp only
    split <;> exact nofun
  · exact nofun
  · exact fun hidle => nomatch hs.symm.trans ((takesBit_twState s t b hb).symm.trans hidle)
  · exact nofun

/-- R169, R171: from RUNNING there is a number of micro-steps within the bound that are each made in RUNNING and end the
session, and TW_RUN makes just these. -/
theorem exists_runsFor_decodeOver (s : State) (hs : s.twState = .running) :
    ∃ n ≤ walkBound s, RunsFor n s ∧ (walkStep^[n] s).decodeOver ∧
      exec .twRun s =
        .next (respond (Result.ofCode (walkStep^[n] s).twState.runCode) (walkStep^[n] s)) := by
  obtain ⟨t, ht⟩ := walkRun_ends_of_walkBound_le (walkBound s) s le_rfl
  obtain ⟨n, hn, hruns, rfl, hend⟩ := exists_runsFor_of_walkRun (walkBound s) s t ht
  refine ⟨n, hn, hruns, ?_, exec_twRun_of_walkRun s _ hs ht⟩
  cases n with
  | zero => exact absurd hs hend
  | succ n =>
    have hidle : (walkStep^[n + 1] s).twState ≠ .idle := by
      rw [Function.iterate_succ_apply']
      exact walkStep_ne_idle _ (hruns n n.lt_succ_self)
    unfold State.decodeOver
    cases hx : (walkStep^[n + 1] s).twState with
    | idle => exact absurd hx hidle
    | running => exact absurd hx hend
    | done => exact .inl rfl
    | truncated => exact .inr (.inl rfl)
    | malformed => exact .inr (.inr rfl)

/-- The states between the TW_STEPs of a walk, in the form in which the statements speak of them. -/
theorem RunsFor.running_between {n : Nat} {s : State} (h : RunsFor n s) (k : Nat) (hk : k < n) :
    ∃ v, execAll (List.replicate k .twStep) s = .next v ∧ v.twState = .running :=
  ⟨_, (h.mono hk.le).execAll_twStep, h k hk⟩

/-- Settles O31: TW_RUN makes the micro-steps of `exists_runsFor_decodeOver`, and responds with the number of the state
they end in. -/
theorem twRunIsTheLoopOfMicroSteps : Obligations.TwRunIsTheLoopOfMicroSteps := by
  refine ⟨rfl, fun s => ⟨fun hs => ?_, fun hs => ?_⟩⟩
  · rw [exec_twRun_of_not_running s hs, refuse_notRunning_eq]
  · obtain ⟨n, -, hruns, hover, hrun⟩ := exists_runsFor_decodeOver s hs
    refine ⟨n, _, hruns.running_between, hruns.execAll_twStep, ?_⟩
    rcases hover with hx | hx | hx <;> rw [hx] at hrun
    · exact .inl ⟨hx, hrun⟩
    · exact .inr (.inl ⟨hx, hrun⟩)
    · exact .inr (.inr ⟨hx, hrun⟩)

/-! ## Every micro-step makes progress (R171) -/

/-- A micro-step stops the walker, or emits one symbol owed, or takes one pending bit. -/
theorem walkStep_progress (s : State) (hs : s.twState = .running) :
    ((walkStep s).twState = .truncated ∨ (walkStep s).twState = .malformed) ∨
    (∃ x, (walkStep s).symOut = s.symOut ++ [x] ∧ (walkStep s).twRem = s.twRem - 1 ∧
      pendingBits (walkStep s) = pendingBits s) ∨
    (∃ b, pendingBits s = b :: pendingBits (walkStep s) ∧ (walkStep s).symOut = s.symOut ∧
      (walkStep s).twRem = s.twRem) := by
  rcases walkStep_cases s with
    ⟨-, hw⟩ | ⟨e, -, -, hw⟩ | ⟨e, -, -, -, hw⟩ | ⟨e, b, t, i, -, -, hb, -, hw⟩ | ⟨e, b, t, -, -, -, -, hw⟩ <;>
    rw [hw]
  · exact .inl (.inr rfl)
  · obtain ⟨r, hemit⟩ := emitLeaf_frame e s hs
    rw [hemit]
    exact .inr (.inl ⟨e.sym, rfl, rfl, rfl⟩)
  · exact .inl (.inl rfl)
  · have hbits := pendingBits_of_takesBit s t b hb
    obtain ⟨buf, cnt, src, rfl⟩ := takesBit_frame s t b hb
    exact .inr (.inr ⟨b, hbits, rfl, rfl⟩)
  · exact .inl (.inr rfl)

/-- The bound of TW_RUN's loop is within the bound of R171 when TW_REM is within TW_TOTAL and not 0 (R33 a). -/
theorem walkBound_le (s : State) (hpos : 0 < s.twRem) (hle : s.twRem ≤ s.twTotal) :
    walkBound s ≤ s.twTotal.toNat + 8 * s.byteIn.length + s.upCnt.val + 1 := by
  have h0 : s.twRem ≠ 0 := by bv_omega
  have hnat : s.twRem.toNat ≤ s.twTotal.toNat := hle
  rw [walkBound, owed, if_neg h0]
  omega

/-- Settles O30: the progress of one micro-step, and the number of micro-steps of `exists_runsFor_decodeOver`. -/
theorem walkTerminatesWithinTheBound : Obligations.WalkTerminatesWithinTheBound := by
  refine ⟨fun s t hs _ ht => ?_, fun s hs hpos hle => ?_⟩
  · rw [exec_twStep_of_running s hs] at ht
    cases ht
    exact walkStep_progress s hs
  · obtain ⟨n, hn, hruns, hover, hrun⟩ := exists_runsFor_decodeOver s hs
    refine ⟨n, _, _, hn.trans (walkBound_le s hpos hle), hruns.running_between, hruns.execAll_twStep, ?_, hrun⟩
    rcases hover with hx | hx | hx <;> simp [hx]

/-! ## A stream cut inside a code (R167, R266) -/

/-- A proper beginning of a code leads to an inner node. -/
theorem subtree_of_properPrefix (path cut : List Bool) (tree : HuffTree) (k f : Nat) (x : Symbol)
    (hpath : tree.subtree path = some (.leaf k x f)) (hcut : cut <+: path) (hne : cut ≠ path) :
    ∃ k f l r, tree.subtree cut = some (.node k f l r) := by
  induction path generalizing tree cut with
  | nil => exact absurd (List.prefix_nil.mp hcut) hne
  | cons b path ih =>
    cases tree with
    | leaf => cases hpath
    | node k f l r =>
      cases cut with
      | nil => exact ⟨k, f, l, r, rfl⟩
      | cons b' cut =>
        obtain ⟨rfl, hcut'⟩ := List.cons_prefix_cons.mp hcut
        exact ih cut _ hpath hcut' (fun h => hne (congrArg _ h))

theorem noBit_of_pendingBits_eq_nil (s : State) (h : pendingBits s = []) : s.noBit := by
  rcases noBit_or_takesBit s with hn | ⟨b, t, hb⟩
  · exact hn
  · rw [pendingBits_of_takesBit s t b hb] at h
    cases h

/-- A micro-step on an inner node with no bit pending stops the walker. -/
theorem walkStep_starved (s : State) (k f : Nat) (l r : HuffTree) (htree : holdsTree s.tm s.twCur (.node k f l r))
    (hbits : pendingBits s = []) : walkStep s = stopTruncated { s with upEos := true } := by
  obtain ⟨e, he, hleaf, -⟩ := fetchNode_of_holdsTree_node s k f l r htree
  exact walkStep_noBit s e he hleaf (noBit_of_pendingBits_eq_nil s hbits)

/-- Settles O33: the walk decodes the whole codes, goes down the beginning of the next one to an inner node, and stops
there for want of a bit. -/
theorem twRunTruncatedKeepsWhatWasDecoded : Obligations.TwRunTruncatedKeepsWhatWasDecoded := by
  intro s tree coded c cut hrun hcur htree hcoded hc hcut hne howed hbits
  have hrem : s.twRem ≠ 0 := fun h0 => by simp [h0] at howed
  have hroot : AtRoot tree s := ⟨hcur, htree, by rw [if_neg hrem, hrun]⟩
  obtain ⟨u, ⟨hucur, hutree, hustate⟩, hsu, hubits⟩ := walks_codes tree coded hcoded s hroot howed.le cut hbits
  have hurem : u.twRem ≠ 0 := fun h0 => by have hpaid := hsu.rem; simp [h0] at hpaid; omega
  rw [if_neg hurem] at hustate
  obtain ⟨k, f, hleaf⟩ := subtree_of_mem_deriveCodes tree c hc
  obtain ⟨k, f, l, r, hnode⟩ := subtree_of_properPrefix c.2 cut tree k f c.1 hleaf hcut hne
  obtain ⟨v, huv, hvrun, hvtree, hvbits⟩ :=
    walks_down cut tree _ hnode u hustate (hucur ▸ hutree) [] (hubits.trans (List.append_nil cut).symm)
  have hsv : Decodes s coded v := List.append_nil coded ▸ hsu.trans huv
  have hstop : MicroStep v (stopTruncated { v with upEos := true }) :=
    ⟨hvrun, (walkStep_starved v k f l r hvtree hvbits).symm⟩
  have hvrem : v.twRem.toNat = s.twRem.toNat - coded.length := by have hpaid := hsv.rem; omega
  exact ⟨_, exec_twRun_of_walks hrun (hsv.walk.tail hstop) nofun, hsv.symOut, rfl, hvrem, rfl,
    congrArg (· ||| 0x20) hsv.err⟩

/-! ## A root that is a leaf (R172) -/

/-- A walk on a root that is the leaf `e`, with a symbol owed. -/
structure OnLeafRoot (e : TmEntry) (s : State) : Prop where
  running : s.twState = .running
  owing : s.twRem ≠ 0
  cur : s.twCur = s.twRoot
  fetch : fetchNode s = some e
  leaf : e.isLeaf = true

theorem OnLeafRoot.walkStep_eq {e : TmEntry} {s : State} (h : OnLeafRoot e s) :
    ∃ r, walkStep s = { s with
      symOut := s.symOut ++ [e.sym], twRem := s.twRem - 1, result := r
      twState := if s.twRem - 1 = 0 then .done else .running } := by
  obtain ⟨r, hemit⟩ := emitLeaf_frame e s h.running
  rw [walkStep_leaf s e h.fetch h.leaf, hemit, ← h.cur]
  exact ⟨r, rfl⟩

/-- On a leaf at the root each micro-step emits the leaf's symbol, reads no bit and stays on the root, until all symbols
owed are emitted. -/
theorem OnLeafRoot.iterate {e : TmEntry} {s : State} (h : OnLeafRoot e s) (k : Nat) (hk : k ≤ s.twRem.toNat) :
    ∃ r, walkStep^[k] s = { s with
      symOut := s.symOut ++ List.replicate k e.sym, twRem := s.twRem - BitVec.ofNat 39 k, result := r
      twState := if s.twRem - BitVec.ofNat 39 k = 0 then .done else .running } := by
  induction k with
  | zero =>
    refine ⟨s.result, ?_⟩
    rw [List.replicate_zero, List.append_nil, BitVec.sub_zero, if_neg h.owing, ← h.running]
    rfl
  | succ k ih =>
    obtain ⟨r, hr⟩ := ih (by omega)
    have howing : s.twRem - BitVec.ofNat 39 k ≠ 0 := by bv_omega
    have hon : OnLeafRoot e (walkStep^[k] s) := by
      rw [hr]
      exact ⟨if_neg howing, howing, h.cur, h.fetch, h.leaf⟩
    obtain ⟨r', hstep⟩ := hon.walkStep_eq
    have hrem : s.twRem - BitVec.ofNat 39 k - 1 = s.twRem - BitVec.ofNat 39 (k + 1) := by bv_omega
    refine ⟨r', ?_⟩
    rw [Function.iterate_succ_apply', hstep, hr]
    simp only [hrem, List.append_assoc, ← List.replicate_succ']

/-- Short of the last symbol owed the walker stays RUNNING. -/
theorem OnLeafRoot.iterate_of_lt {e : TmEntry} {s : State} (h : OnLeafRoot e s) (k : Nat) (hk : k < s.twRem.toNat) :
    ∃ r, walkStep^[k] s = { s with
      symOut := s.symOut ++ List.replicate k e.sym, twRem := s.twRem - BitVec.ofNat 39 k, result := r } := by
  have howing : s.twRem - BitVec.ofNat 39 k ≠ 0 := by bv_omega
  obtain ⟨r, hr⟩ := h.iterate k hk.le
  rw [if_neg howing, ← h.running] at hr
  exact ⟨r, hr⟩

theorem OnLeafRoot.runsFor {e : TmEntry} {s : State} (h : OnLeafRoot e s) : RunsFor s.twRem.toNat s := by
  intro k hk
  obtain ⟨r, hr⟩ := h.iterate_of_lt k hk
  rw [hr, h.running]

/-- Fewer TW_STEPs than symbols are owed emit one symbol each. -/
theorem OnLeafRoot.execAll_twStep {e : TmEntry} {s : State} (h : OnLeafRoot e s) (k : Nat) (hk : k < s.twRem.toNat) :
    ∃ r, execAll (List.replicate k .twStep) s = .next { s with
      symOut := s.symOut ++ List.replicate k e.sym, twRem := s.twRem - BitVec.ofNat 39 k, result := r } := by
  obtain ⟨r, hr⟩ := h.iterate_of_lt k hk
  exact ⟨r, hr ▸ (h.runsFor.mono hk.le).execAll_twStep⟩

/-- TW_RUN emits all symbols owed. -/
theorem OnLeafRoot.exec_twRun {e : TmEntry} {s : State} (h : OnLeafRoot e s) :
    exec .twRun s = .next { s with
      symOut := s.symOut ++ List.replicate s.twRem.toNat e.sym, twRem := 0, twState := .done
      result := Result.ofCode .done } := by
  obtain ⟨r, hr⟩ := h.iterate s.twRem.toNat le_rfl
  rw [BitVec.ofNat_toNat, BitVec.setWidth_eq, BitVec.sub_self] at hr
  have hwalk := h.runsFor.walks
  rw [hr] at hwalk
  exact exec_twRun_of_walks h.running hwalk nofun

/-- Settles O34: TW_START puts the walk on the root, which is a leaf. -/
theorem singleLeafTreeReadsNoBit : Obligations.SingleLeafTreeReadsNoBit := by
  intro s e hs htotal hroot he hlv hrv
  have hstart := (exec_twStart_of_not_running s hs).trans (congrArg _ (startSession_owing s htotal))
  have hleaf : OnLeafRoot e (completeOk { s with twCur := s.twRoot, twRem := s.twTotal, twState := .running }) :=
    ⟨rfl, htotal, rfl, fetchNode_some _ e hroot he, isLeaf_eq_true e hlv hrv⟩
  refine ⟨fun k hk => ?_, ?_⟩
  · rw [execAll_cons _ _ _ _ hstart]
    exact hleaf.execAll_twStep k hk
  · rw [execAll_cons _ _ _ _ hstart, execAll_cons _ _ _ _ hleaf.exec_twRun]
    rfl

end Sys2Proof.Machine
end

section
/-! # Proofs: NOP, RESET and the tree lock (O8, O12, O44) -/

namespace Sys2Proof.Machine

/-! ## NOP and RESET (43_system.md R205, R206) -/

/-- Settles O12: NOP completes with OK, and its word is a constant of the encoder. -/
theorem nopOverwritesResultOnly : Obligations.NopOverwritesResultOnly := ⟨rfl, fun _ => rfl⟩

/-- RESET keeps of a state only the streams and the host's side of the port. -/
theorem exec_reset (s : State) :
    exec .reset s = .next { State.reset with
      byteIn := s.byteIn, byteOut := s.byteOut, symOut := s.symOut, rdata := s.rdata, port := s.port } := rfl

/-- Settles O8: the state after RESET is the reset state but for the streams and the host's side, and an empty tree
memory lists no entry. -/
theorem resetCommandRestoresResetValues : Obligations.ResetCommandRestoresResetValues :=
  ⟨rfl, fun s => ⟨_, exec_reset s, rfl, rfl, rfl, rfl, rfl, rfl, rfl, rfl, rfl, rfl, rfl, fun _ => rfl, rfl, rfl, rfl,
    rfl, rfl, rfl, rfl⟩⟩

/-! ## A written word read back, as a mask of it (10_state.md R45, R46, 30_encoding.md R93) -/

/-- The low bits of a word with zeros above are the word under a mask of ones. -/
theorem zero_append_lowBits_eq_and (k n : Nat) (d : BitVec (k + n)) :
    0#k ++ d.extractLsb' 0 n = d &&& (0#k ++ BitVec.allOnes n) := by
  have hd : d.extractLsb' n k ++ d.extractLsb' 0 n = d := by
    rw [BitVec.extractLsb'_append_extractLsb'_eq_extractLsb' (Nat.zero_add n).symm, BitVec.extractLsb'_eq_self]
  calc 0#k ++ d.extractLsb' 0 n
      = (d.extractLsb' n k ++ d.extractLsb' 0 n) &&& (0#k ++ BitVec.allOnes n) := by
        rw [BitVec.and_append, BitVec.and_zero, BitVec.and_allOnes]
    _ = d &&& (0#k ++ BitVec.allOnes n) := by rw [hd]

/-- A new TW_ROOT as it reads (R45). -/
theorem zero_append_rootOfWord (d : Word) : 0#24 ++ rootOfWord d = 0 ||| (d &&& 0x000000FF) :=
  (zero_append_lowBits_eq_and 24 8 d).trans BitVec.zero_or.symm

/-- A new low half of TW_TOTAL as it reads (R46). -/
theorem totalLo_withTotalLo (n : Total) (d : Word) : totalLo (withTotalLo n d) = 0 ||| (d &&& 0xFFFFFFFF) := by
  rw [totalLo, (withTotalLo_fields n d).1]
  exact BitVec.and_allOnes.symm.trans BitVec.zero_or.symm

/-- A new high half of TW_TOTAL as it reads (R46). -/
theorem totalHi_withTotalHi (n : Total) (d : Word) : totalHi (withTotalHi n d) = 0 ||| (d &&& 0x0000007F) := by
  rw [totalHi, (withTotalHi_fields n d).1]
  exact (zero_append_lowBits_eq_and 25 7 d).trans BitVec.zero_or.symm

theorem ofBool_getLsbD_eq_extractLsb' {k : Nat} (w : BitVec k) (n : Nat) :
    BitVec.ofBool (w.getLsbD n) = w.extractLsb' n 1 := by
  refine BitVec.eq_of_getLsbD_eq (fun i hi => ?_)
  obtain rfl : i = 0 := by omega
  simp

/-- Masked with 0x03FFFF7F a TMENT word keeps its five fields; 0x80000000 is its bit WRITTEN. -/
theorem tmentWord_masked (top : BitVec 6) (rv lv : BitVec 1) (right left : NodeIndex) (gap : BitVec 1)
    (sym : Symbol) :
    (0x20#6 ++ 0#1 ++ 0#1 ++ 0#8 ++ 0#8 ++ 0#1 ++ 0#7) |||
        ((top ++ rv ++ lv ++ right ++ left ++ gap ++ sym) &&&
          (0#6 ++ 1#1 ++ 1#1 ++ 0xFF#8 ++ 0xFF#8 ++ 0#1 ++ 0x7F#7)) =
      1#1 ++ 0#5 ++ rv ++ lv ++ right ++ left ++ 0#1 ++ sym := by
  have hflag (v : BitVec 1) : v &&& 1#1 = v := BitVec.and_allOnes
  have hindex (v : NodeIndex) : v &&& 0xFF#8 = v := BitVec.and_allOnes
  have hsym : sym &&& 0x7F#7 = sym := BitVec.and_allOnes
  simp only [BitVec.and_append, BitVec.or_append, hflag, hindex, hsym, BitVec.and_zero, BitVec.zero_or, BitVec.or_zero]
  rfl

/-- A new tree-memory entry as it reads (R51, R93). -/
theorem wordOfTmEntry_tmEntryOfWord (d : Word) :
    wordOfTmEntry (tmEntryOfWord d) = 0x80000000 ||| (d &&& 0x03FFFF7F) := by
  have hd : d.extractLsb' 26 6 ++ d.extractLsb' 25 1 ++ d.extractLsb' 24 1 ++ d.extractLsb' 16 8 ++
      d.extractLsb' 8 8 ++ d.extractLsb' 7 1 ++ d.extractLsb' 0 7 = d := by
    simp only [BitVec.extractLsb'_append_extractLsb'_eq_extractLsb', BitVec.extractLsb'_eq_self]
  rw [wordOfTmEntry, tmEntryOfWord, ofBool_getLsbD_eq_extractLsb', ofBool_getLsbD_eq_extractLsb',
    ← tmentWord_masked (d.extractLsb' 26 6) _ _ _ _ (d.extractLsb' 7 1), hd]
  rfl

/-! ## The tree lock (43_system.md R204) -/

theorem TreeWrite.err {s t : State} (h : TreeWrite s t) : t.err = s.err := by
  cases h <;> rfl

/-- Of the registers only ERR shows a flag. -/
theorem readReg_flag (c : Cause) (s : State) (r : HostReg) (hr : r ≠ .err) : readReg (flag c s) r = readReg s r := by
  cases r with
  | err => exact absurd rfl hr
  | _ => rfl

theorem readEffect_of_mapped (s : State) (r : HostReg) (hr : r ≠ .unmapped) : readEffect s r = s := by
  cases r with
  | unmapped => exact absurd rfl hr
  | _ => rfl

/-- Index `a` names the register `r` of the tree, and the write of `d` to it, which makes `u` of `s`, is behind the tree
lock and reads back as `w`. -/
structure LockedAccess (a : PortIndex) (d w : Word) (s u : State) (r : HostReg) : Prop where
  reg : regAt a = r
  mapped : r ≠ .unmapped
  notErr : r ≠ .err
  write : exec (.hwrite a d) s = .next (lockedWrite s u)
  tree : TreeWrite s u
  reads : readReg u r = w

/-- The locked registers, each with the mask of its fields. -/
theorem exists_lockedAccess (a : PortIndex) (d mask ones : Word) (s : State)
    (ha : (a = 0x004 ∧ mask = 0x000000FF ∧ ones = 0) ∨ (a = 0x005 ∧ mask = 0xFFFFFFFF ∧ ones = 0) ∨
      (a = 0x006 ∧ mask = 0x0000007F ∧ ones = 0) ∨
      (0x100 ≤ a ∧ a ≤ 0x1FE ∧ mask = 0x03FFFF7F ∧ ones = 0x80000000)) :
    ∃ u r, LockedAccess a d (ones ||| (d &&& mask)) s u r := by
  rcases ha with ⟨rfl, rfl, rfl⟩ | ⟨rfl, rfl, rfl⟩ | ⟨rfl, rfl, rfl⟩ | ⟨hlo, hhi, rfl, rfl⟩
  · exact ⟨_, .twRoot, rfl, nofun, nofun, rfl, .root _, zero_append_rootOfWord d⟩
  · exact ⟨_, .twTotalLo, rfl, nofun, nofun, rfl, .total _, totalLo_withTotalLo s.twTotal d⟩
  · exact ⟨_, .twTotalHi, rfl, nofun, nofun, rfl, .total _, totalHi_withTotalHi s.twTotal d⟩
  · obtain ⟨hi, hreg⟩ := regAt_window a hlo hhi
    refine ⟨_, .tm ⟨_, hi⟩, hreg, nofun, nofun, ?_, .entry ⟨_, hi⟩ (tmEntryOfWord d), ?_⟩
    · rw [exec, execHwrite, hreg]
    · rw [readReg, Memory.read_write_same]
      exact wordOfTmEntry_tmEntryOfWord d

section
variable {a : PortIndex} {d w : Word} {s u : State} {r : HostReg}

/-- A read of a locked register only writes RDATA. -/
theorem LockedAccess.exec_hread (h : LockedAccess a d w s u r) (t : State) :
    exec (.hread a) t = .next { t with rdata := readReg t r } := by
  rw [exec_hread_of_regAt a r t h.reg, readEffect_of_mapped t r h.mapped]

theorem LockedAccess.exec_hwrite_of_not_running (h : LockedAccess a d w s u r) (hs : s.twState ≠ .running) :
    exec (.hwrite a d) s = .next u :=
  h.write.trans (congrArg _ (lockedWrite_not_running s u hs))

theorem LockedAccess.exec_hwrite_of_running (h : LockedAccess a d w s u r) (hs : s.twState = .running) :
    exec (.hwrite a d) s = .next (flag .busy s) :=
  h.write.trans (congrArg _ (lockedWrite_running s u hs))

end

/-- Settles O44: a write outside RUNNING reads back and leaves ERR and RESULT, and in RUNNING it is the flag BUSY, which
no locked register shows. -/
theorem lockedRegistersTakeWritesOnlyOutsideRunning : Obligations.LockedRegistersTakeWritesOnlyOutsideRunning := by
  intro a d mask ones s ha
  obtain ⟨u, r, h⟩ := exists_lockedAccess a d mask ones s ha
  refine ⟨fun hs => ?_, fun hs => ?_⟩
  · exact ⟨u, _, h.exec_hwrite_of_not_running hs, h.exec_hread u, h.reads, h.tree.err, h.tree.result⟩
  · exact ⟨_, _, _, h.exec_hwrite_of_running hs, h.exec_hread _, h.exec_hread s, rfl, readReg_flag .busy s r h.notErr⟩

end Sys2Proof.Machine
end

section
/-! # Proofs: the codes of a tree (O55) -/

namespace Sys2Proof.Machine

/-- The codes on both sides of a branch keep apart when those on each side do. -/
theorem pairwise_append_map_cons {α : Type} (xs ys : List (α × List Bool))
    (hxs : xs.Pairwise (fun c d => ¬(c.2 <+: d.2) ∧ ¬(d.2 <+: c.2)))
    (hys : ys.Pairwise (fun c d => ¬(c.2 <+: d.2) ∧ ¬(d.2 <+: c.2))) :
    (xs.map (fun c => (c.1, false :: c.2)) ++ ys.map (fun c => (c.1, true :: c.2))).Pairwise
      (fun c d => ¬(c.2 <+: d.2) ∧ ¬(d.2 <+: c.2)) := by
  refine List.pairwise_append.mpr ⟨?_, ?_, ?_⟩
  · simpa [List.pairwise_map, List.cons_prefix_cons] using hxs
  · simpa [List.pairwise_map, List.cons_prefix_cons] using hys
  · intro c hc d hd
    obtain ⟨c', -, rfl⟩ := List.mem_map.mp hc
    obtain ⟨d', -, rfl⟩ := List.mem_map.mp hd
    simp [List.cons_prefix_cons]

/-- Settles O55: at a node the codes of the left subtree begin with 0 and those of the right one with 1. -/
theorem codesArePrefixFree : Obligations.CodesArePrefixFree := by
  intro tree
  induction tree with
  | leaf k x f => exact List.pairwise_singleton _ _
  | node k f l r ihl ihr => exact pairwise_append_map_cons _ _ ihl ihr

/-- The symbols of a tree's leaves, in the order of its code table. -/
def HuffTree.symbols (tree : HuffTree) : List Symbol := (deriveCodes tree).map Prod.fst

@[simp] theorem symbols_leaf (k : Nat) (x : Symbol) (f : Nat) : (HuffTree.leaf k x f).symbols = [x] := rfl

@[simp] theorem symbols_node (k f : Nat) (l r : HuffTree) :
    (HuffTree.node k f l r).symbols = l.symbols ++ r.symbols := by
  simp only [HuffTree.symbols, deriveCodes, List.map_append, List.map_map]
  rfl

@[simp] theorem nodeIds_leaf (k : Nat) (x : Symbol) (f : Nat) : (HuffTree.leaf k x f).nodeIds = [k] := rfl

@[simp] theorem nodeIds_node (k f : Nat) (l r : HuffTree) :
    (HuffTree.node k f l r).nodeIds = k :: (l.nodeIds ++ r.nodeIds) := rfl

@[simp] theorem freq_leaf (k : Nat) (x : Symbol) (f : Nat) : (HuffTree.leaf k x f).freq = f := rfl

@[simp] theorem freq_node (k f : Nat) (l r : HuffTree) : (HuffTree.node k f l r).freq = f := rfl

/-- In a table that lists each symbol once the code of a symbol is the one it is listed with. -/
theorem codeOf_of_mem (codes : List (Symbol × List Bool)) (hnodup : (codes.map Prod.fst).Nodup)
    (c : Symbol × List Bool) (hc : c ∈ codes) : codeOf codes c.1 = c.2 := by
  obtain ⟨d, hd⟩ : ∃ d, codes.find? (fun d => d.1 == c.1) = some d :=
    Option.isSome_iff_exists.mp (List.find?_isSome.mpr ⟨c, hc, beq_self_eq_true _⟩)
  have hsame : d.1 = c.1 := by simpa using List.find?_some hd
  obtain rfl : d = c := List.inj_on_of_nodup_map hnodup (List.mem_of_find?_eq_some hd) hc hsame
  simp [codeOf, hd]

end Sys2Proof.Machine
end

section
/-! # Proofs: the tree builder (O54)

What the builder keeps from merge to merge is `Forest`, a fact about the queue as a multiset; the induction over the
merges is made once (`mergeNodes_preserves`). -/

namespace Sys2Proof.Machine

/-! ## The queue (45_host_contract.md R227) -/

theorem insertNode_perm (n : HuffTree) (q : List HuffTree) : (insertNode n q).Perm (n :: q) := by
  induction q with
  | nil => exact .refl _
  | cons x q ih =>
    rw [insertNode]
    split
    · exact .refl _
    · exact (ih.cons x).trans (.swap n x q)

@[simp] theorem insertNode_length (n : HuffTree) (q : List HuffTree) : (insertNode n q).length = q.length + 1 :=
  (insertNode_perm n q).length_eq

theorem foldl_insertNode_perm (ns q : List HuffTree) : (ns.foldl (fun q n => insertNode n q) q).Perm (ns ++ q) := by
  induction ns generalizing q with
  | nil => exact .refl _
  | cons n ns ih =>
    calc (ns.foldl (fun q n => insertNode n q) (insertNode n q)).Perm (ns ++ insertNode n q) := ih _
      List.Perm _ (ns ++ n :: q) := (insertNode_perm n q).append_left ns
      List.Perm _ (n :: ns ++ q) := List.perm_middle

theorem initialQueue_perm (t : FreqTable) : (initialQueue t).Perm (leavesOf t) :=
  (foldl_insertNode_perm (leavesOf t) []).trans (.of_eq (List.append_nil _))

/-! ## The merges (R229, R233) -/

/-- What neither a reordering of the queue nor a merge of its two first nodes ends holds after the merges. -/
theorem mergeNodes_preserves {P : Nat → List HuffTree → Prop}
    (hperm : ∀ k q q', q.Perm q' → P k q → P k q')
    (hmerge : ∀ k a b q, P k (a :: b :: q) → P (k + 1) (.node k (a.freq + b.freq) a b :: q))
    (fuel k : Nat) (q : List HuffTree) (h : P k q) : ∃ k', P k' (mergeNodes fuel k q) := by
  induction fuel, k, q using mergeNodes.induct with
  | case1 k q => exact ⟨k, h⟩
  | case2 fuel k => exact ⟨k, h⟩
  | case3 fuel k r => exact ⟨k, h⟩
  | case4 fuel k a b q ih => exact ih (hperm _ _ _ (insertNode_perm _ q).symm (hmerge k a b q h))

/-- The queue's length is fuel enough (R233). -/
theorem mergeNodes_length_le_one (fuel k : Nat) (q : List HuffTree) (h : q.length ≤ fuel + 1) :
    (mergeNodes fuel k q).length ≤ 1 := by
  induction fuel, k, q using mergeNodes.induct with
  | case1 k q => simpa [mergeNodes] using h
  | case2 fuel k => exact Nat.zero_le 1
  | case3 fuel k r => exact le_rfl
  | case4 fuel k a b q ih => exact ih (by simpa using h)

/-! ## What the builder keeps -/

/-- The symbols that occur, in ascending order (R228). -/
def occurring (t : FreqTable) : List Nat := (List.range 128).filter (fun s => 0 < t.getD s 0)

theorem lt_of_mem_occurring (t : FreqTable) (s : Nat) (h : s ∈ occurring t) : s < 128 :=
  List.mem_range.mp (List.mem_of_mem_filter h)

theorem occurring_length_le (t : FreqTable) : (occurring t).length ≤ 128 :=
  (List.length_filter_le _ _).trans (List.length_range ..).le

/-- Every leaf bears its symbol's frequency in the table, and every inner node the sum of its children's (R224). -/
def HuffTree.Weighs (t : FreqTable) : HuffTree → Prop
  | .leaf _ x f => f = t.getD x.toNat 0
  | .node _ f l r => f = l.freq + r.freq ∧ HuffTree.Weighs t l ∧ HuffTree.Weighs t r

/-- A queue on the way to the tree of `t`, with `k` the next creation index (R242). -/
structure Forest (t : FreqTable) (k : Nat) (q : List HuffTree) : Prop where
  symbols : (q.flatMap HuffTree.symbols).Perm ((occurring t).map (BitVec.ofNat 7))
  weighs : ∀ x ∈ q, x.Weighs t
  nodup : (q.flatMap HuffTree.nodeIds).Nodup
  fresh : ∀ i ∈ q.flatMap HuffTree.nodeIds, i < k
  count : k + q.length = 2 * (occurring t).length

theorem Forest.perm {t : FreqTable} {k : Nat} {q q' : List HuffTree} (hq : q.Perm q') (h : Forest t k q) :
    Forest t k q' where
  symbols := (hq.symm.flatMap_right _).trans h.symbols
  weighs x hx := h.weighs x (hq.mem_iff.mpr hx)
  nodup := (hq.flatMap_right _).nodup_iff.mp h.nodup
  fresh i hi := h.fresh i ((hq.flatMap_right _).mem_iff.mpr hi)
  count := hq.length_eq ▸ h.count

theorem Forest.merge {t : FreqTable} {k : Nat} {a b : HuffTree} {q : List HuffTree} (h : Forest t k (a :: b :: q)) :
    Forest t (k + 1) (.node k (a.freq + b.freq) a b :: q) := by
  have hids : (HuffTree.node k (a.freq + b.freq) a b :: q).flatMap HuffTree.nodeIds =
      k :: (a :: b :: q).flatMap HuffTree.nodeIds := by simp
  obtain ⟨hsymbols, hweighs, hnodup, hfresh, hcount⟩ := h
  simp only [List.forall_mem_cons] at hweighs
  obtain ⟨ha, hb, hq⟩ := hweighs
  refine ⟨?_, ?_, ?_, ?_, ?_⟩
  · simpa using hsymbols
  · exact List.forall_mem_cons.mpr ⟨⟨rfl, ha, hb⟩, hq⟩
  · rw [hids]
    exact List.nodup_cons.mpr ⟨fun hk => (hfresh k hk).false, hnodup⟩
  · rw [hids]
    exact List.forall_mem_cons.mpr ⟨k.lt_succ_self, fun i hi => (hfresh i hi).trans k.lt_succ_self⟩
  · simp at hcount ⊢
    omega

/-! ## The leaves (R228) -/

theorem leavesFrom_length (t : FreqTable) (k : Nat) (ss : List Nat) : (leavesFrom t k ss).length = ss.length := by
  induction ss generalizing k with
  | nil => rfl
  | cons s ss ih => simp [leavesFrom, ih]

theorem leavesFrom_symbols (t : FreqTable) (k : Nat) (ss : List Nat) :
    (leavesFrom t k ss).flatMap HuffTree.symbols = ss.map (BitVec.ofNat 7) := by
  induction ss generalizing k with
  | nil => rfl
  | cons s ss ih => simp [leavesFrom, ih]

theorem leavesFrom_nodeIds (t : FreqTable) (k : Nat) (ss : List Nat) :
    (leavesFrom t k ss).flatMap HuffTree.nodeIds = List.range' k ss.length := by
  induction ss generalizing k with
  | nil => rfl
  | cons s ss ih => simp [leavesFrom, ih, List.range'_succ]

theorem leavesFrom_weighs (t : FreqTable) (k : Nat) (ss : List Nat) (hss : ∀ s ∈ ss, s < 128) :
    ∀ x ∈ leavesFrom t k ss, x.Weighs t := by
  induction ss generalizing k with
  | nil => exact nofun
  | cons s ss ih =>
    obtain ⟨hs, hss⟩ := List.forall_mem_cons.mp hss
    refine List.forall_mem_cons.mpr ⟨?_, ih (k + 1) hss⟩
    rw [HuffTree.Weighs, BitVec.toNat_ofNat, Nat.mod_eq_of_lt hs]

theorem leavesOf_eq (t : FreqTable) : leavesOf t = leavesFrom t 0 (occurring t) := rfl

@[simp] theorem leavesOf_length (t : FreqTable) : (leavesOf t).length = (occurring t).length :=
  leavesFrom_length t 0 _

theorem leavesOf_forest (t : FreqTable) : Forest t (leavesOf t).length (leavesOf t) where
  symbols := .of_eq (leavesFrom_symbols t 0 _)
  weighs := leavesFrom_weighs t 0 _ (lt_of_mem_occurring t)
  nodup := by
    rw [leavesOf_eq, leavesFrom_nodeIds]
    exact List.nodup_range'
  fresh := by
    rw [leavesOf_eq, leavesFrom_nodeIds, leavesFrom_length]
    simp
  count := by
    rw [leavesOf_length]
    omega

/-! ## The tree (R229 to R231) -/

/-- The merges leave the tree alone in the queue, or nothing. -/
theorem buildTree_toList (t : FreqTable) :
    (buildTree t).toList = mergeNodes (leavesOf t).length (leavesOf t).length (initialQueue t) := by
  have hone := mergeNodes_length_le_one (leavesOf t).length (leavesOf t).length (initialQueue t)
    ((initialQueue_perm t).length_eq.le.trans (Nat.le_succ _))
  rw [buildTree, ← List.take_one, List.take_of_length_le hone]

theorem buildTree_forest (t : FreqTable) : ∃ k, Forest t k (buildTree t).toList := by
  rw [buildTree_toList]
  exact mergeNodes_preserves (P := Forest t) (fun _ _ _ => Forest.perm) (fun _ _ _ _ => Forest.merge) _ _ _
    ((leavesOf_forest t).perm (initialQueue_perm t).symm)

theorem buildTree_symbols (t : FreqTable) (tree : HuffTree) (h : buildTree t = some tree) :
    tree.symbols.Perm ((occurring t).map (BitVec.ofNat 7)) := by
  obtain ⟨k, hforest⟩ := buildTree_forest t
  simpa [h] using hforest.symbols

theorem buildTree_weighs (t : FreqTable) (tree : HuffTree) (h : buildTree t = some tree) : tree.Weighs t := by
  obtain ⟨k, hforest⟩ := buildTree_forest t
  exact hforest.weighs tree (by simp [h])

theorem buildTree_nodeIds (t : FreqTable) (tree : HuffTree) (h : buildTree t = some tree) :
    tree.nodeIds.Nodup ∧ ∀ k ∈ tree.nodeIds, k < 255 := by
  obtain ⟨k, hforest⟩ := buildTree_forest t
  obtain ⟨-, -, hnodup, hfresh, hcount⟩ := h ▸ hforest
  have hle := occurring_length_le t
  simp at hnodup hfresh hcount
  exact ⟨hnodup, fun i hi => by have := hfresh i hi; omega⟩

theorem buildTree_eq_none_iff (t : FreqTable) : buildTree t = none ↔ occurring t = [] := by
  obtain ⟨k, hforest⟩ := buildTree_forest t
  constructor
  · intro h
    have hperm := hforest.symbols
    rw [h] at hperm
    simpa using hperm.nil_eq.symm
  · intro h
    have hcount : k + (buildTree t).toList.length = 0 := by simpa [h] using hforest.count
    exact Option.toList_eq_nil_iff.mp (List.length_eq_zero_iff.mp (Nat.add_eq_zero_iff.mp hcount).2)

/-! ## The root's frequency -/

/-- A node's frequency is the sum over the leaves below it. -/
theorem freq_eq_sum_of_weighs (t : FreqTable) (tree : HuffTree) (h : tree.Weighs t) :
    tree.freq = (tree.symbols.map (fun x => t.getD x.toNat 0)).sum := by
  induction tree with
  | leaf k x f => exact h.trans (List.sum_singleton ..).symm
  | node k f l r ihl ihr =>
    obtain ⟨hf, hl, hr⟩ := h
    rw [symbols_node, List.map_append, List.sum_append, ← ihl hl, ← ihr hr]
    exact hf

theorem sum_map_filter_pos (f : Nat → Nat) (l : List Nat) :
    ((l.filter (fun s => 0 < f s)).map f).sum = (l.map f).sum := by
  induction l with
  | nil => rfl
  | cons s l ih =>
    by_cases hs : 0 < f s
    · simp [hs, ih]
    · have h0 : f s = 0 := by omega
      simp [h0, ih]

theorem map_getD_range (t : FreqTable) (ht : t.length = 128) : (List.range 128).map (fun s => t.getD s 0) = t :=
  List.ext_getElem (by simp [ht]) (fun k _ hk => by simp [hk])

theorem sum_map_occurring (t : FreqTable) (ht : t.length = 128) :
    ((occurring t).map (fun s => t.getD s 0)).sum = t.sum := by
  rw [occurring, sum_map_filter_pos (fun s => t.getD s 0), map_getD_range t ht]

/-- The frequencies of the symbols that occur make up the whole sum. -/
theorem sum_occurring (t : FreqTable) (ht : t.length = 128) :
    (((occurring t).map (BitVec.ofNat 7)).map (fun x : Symbol => t.getD x.toNat 0)).sum = t.sum := by
  have hback : ((occurring t).map (BitVec.ofNat 7)).map (fun x : Symbol => t.getD x.toNat 0) =
      (occurring t).map (fun s => t.getD s 0) := by
    rw [List.map_map]
    refine List.map_congr_left (fun s hs => ?_)
    rw [Function.comp_apply, BitVec.toNat_ofNat, Nat.mod_eq_of_lt (lt_of_mem_occurring t s hs)]
  rw [hback, sum_map_occurring t ht]

theorem buildTree_freq (t : FreqTable) (ht : t.length = 128) (tree : HuffTree) (h : buildTree t = some tree) :
    tree.freq = t.sum := by
  rw [freq_eq_sum_of_weighs t tree (buildTree_weighs t tree h),
    ((buildTree_symbols t tree h).map _).sum_eq, sum_occurring t ht]

theorem occurring_eq_nil_iff (t : FreqTable) (ht : t.length = 128) : occurring t = [] ↔ ∀ n ∈ t, n = 0 := by
  have hall : (∀ n ∈ t, n = 0) ↔ ∀ s < 128, t.getD s 0 = 0 := by
    conv_lhs => rw [← map_getD_range t ht]
    simp
  rw [hall, occurring, List.filter_eq_nil_iff]
  simp

/-- Settles O54: each part is read off the one tree that is left of the queue. -/
theorem builderMakesTheTreeOfTheTable : Obligations.BuilderMakesTheTreeOfTheTable := by
  refine fun t ht => ⟨(buildTree_eq_none_iff t).trans (occurring_eq_nil_iff t ht), fun tree h => ?_⟩
  exact ⟨buildTree_symbols t tree h, buildTree_freq t ht tree h, buildTree_nodeIds t tree h⟩

end Sys2Proof.Machine
end

section
/-! # Proofs: the encoder's file, and what its header gives back (O59) -/

namespace Sys2Proof.Machine

/-! ## Counting (45_host_contract.md R222, R223, R240) -/

/-- A sum over a list, gathered by the values that occur in it. -/
theorem sum_map_eq_sum_count_mul {α : Type} [DecidableEq α] (xs ys : List α) (f : α → Nat) (hys : ys.Nodup)
    (hsub : ∀ x ∈ xs, x ∈ ys) : (xs.map f).sum = (ys.map (fun y => xs.count y * f y)).sum := by
  have habsent : ∀ y ∈ ys.toFinset, y ∉ xs.toFinset → xs.count y • f y = 0 := fun y _ hy => by
    rw [List.count_eq_zero_of_not_mem (by simpa using hy), zero_smul]
  calc (xs.map f).sum
      = ∑ y ∈ xs.toFinset, xs.count y • f y := Finset.sum_list_map_count xs f
    _ = ∑ y ∈ ys.toFinset, xs.count y • f y :=
        Finset.sum_subset (fun x hx => by simpa using hsub x (by simpa using hx)) habsent
    _ = (ys.map (fun y => xs.count y * f y)).sum := List.sum_toFinset _ hys

/-- The 128 symbols in ascending order (00_scope.md R16). -/
def alphabet : List Symbol := (List.range 128).map (BitVec.ofNat 7)

theorem alphabet_nodup : alphabet.Nodup := by
  refine List.nodup_range.map_on (fun a ha b hb hab => ?_)
  rw [List.mem_range] at ha hb
  bv_omega

theorem mem_alphabet (x : Symbol) : x ∈ alphabet :=
  List.mem_map.mpr ⟨x.toNat, List.mem_range.mpr x.isLt, by simp⟩

theorem countSymbols_eq_map (xs : List Symbol) : countSymbols xs = alphabet.map (fun x => xs.count x) := by
  rw [alphabet, List.map_map]
  rfl

@[simp] theorem countSymbols_length (xs : List Symbol) : (countSymbols xs).length = 128 := by
  simp [countSymbols]

@[simp] theorem countSymbols_getD (xs : List Symbol) (x : Symbol) :
    (countSymbols xs).getD x.toNat 0 = xs.count x := by
  have hx : x.toNat < 128 := x.isLt
  simp [countSymbols, hx]

theorem countSymbols_lt (xs : List Symbol) (m : Nat) (h : ∀ x : Symbol, xs.count x < m) :
    ∀ n ∈ countSymbols xs, n < m := by
  intro n hn
  rw [countSymbols_eq_map] at hn
  obtain ⟨x, -, rfl⟩ := List.mem_map.mp hn
  exact h x

theorem totalSymbols_countSymbols (xs : List Symbol) : totalSymbols (countSymbols xs) = xs.length := by
  have hgather := sum_map_eq_sum_count_mul xs alphabet (fun _ => 1) alphabet_nodup (fun x _ => mem_alphabet x)
  rw [totalSymbols, countSymbols_eq_map]
  simpa using hgather.symm

/-! ## Sources (R223) -/

/-- Outside the alphabet is bit 7. -/
theorem getLsbD_seven (b : Byte) : b.getLsbD 7 = decide (128 ≤ b.toNat) := by
  rw [← BitVec.msb_eq_decide (x := b), BitVec.msb_eq_getLsbD_last]

theorem symbolByte_setWidth (b : Byte) (h : b.toNat < 128) : symbolByte (b.setWidth 7) = b := by
  rw [symbolByte]
  bv_omega

theorem symbolsOf_cons_supported (b : Byte) (bs : List Byte) (h : b.toNat < 128) :
    symbolsOf (b :: bs) = (symbolsOf bs).map (b.setWidth 7 :: ·) := by
  rw [symbolsOf, getLsbD_seven, decide_eq_false (by omega), if_neg Bool.false_ne_true]
  cases symbolsOf bs <;> rfl

theorem symbolsOf_cons_unsupported (b : Byte) (bs : List Byte) (h : 128 ≤ b.toNat) :
    symbolsOf (b :: bs) = .error .unsupportedSymbol := by
  rw [symbolsOf, getLsbD_seven, decide_eq_true h, if_pos rfl]

theorem symbolsOf_of_supported (bs : List Byte) (h : ∀ b ∈ bs, b.toNat < 128) : ∃ xs, symbolsOf bs = .ok xs := by
  induction bs with
  | nil => exact ⟨[], rfl⟩
  | cons b bs ih =>
    obtain ⟨hb, hbs⟩ := List.forall_mem_cons.mp h
    obtain ⟨xs, hxs⟩ := ih hbs
    exact ⟨b.setWidth 7 :: xs, by rw [symbolsOf_cons_supported b bs hb, hxs]; rfl⟩

theorem symbolsOf_of_unsupported (bs : List Byte) (h : ∃ b ∈ bs, 128 ≤ b.toNat) :
    symbolsOf bs = .error .unsupportedSymbol := by
  induction bs with
  | nil => simp at h
  | cons b bs ih =>
    by_cases hb : 128 ≤ b.toNat
    · exact symbolsOf_cons_unsupported b bs hb
    · rw [symbolsOf_cons_supported b bs (by omega), ih (by simpa [hb] using h)]
      rfl

/-- The bytes of the symbols are the source. -/
theorem map_symbolByte_of_symbolsOf (bs : List Byte) (xs : List Symbol) (h : symbolsOf bs = .ok xs) :
    xs.map symbolByte = bs := by
  induction bs generalizing xs with
  | nil =>
    cases h
    rfl
  | cons b bs ih =>
    by_cases hb : 128 ≤ b.toNat
    · rw [symbolsOf_cons_unsupported b bs hb] at h
      cases h
    · have hb : b.toNat < 128 := by omega
      rw [symbolsOf_cons_supported b bs hb] at h
      cases hbs : symbolsOf bs with
      | error e =>
        rw [hbs] at h
        cases h
      | ok ys =>
        rw [hbs] at h
        cases h
        rw [List.map_cons, symbolByte_setWidth b hb, ih ys hbs]

theorem length_of_symbolsOf (bs : List Byte) (xs : List Symbol) (h : symbolsOf bs = .ok xs) :
    xs.length = bs.length := by
  rw [← map_symbolByte_of_symbolsOf bs xs h, List.length_map]

/-! ## The encoder on HTD (R238, R239) -/

/-- The host issues an encoded instruction, which HTD executes. -/
theorem hostIssue_encode_cons (i : Instr) (ops : List HostOp) (s t : State) (h : exec i s = .next t) :
    hostIssue (encode i :: ops) s = hostIssue ops t :=
  hostIssue_cons _ ops s t ((issued_of_ok _ i (decodeOp_encode i)).symm ▸ h)

theorem hostIssue_of_execAll (is : List Instr) (s t : State) (h : execAll is s = .next t) :
    hostIssue (is.map encode) s = some t := by
  induction is generalizing s with
  | nil =>
    cases h
    rfl
  | cons i is ih =>
    obtain ⟨u, hu⟩ := everyOperationCompletes i s
    rw [execAll_cons i is s u hu] at h
    rw [List.map_cons, hostIssue_encode_cons i _ s u hu]
    exact ih u h

theorem packSession_eq_map (bits : List Bool) :
    packSession bits = (Instr.pkOpen :: (bits.map Instr.pkWbit ++ [.pkClose])).map encode := by
  simp [packSession, wcodeOps]

/-- A pack session appends the packed bits to BYTE_OUT, whatever state the packer was in (R69, R294). -/
theorem hostIssue_packSession (bits : List Bool) (s : State) :
    ∃ t, hostIssue (packSession bits) s = some t ∧ t.byteOut = s.byteOut ++ packBits bits := by
  obtain ⟨t, ht, hout⟩ :=
    execAll_pack_close bits (completeOk { s with pkAcc := 0, pkCnt := 0, pkClosed := false }) rfl rfl rfl
  refine ⟨t, ?_, hout⟩
  rw [packSession_eq_map]
  exact hostIssue_of_execAll _ s t ht

theorem encodeFile_of_symbolsOf (o : Config.ByteOrder) (source : List Byte) (xs : List Symbol) (s : State)
    (h : symbolsOf source = .ok xs) : ∃ t, encodeFile o source s = .finished (compressedFile o xs) t := by
  obtain ⟨t, ht, hout⟩ := hostIssue_packSession (sourceBits xs) s
  exact ⟨t, by simp only [encodeFile, h, ht, hout, List.drop_left, compressedFile]⟩

/-! ## The compressed file read again (R237, R240) -/

theorem drop_compressedFile (o : Config.ByteOrder) (xs : List Symbol) :
    (compressedFile o xs).drop 512 = packBits (sourceBits xs) :=
  List.drop_left' (headerBytes_length o _)

theorem parseHeader_compressedFile (o : Config.ByteOrder) (g : Config.Signedness) (xs : List Symbol)
    (hfit : ∀ x : Symbol, xs.count x < headerLimit g) :
    parseHeader o g (some (compressedFile o xs)) = .ok (countSymbols xs) :=
  parseHeader_headerBytes o g _ _ (countSymbols_length xs) (countSymbols_lt xs _ hfit)

theorem decodePlan_compressedFile (o : Config.ByteOrder) (g : Config.Signedness) (xs : List Symbol)
    (hfit : ∀ x : Symbol, xs.count x < headerLimit g) :
    decodePlan o g (some (compressedFile o xs)) = .ok (buildTree (countSymbols xs), xs.length) := by
  simp only [decodePlan, parseHeader_compressedFile o g xs hfit, totalSymbols_countSymbols]

/-- Settles O59: the session appends the packed code bits after the header, which reads back as the counts, and the
counts add up to the source's length. -/
theorem encodedFileRebuildsTreeAndTotal : Obligations.EncodedFileRebuildsTreeAndTotal := by
  intro o g source xs s hxs hfit
  exact ⟨encodeFile_of_symbolsOf o source xs s hxs, drop_compressedFile o xs, parseHeader_compressedFile o g xs hfit,
    length_of_symbolsOf source xs hxs ▸ decodePlan_compressedFile o g xs hfit⟩

end Sys2Proof.Machine
end

section
/-! # Proofs: the host's errors, and that otherwise both ends finish (O58) -/

namespace Sys2Proof.Machine

/-! ## The header's errors (45_host_contract.md R243, log entry 13) -/

theorem parseHeader_of_negative (o : Config.ByteOrder) (g : Config.Signedness) (file : List Byte)
    (h : ∃ n ∈ headerInts o g file, n < 0) : parseHeader o g (some file) = .error .malformedHeader := by
  have hall : ¬ (headerInts o g file).all (fun n => 0 ≤ n) = true := by simpa using h
  rw [parseHeader, if_neg hall, ite_self]

theorem parseHeader_of_readable (o : Config.ByteOrder) (g : Config.Signedness) (file : List Byte)
    (hlen : 512 ≤ file.length) (h : ∀ n ∈ headerInts o g file, 0 ≤ n) :
    parseHeader o g (some file) = .ok ((headerInts o g file).map Int.toNat) := by
  rw [parseHeader, if_neg (Nat.not_lt.mpr hlen), if_pos (by simpa using h)]

theorem decodeFile_of_error (o : Config.ByteOrder) (g : Config.Signedness) (file : Option (List Byte)) (s : State)
    (e : HostError) (h : parseHeader o g file = .error e) : decodeFile o g file s = .aborted e s := by
  simp only [decodeFile, decodePlan, h]

/-! ## HTD never stops the host (R239, R241) -/

theorem hostIssue_completes (ops : List HostOp) (s : State) : ∃ t, hostIssue ops s = some t := by
  induction ops generalizing s with
  | nil => exact ⟨s, rfl⟩
  | cons op ops ih =>
    obtain ⟨u, hu⟩ := everyOperationCompletes (issued op) s
    rw [hostIssue_cons op ops s u hu]
    exact ih u

/-- What the reads at the end of a walk answer, of the registers they name (10_state.md R42 to R47). -/
def State.report (s : State) : DecodeReport where
  result := resultWord s.result
  status := statusWord s
  remLo := totalLo s.twRem
  remHi := totalHi s.twRem
  err := 0#25 ++ s.err

/-- A read of a mapped index only writes RDATA (43_system.md R200). -/
theorem hostRead_of_regAt (a : PortIndex) (r : HostReg) (s : State) (h : regAt a = r) (hr : r ≠ .unmapped) :
    hostRead a s = some (readReg s r, { s with rdata := readReg s r }) := by
  rw [hostRead_eq, h, readEffect_of_mapped s r hr]

theorem hostRead_result (s : State) :
    hostRead 0x002 s = some (resultWord s.result, { s with rdata := resultWord s.result }) :=
  hostRead_of_regAt _ .result s rfl nofun

theorem readReport_eq (s : State) : readReport s = some (s.report, { s with rdata := 0#25 ++ s.err }) := by
  have hstatus (s : State) := hostRead_of_regAt 0x001 .status s rfl nofun
  have hremLo (s : State) := hostRead_of_regAt 0x007 .twRemLo s rfl nofun
  have hremHi (s : State) := hostRead_of_regAt 0x008 .twRemHi s rfl nofun
  have herr (s : State) := hostRead_of_regAt 0x003 .err s rfl nofun
  simp only [readReport, hostRead_result, hstatus, hremLo, hremHi, herr, Option.bind_eq_bind, Option.bind_some]
  rfl

theorem hostWalk_completes (s : State) : ∃ r t, hostWalk s = some (r, t) := by
  obtain ⟨u, hu⟩ := hostIssue_completes [encode .upOpen, encode .twStart] s
  simp only [hostWalk, hu, hostRead_result, readReport_eq, Option.bind_eq_bind, Option.bind_some]
  split
  · obtain ⟨v, hv⟩ := hostIssue_completes [encode .twRun] _
    exact ⟨_, _, by rw [hv]; rfl⟩
  · exact ⟨_, _, rfl⟩

theorem decodeSession_completes (tree : Option HuffTree) (total : Nat) (body : List Byte) (s : State) :
    ∃ r t, decodeSession tree total body s = some (r, t) := by
  obtain ⟨u, hu⟩ : ∃ u, leaveRunning s = some u := ⟨_, leaveRunning_eq s⟩
  obtain ⟨v, hv⟩ := hostIssue_completes (loadOps tree total) u
  obtain ⟨r, t, ht⟩ := hostWalk_completes { v with byteIn := body }
  exact ⟨r, t, by simp only [decodeSession, hu, Option.bind_eq_bind, Option.bind_some, hv, ht]⟩

theorem decodeFile_completes (o : Config.ByteOrder) (g : Config.Signedness) (file : Option (List Byte)) (s : State)
    (t : FreqTable) (h : parseHeader o g file = .ok t) : ∃ r u, decodeFile o g file s = .finished r u := by
  obtain ⟨r, u, hu⟩ := decodeSession_completes (buildTree t) (totalSymbols t) ((file.getD []).drop Config.hdrBytes) s
  exact ⟨r, u, by simp only [decodeFile, decodePlan, h, hu]⟩

/-- Settles O58: each error is found before the first operation, and no operation stops HTD. -/
theorem hostErrorsAbortBeforeAnyOperation : Obligations.HostErrorsAbortBeforeAnyOperation := by
  refine fun o g s => ⟨fun source h => ?_, fun source h => ?_, rfl, fun file h => ?_, fun file h => ?_,
    fun file hlen h => ?_⟩
  · simp only [encodeFile, symbolsOf_of_unsupported source h]
  · obtain ⟨xs, hxs⟩ := symbolsOf_of_supported source h
    exact ⟨_, encodeFile_of_symbolsOf o source xs s hxs⟩
  · exact decodeFile_of_error o g _ s _ (parseHeader_of_short o g file h)
  · exact decodeFile_of_error o g _ s _ (parseHeader_of_negative o g file h)
  · exact decodeFile_completes o g _ s _ (parseHeader_of_readable o g file hlen h)

end Sys2Proof.Machine
end

section
/-! # Proofs: the tree and the code bits of a source -/

namespace Sys2Proof.Machine

/-- The symbols that occur in a source, with their counts as the table. -/
theorem map_occurring_countSymbols (xs : List Symbol) :
    (occurring (countSymbols xs)).map (BitVec.ofNat 7) = alphabet.filter (fun x => 0 < xs.count x) := by
  rw [alphabet, List.filter_map, occurring]
  refine congrArg (List.map (BitVec.ofNat 7)) (List.filter_congr (fun s hs => ?_))
  have hs : s < 128 := List.mem_range.mp hs
  simp [countSymbols, hs]

section
variable {xs : List Symbol} {tree : HuffTree} (h : buildTree (countSymbols xs) = some tree)
include h

theorem symbols_perm_of_source : tree.symbols.Perm (alphabet.filter (fun x => 0 < xs.count x)) :=
  map_occurring_countSymbols xs ▸ buildTree_symbols _ tree h

theorem symbols_nodup_of_source : tree.symbols.Nodup :=
  (symbols_perm_of_source h).nodup_iff.mpr (alphabet_nodup.filter _)

theorem mem_symbols_of_source (x : Symbol) : x ∈ tree.symbols ↔ x ∈ xs := by
  rw [(symbols_perm_of_source h).mem_iff, List.mem_filter]
  simp [mem_alphabet]

theorem sourceBits_of_buildTree : sourceBits xs = bodyBits (deriveCodes tree) xs := by
  rw [sourceBits, h]

/-- Every symbol of the source has its code in the tree's table. -/
theorem mem_deriveCodes_of_source (x : Symbol) (hx : x ∈ xs) :
    (x, codeOf (deriveCodes tree) x) ∈ deriveCodes tree := by
  obtain ⟨c, hc, rfl⟩ := List.mem_map.mp ((mem_symbols_of_source h x).mpr hx)
  rwa [codeOf_of_mem _ (symbols_nodup_of_source h) c hc]

end

/-- A source that is not empty has a tree (R231). -/
theorem buildTree_of_source (xs : List Symbol) (hne : xs ≠ []) : ∃ tree, buildTree (countSymbols xs) = some tree := by
  obtain ⟨x, hx⟩ := List.exists_mem_of_ne_nil xs hne
  refine Option.ne_none_iff_exists'.mp (fun hnone => ?_)
  have hempty : alphabet.filter (fun x => 0 < xs.count x) = [] := by
    rw [← map_occurring_countSymbols, (buildTree_eq_none_iff _).mp hnone, List.map_nil]
  simpa [hx] using List.filter_eq_nil_iff.mp hempty x (mem_alphabet x)

end Sys2Proof.Machine
end

section
/-! # Proofs: the file encoded on one HTD, decoded on another (O57) -/

namespace Sys2Proof.Machine

/-! ## The tree image in the tree memory (45_host_contract.md R242) -/

/-- The entry of a leaf as LEAF writes it (30_encoding.md R101). -/
def leafEntry (x : Symbol) : TmEntry := { sym := x, lv := false, left := 0, rv := false, right := 0 }

/-- The entry of an inner node as NODE writes it (R101). -/
def nodeEntry (l r : NodeIndex) : TmEntry := { sym := 0, lv := true, left := l, rv := true, right := r }

theorem tmEntryOfWord_leaf (x : Symbol) : tmEntryOfWord (x.setWidth 32) = leafEntry x := by
  have hfield (start len : Nat) (h : 7 ≤ start) : (x.setWidth 32).extractLsb' start len = 0#len := by
    refine BitVec.eq_of_getLsbD_eq (fun i hi => ?_)
    simp [show 7 ≤ start + i by omega]
  have hsym : (x.setWidth 32).extractLsb' 0 7 = x := by
    refine BitVec.eq_of_getLsbD_eq (fun i hi => ?_)
    simp [hi, show i < 32 by omega]
  simp [tmEntryOfWord, leafEntry, hfield, hsym]

/-- The word of NODE, field by field (R93, R101). -/
theorem nodeWord_eq_append (l r : NodeIndex) :
    (0x03000000 ||| r.setWidth 32 <<< 16 ||| l.setWidth 32 <<< 8 : Word) = 0x03#8 ++ r ++ l ++ 0x00#8 := by
  have htop : (0x03#8 ++ r).setWidth 32 = 0x00000300#32 ||| r.setWidth 32 :=
    BitVec.setWidth_append_eq_shiftLeft_setWidth_or
  calc (0x03000000 ||| r.setWidth 32 <<< 16 ||| l.setWidth 32 <<< 8 : Word)
      = (0x03#8 ++ r).setWidth 32 <<< 16 ||| l.setWidth 32 <<< 8 ||| (0x00#8).setWidth 32 := by
        rw [htop, BitVec.shiftLeft_or_distrib]
        exact BitVec.or_zero.symm
    _ = (0x03#8 ++ r ++ l ++ 0x00#8).setWidth 32 := by
        rw [BitVec.setWidth_append_append_eq_shiftLeft_setWidth_or]
    _ = 0x03#8 ++ r ++ l ++ 0x00#8 := BitVec.setWidth_eq _

theorem tmEntryOfWord_node (l r : NodeIndex) :
    tmEntryOfWord (0x03000000 ||| r.setWidth 32 <<< 16 ||| l.setWidth 32 <<< 8) = nodeEntry l r := by
  have hsplit := nodeWord_eq_append l r
  simp only [hsplit, tmEntryOfWord, nodeEntry, BitVec.extractLsb'_append_eq_ite, BitVec.getLsbD_append]
  simp

/-- A memory with the image of a tree written to it, in the order of `imageOps`. -/
def storeImage : HuffTree → Memory → Memory
  | .leaf k x _, m => Memory.write m k (leafEntry x)
  | .node k _ l r, m =>
    Memory.write (storeImage r (storeImage l m)) k (nodeEntry (BitVec.ofNat 8 l.id) (BitVec.ofNat 8 r.id))

theorem forall_mem_nodeIds_node {P : Nat → Prop} {k f : Nat} {l r : HuffTree} :
    (∀ i ∈ (HuffTree.node k f l r).nodeIds, P i) ↔ P k ∧ (∀ i ∈ l.nodeIds, P i) ∧ ∀ i ∈ r.nodeIds, P i := by
  rw [nodeIds_node, List.forall_mem_cons, List.forall_mem_append]

theorem wf_storeImage (tree : HuffTree) (m : Memory) (hm : Memory.wf m = true) (hids : ∀ k ∈ tree.nodeIds, k < 255) :
    Memory.wf (storeImage tree m) = true := by
  induction tree generalizing m with
  | leaf k x f => exact Memory.wf_write m k _ hm (hids k (List.mem_singleton_self k))
  | node k f l r ihl ihr =>
    obtain ⟨hk, hl, hr⟩ := forall_mem_nodeIds_node.mp hids
    exact Memory.wf_write _ k _ (ihr _ (ihl m hm hl) hr) hk

/-- The image leaves every entry that is no node of the tree. -/
theorem read_storeImage_of_not_mem (tree : HuffTree) (m : Memory) (hm : Memory.wf m = true)
    (hids : ∀ k ∈ tree.nodeIds, k < 255) (i : Nat) (hi : i ∉ tree.nodeIds) :
    Memory.read (storeImage tree m) i = Memory.read m i := by
  induction tree generalizing m with
  | leaf k x f => exact Memory.read_write_of_wf m k i _ hm (fun h => hi (h ▸ List.mem_singleton_self k))
  | node k f l r ihl ihr =>
    simp only [nodeIds_node, List.mem_cons, List.mem_append, not_or] at hi
    obtain ⟨-, hl, hr⟩ := forall_mem_nodeIds_node.mp hids
    obtain ⟨hik, hil, hir⟩ := hi
    have hwf := wf_storeImage l m hm hl
    rw [storeImage, Memory.read_write_of_wf _ k i _ (wf_storeImage r _ hwf hr) hik, ihr _ hwf hr hir, ihl m hm hl hil]

/-- The memory holds the image of a tree at the tree's own indices. -/
def HoldsImage (m : Memory) : HuffTree → Prop
  | .leaf k x _ => Memory.read m k = some (leafEntry x)
  | .node k _ l r =>
    Memory.read m k = some (nodeEntry (BitVec.ofNat 8 l.id) (BitVec.ofNat 8 r.id)) ∧ HoldsImage m l ∧ HoldsImage m r

theorem HoldsImage.congr {m n : Memory} {tree : HuffTree} (h : HoldsImage m tree)
    (hread : ∀ i ∈ tree.nodeIds, Memory.read n i = Memory.read m i) : HoldsImage n tree := by
  induction tree with
  | leaf k x f => exact (hread k (List.mem_singleton_self k)).trans h
  | node k f l r ihl ihr =>
    obtain ⟨hk, hl, hr⟩ := forall_mem_nodeIds_node.mp hread
    obtain ⟨hnode, himgl, himgr⟩ := h
    exact ⟨hk.trans hnode, ihl himgl hl, ihr himgr hr⟩

/-- Distinct indices keep the writes apart. -/
theorem holdsImage_storeImage (tree : HuffTree) (m : Memory) (hm : Memory.wf m = true)
    (hids : ∀ k ∈ tree.nodeIds, k < 255) (hnodup : tree.nodeIds.Nodup) : HoldsImage (storeImage tree m) tree := by
  induction tree generalizing m with
  | leaf k x f => exact Memory.read_write_same m k _
  | node k f l r ihl ihr =>
    simp only [nodeIds_node, List.nodup_cons, List.mem_append, not_or, List.nodup_append'] at hnodup
    obtain ⟨-, hl, hr⟩ := forall_mem_nodeIds_node.mp hids
    obtain ⟨⟨hkl, hkr⟩, hnl, hnr, hdisj⟩ := hnodup
    have hwfl := wf_storeImage l m hm hl
    have hother (i : Nat) (hik : i ≠ k) : Memory.read (storeImage (.node k f l r) m) i =
        Memory.read (storeImage r (storeImage l m)) i :=
      Memory.read_write_of_wf _ k i _ (wf_storeImage r _ hwfl hr) hik
    refine ⟨Memory.read_write_same _ k _, (ihl m hm hl hnl).congr (fun i hi => ?_),
      (ihr _ hwfl hr hnr).congr (fun i hi => hother i (fun h => hkr (h ▸ hi)))⟩
    rw [hother i (fun h => hkl (h ▸ hi)), read_storeImage_of_not_mem r _ hwfl hr i (hdisj hi)]

theorem id_mem_nodeIds (tree : HuffTree) : tree.id ∈ tree.nodeIds := by
  cases tree <;> exact List.mem_cons_self

/-- A creation index below 255 names a node (00_scope.md R8). -/
theorem index_ofNat (k : Nat) (hk : k < 255) :
    (BitVec.ofNat 8 k).toNat = k ∧ BitVec.ofNat 8 k ≠ Config.noNode := by
  have hindex : (BitVec.ofNat 8 k).toNat = k := Nat.mod_eq_of_lt (by omega)
  exact ⟨hindex, fun h => hk.ne (hindex.symm.trans (congrArg BitVec.toNat h))⟩

/-- An image at the tree's own indices is an image of the tree as the walker reads it. -/
theorem HoldsImage.holdsTree {m : Memory} {tree : HuffTree} (h : HoldsImage m tree)
    (hids : ∀ k ∈ tree.nodeIds, k < 255) : holdsTree m (BitVec.ofNat 8 tree.id) tree := by
  induction tree with
  | leaf k x f =>
    obtain ⟨hindex, hne⟩ := index_ofNat k (hids k (List.mem_singleton_self k))
    exact ⟨hne, leafEntry x, hindex.symm ▸ h, rfl, rfl, rfl⟩
  | node k f l r ihl ihr =>
    obtain ⟨hk, hl, hr⟩ := forall_mem_nodeIds_node.mp hids
    obtain ⟨hindex, hne⟩ := index_ofNat k hk
    obtain ⟨hread, himgl, himgr⟩ := h
    exact ⟨hne, _, hindex.symm ▸ hread, rfl, rfl, ihl himgl hl, ihr himgr hr⟩

/-! ## Loading a tree and a total (R241, R242) -/

theorem rootOfWord_ofNat (i : Nat) : rootOfWord (BitVec.ofNat 32 i) = BitVec.ofNat 8 i := by
  refine BitVec.eq_of_toNat_eq ?_
  simp [rootOfWord]

/-- Both halves written make up the total (10_state.md R46). -/
theorem withTotal_halves (m n : Total) : withTotalHi (withTotalLo m (totalLo n)) (totalHi n) = n := by
  have hhi : (totalHi n).extractLsb' 0 7 = n.extractLsb' 32 7 := BitVec.extractLsb'_append_eq_right
  rw [withTotalHi, (withTotalLo_fields m (totalLo n)).1, hhi, totalLo,
    BitVec.extractLsb'_append_extractLsb'_eq_extractLsb' (show 32 = 0 + 32 from rfl)]
  exact BitVec.extractLsb'_eq_self

section
variable (s : State) (hs : s.twState ≠ .running)
include hs

theorem hostIssue_write_tm (ops : List HostOp) (i : Nat) (hi : i < 255) (d : Word) :
    hostIssue (writeOp (BitVec.ofNat 9 (Config.tmBase + i)) d :: ops) s =
      hostIssue ops { s with tm := Memory.write s.tm i (tmEntryOfWord d) } :=
  hostIssue_encode_cons _ ops s _ ((exec_hwrite_tm i hi d s).trans (congrArg _ (lockedWrite_not_running s _ hs)))

theorem hostIssue_rootOp (ops : List HostOp) (i : Nat) :
    hostIssue (rootOp i :: ops) s = hostIssue ops { s with twRoot := BitVec.ofNat 8 i } := by
  rw [← rootOfWord_ofNat i]
  exact hostIssue_encode_cons _ ops s _
    ((exec_hwrite_twRoot (BitVec.ofNat 32 i) s).trans (congrArg _ (lockedWrite_not_running s _ hs)))

theorem hostIssue_totalOps (n : Total) : hostIssue (totalOps n) s = some { s with twTotal := n } := by
  have hlo := exec_hwrite_twTotalLo (totalLo n) s hs
  have hhi := exec_hwrite_twTotalHi (totalHi n) { s with twTotal := withTotalLo s.twTotal (totalLo n) } hs
  rw [withTotal_halves] at hhi
  exact (hostIssue_encode_cons _ _ s _ hlo).trans (hostIssue_encode_cons _ _ _ _ hhi)

end

theorem hostIssue_imageOps (tree : HuffTree) (ops : List HostOp) (s : State) (hs : s.twState ≠ .running)
    (hids : ∀ k ∈ tree.nodeIds, k < 255) :
    hostIssue (imageOps tree ++ ops) s = hostIssue ops { s with tm := storeImage tree s.tm } := by
  induction tree generalizing s ops with
  | leaf k x f =>
    have hk : k < 255 := hids k (List.mem_singleton_self k)
    exact (hostIssue_write_tm s hs ops k hk _).trans (by rw [tmEntryOfWord_leaf]; rfl)
  | node k f l r ihl ihr =>
    obtain ⟨hk, hl, hr⟩ := forall_mem_nodeIds_node.mp hids
    rw [imageOps, List.append_assoc, List.append_assoc, ihl _ s hs hl]
    refine (ihr _ { s with tm := storeImage l s.tm } hs hr).trans ?_
    refine (hostIssue_write_tm { s with tm := storeImage r (storeImage l s.tm) } hs ops k hk _).trans ?_
    rw [tmEntryOfWord_node]
    rfl

/-- What `loadOps` writes. -/
def State.loaded (s : State) (tree : Option HuffTree) (n : Nat) : State :=
  { s with
    tm := tree.elim s.tm (fun t => storeImage t s.tm)
    twRoot := tree.elim s.twRoot (fun t => BitVec.ofNat 8 t.id)
    twTotal := BitVec.ofNat 39 n }

theorem hostIssue_loadOps (tree : Option HuffTree) (n : Nat) (s : State) (hs : s.twState ≠ .running)
    (hids : ∀ t, tree = some t → ∀ k ∈ t.nodeIds, k < 255) :
    hostIssue (loadOps tree n) s = some (s.loaded tree n) := by
  cases tree with
  | none => exact hostIssue_totalOps s hs _
  | some t =>
    have hroot := hostIssue_rootOp { s with tm := storeImage t s.tm } hs (totalOps (BitVec.ofNat 39 n)) t.id
    have htotal := hostIssue_totalOps { s with tm := storeImage t s.tm, twRoot := BitVec.ofNat 8 t.id } hs
      (BitVec.ofNat 39 n)
    rw [loadOps, List.append_assoc, hostIssue_imageOps t _ s hs (hids t rfl)]
    exact hroot.trans htotal

/-- What `loadOps` writes of a built tree is an image of it. -/
theorem holdsTree_loaded (t : FreqTable) (tree : HuffTree) (h : buildTree t = some tree) (n : Nat) (s : State)
    (hwf : Memory.wf s.tm = true) : holdsTree (s.loaded (buildTree t) n).tm (s.loaded (buildTree t) n).twRoot tree := by
  obtain ⟨hnodup, hids⟩ := buildTree_nodeIds t tree h
  rw [h]
  exact (holdsImage_storeImage tree s.tm hwf hids hnodup).holdsTree hids

/-! ## The walk (R241) -/

/-- After UP_OPEN. -/
def State.opened (s : State) : State := completeOk { s with upBuf := 0, upCnt := 0, upEos := false }

/-- After UP_OPEN, TW_START and the read of RESULT. -/
def State.started (s : State) : State :=
  { startSession s.opened with rdata := resultWord (startSession s.opened).result }

theorem started_nothing_owed (s : State) (h : s.twTotal = 0) :
    s.started = { s.opened with
      twCur := s.twRoot, twRem := s.twTotal, twState := .done
      result := Result.ofCode .done, rdata := resultWord (Result.ofCode .done) } := by
  rw [State.started, startSession_nothing_owed s.opened h]
  rfl

theorem started_owing (s : State) (h : s.twTotal ≠ 0) :
    s.started = { s.opened with
      twCur := s.twRoot, twRem := s.twTotal, twState := .running
      result := Result.ofCode .ok, rdata := resultWord (Result.ofCode .ok) } := by
  rw [State.started, startSession_owing s.opened h]
  rfl

/-- The host walks on when the session began with OK. -/
theorem hostWalk_eq (s : State) (hs : s.twState ≠ .running) :
    hostWalk s =
      if resultIsOk (resultWord s.started.result) then (hostIssue [encode .twRun] s.started).bind readReport
      else readReport s.started := by
  have hissue : hostIssue [encode .upOpen, encode .twStart] s = some (startSession s.opened) :=
    (hostIssue_encode_cons _ _ s _ (exec_upOpen_of_not_running s hs)).trans
      (hostIssue_encode_cons _ _ s.opened _ (exec_twStart_of_not_running s.opened hs))
  simp only [hostWalk, hissue, hostRead_result, Option.bind_eq_bind, Option.bind_some]
  rfl

/-- What a decoding of the symbols `xs` from `s` ends with. -/
structure DecodedAll (s : State) (xs : List Symbol) (t : State) : Prop where
  symOut : t.symOut = s.symOut ++ xs
  state : t.twState = .done
  rem : t.twRem = 0
  err : t.err = s.err
  result : t.result = Result.ofCode .done

theorem hostWalk_nothing_owed (s : State) (hs : s.twState ≠ .running) (h0 : s.twTotal = 0) :
    ∃ t, DecodedAll s [] t ∧ hostWalk s = readReport t := by
  have hstart := started_nothing_owed s h0
  have hresult : s.started.result = Result.ofCode .done := by rw [hstart]
  have hdone : ¬ resultIsOk (resultWord (Result.ofCode .done)) = true := by decide
  refine ⟨s.started, ?_, ?_⟩
  · rw [hstart]
    exact ⟨(List.append_nil _).symm, rfl, h0, rfl, rfl⟩
  · rw [hostWalk_eq s hs, hresult, if_neg hdone]

/-- TW_RUN's response has the number of the state it ends in (42_tree_walker.md R169). -/
theorem exec_twRun_result (s t : State) (hs : s.twState = .running) (h : exec .twRun s = .next t) :
    t.result = Result.ofCode t.twState.runCode := by
  obtain ⟨u, -, rfl⟩ := walkRun_of_exec_twRun s t hs h
  rfl

theorem hostWalk_owing (s : State) (hs : s.twState ≠ .running) (tree : HuffTree)
    (coded : List (Symbol × List Bool)) (rest : List Bool) (hne : coded ≠ []) (htotal : s.twTotal.toNat = coded.length)
    (htree : holdsTree s.tm s.twRoot tree) (hcoded : ∀ c ∈ coded, c ∈ deriveCodes tree)
    (hbits : unpackBits s.byteIn = coded.flatMap Prod.snd ++ rest) :
    ∃ t, DecodedAll s (coded.map Prod.fst) t ∧ hostWalk s = readReport t := by
  have howed : s.twTotal ≠ 0 := fun h0 => hne (List.length_eq_zero_iff.mp (by rw [← htotal, h0]; rfl))
  have hok : resultIsOk (resultWord (Result.ofCode .ok)) = true := by decide
  have hstart := started_owing s howed
  have hrun : s.started.twState = .running := by rw [hstart]
  have hresult : s.started.result = Result.ofCode .ok := by rw [hstart]
  obtain ⟨t, ht, hsym, hdone, hrem, -, herr, -⟩ := twRunDecodesTheCodesOfATree s.started tree coded rest hrun
    (by rw [hstart]; rfl) (by rw [hstart]; exact htree) hcoded hne (by rw [hstart]; exact htotal)
    (by rw [hstart]; exact (pendingBits_of_empty _ rfl rfl).trans hbits)
  refine ⟨t, ⟨?_, hdone, hrem, ?_, ?_⟩, ?_⟩
  · rw [hsym, hstart]
    rfl
  · rw [herr, hstart]
    rfl
  · rw [exec_twRun_result _ t hrun ht, hdone]
    rfl
  · have hissue : hostIssue [encode .twRun] s.started = some t := hostIssue_encode_cons .twRun [] _ t ht
    rw [hostWalk_eq s hs, hresult, if_pos hok, hissue, Option.bind_some]

/-! ## The body (20_memory.md R69) -/

/-- Unpacking what was packed begins with the bits. -/
theorem exists_unpackBits_packBits (bits : List Bool) : ∃ pad, unpackBits (packBits bits) = bits ++ pad := by
  have hprefix : bits <+: unpackBits (packBits bits) := by
    refine List.prefix_iff_getElem?.mpr (fun k hk => ?_)
    rw [getElem?_unpackBits_packBits bits k (by rw [packBits_length]; omega), List.getD_eq_getElem bits false hk]
  obtain ⟨pad, hpad⟩ := hprefix
  exact ⟨pad, hpad.symm⟩

/-! ## The session -/

/-- Leaving RUNNING keeps the tree memory, the symbols decoded so far and the errors (70_reset_and_hazards.md R297). -/
theorem leaveRunning_frame (s : State) :
    ∃ u, leaveRunning s = some u ∧ u.twState ≠ .running ∧ u.tm = s.tm ∧ u.symOut = s.symOut ∧ u.err = s.err := by
  refine ⟨_, leaveRunning_eq s, leaveRunning_not_running s _ (leaveRunning_eq s), ?_⟩
  split <;> exact ⟨rfl, rfl, rfl⟩

/-- A walk over the packed body of a source, with the source's tree and length loaded, decodes the source. -/
theorem hostWalk_source (xs : List Symbol) (s : State) (hs : s.twState ≠ .running)
    (htotal : s.twTotal.toNat = xs.length) (hbody : s.byteIn = packBits (sourceBits xs))
    (htree : ∀ tree, buildTree (countSymbols xs) = some tree → holdsTree s.tm s.twRoot tree) :
    ∃ t, DecodedAll s xs t ∧ hostWalk s = readReport t := by
  by_cases hne : xs = []
  · subst hne
    exact hostWalk_nothing_owed s hs (BitVec.eq_of_toNat_eq htotal)
  · obtain ⟨tree, hbuild⟩ := buildTree_of_source xs hne
    obtain ⟨pad, hpad⟩ := exists_unpackBits_packBits (sourceBits xs)
    have hfst : (xs.map (fun x => (x, codeOf (deriveCodes tree) x))).map Prod.fst = xs := by
      rw [List.map_map]
      exact List.map_id xs
    have hsnd : (xs.map (fun x => (x, codeOf (deriveCodes tree) x))).flatMap Prod.snd = sourceBits xs := by
      rw [sourceBits_of_buildTree hbuild, List.flatMap_map]
      rfl
    have hcoded : ∀ c ∈ xs.map (fun x => (x, codeOf (deriveCodes tree) x)), c ∈ deriveCodes tree :=
      List.forall_mem_map.mpr (mem_deriveCodes_of_source hbuild)
    have hwalk := hostWalk_owing s hs tree _ pad (by simpa using hne) (by simpa using htotal) (htree tree hbuild) hcoded
      (by rw [hbody, hpad, hsnd])
    rwa [hfst] at hwalk

/-- A decode session on the body of a source decodes the source. -/
theorem decodeSession_source (xs : List Symbol) (s : State) (hwf : Memory.wf s.tm = true) (hlen : xs.length < 2 ^ 39) :
    ∃ t, DecodedAll s xs t ∧
      decodeSession (buildTree (countSymbols xs)) xs.length (packBits (sourceBits xs)) s = readReport t := by
  obtain ⟨u, hu, hrun, htm, hsymOut, herr⟩ := leaveRunning_frame s
  have hload := hostIssue_loadOps (buildTree (countSymbols xs)) xs.length u hrun
    (fun t ht => (buildTree_nodeIds _ t ht).2)
  have htotal : (BitVec.ofNat 39 xs.length).toNat = xs.length := Nat.mod_eq_of_lt hlen
  obtain ⟨t, ht, hwalk⟩ := hostWalk_source xs
    { u.loaded (buildTree (countSymbols xs)) xs.length with byteIn := packBits (sourceBits xs) } hrun htotal rfl
    (fun tree htree => holdsTree_loaded _ tree htree xs.length u (htm ▸ hwf))
  refine ⟨t, ⟨ht.symOut.trans (congrArg (· ++ xs) hsymOut), ht.state, ht.rem, ht.err.trans herr, ht.result⟩, ?_⟩
  simp only [decodeSession, hu, hload, Option.bind_eq_bind, Option.bind_some, hwalk]

theorem length_lt_of_counts_fit (g : Config.Signedness) (xs : List Symbol)
    (hfit : ∀ x : Symbol, xs.count x < headerLimit g) : xs.length < 2 ^ 39 := by
  have hlimit : headerLimit g ≤ 2 ^ 32 := by cases g <;> decide
  have hle : (countSymbols xs).sum ≤ (countSymbols xs).length • (2 ^ 32 - 1) :=
    List.sum_le_card_nsmul _ _ (fun n hn => by have := countSymbols_lt xs _ hfit n hn; omega)
  have htotal : (countSymbols xs).sum = xs.length := totalSymbols_countSymbols xs
  rw [htotal, countSymbols_length, smul_eq_mul] at hle
  omega

/-- What the host reads after a decoding. -/
theorem DecodedAll.report {s t : State} {xs : List Symbol} (h : DecodedAll s xs t) :
    t.report.result = 0x00000002 ∧ t.report.status.extractLsb' 0 3 = 2 ∧ t.report.remLo = 0 ∧ t.report.remHi = 0 ∧
      t.report.err = s.err.setWidth 32 := by
  obtain ⟨-, hstate, hrem, herr, hresult⟩ := h
  refine ⟨?_, ?_, ?_, ?_, ?_⟩
  · rw [State.report, hresult]
    rfl
  · rw [State.report, (statusWord_fields t).1, hstate]
    rfl
  · rw [State.report, hrem]
    rfl
  · rw [State.report, hrem]
    rfl
  · rw [State.report, zero_append_eq_setWidth, herr]

/-- Settles O57: the file's header gives the source's tree and length, its body the packed code bits, and the session
loads the one, walks over the other, and so appends the source's symbols. -/
theorem systemRoundTrip : Obligations.SystemRoundTrip := by
  intro o g source xs s s' hxs hfit hwf
  obtain ⟨p, hp⟩ := encodeFile_of_symbolsOf o source xs s hxs
  obtain ⟨t, ht, hsession⟩ := decodeSession_source xs s' hwf (length_lt_of_counts_fit g xs hfit)
  have hdecode : decodeFile o g (some (compressedFile o xs)) s' =
      .finished t.report { t with rdata := 0#25 ++ t.err } := by
    simp only [decodeFile, decodePlan_compressedFile o g xs hfit, Option.getD_some, drop_compressedFile, hsession,
      readReport_eq]
  have hsym : t.symOut.map symbolByte = s'.symOut.map symbolByte ++ source := by
    rw [ht.symOut, List.map_append, map_symbolByte_of_symbolsOf source xs hxs]
  exact ⟨_, p, _, _, hp, hdecode, hsym, ht.state, ht.rem, ht.err, ht.report⟩

end Sys2Proof.Machine
end

section
/-! # Proofs: the body is smaller than the source (O60)

The code bits of a source number the frequencies of its tree's inner nodes (`HuffTree.cost`), each counted when the
node is made. While there are more than `2 ^ k` nodes in the queue, a merge of the first two is paid for by what the new
node adds to the last ones (`cost_mergeNodes_add_le`); so `2 ^ k` nodes merge at the cost of at most `k` times their
frequencies, as `k` bits for each symbol would. -/

namespace Sys2Proof.Machine

/-! ## Queues in ascending order (45_host_contract.md R227, R228) -/

/-- The sum of the frequencies in a queue. -/
def totalFreq (q : List HuffTree) : Nat := (q.map HuffTree.freq).sum

@[simp] theorem totalFreq_nil : totalFreq [] = 0 := rfl

@[simp] theorem totalFreq_cons (n : HuffTree) (q : List HuffTree) : totalFreq (n :: q) = n.freq + totalFreq q := by
  simp [totalFreq]

theorem totalFreq_perm {q q' : List HuffTree} (h : q.Perm q') : totalFreq q = totalFreq q' := (h.map _).sum_eq

theorem totalFreq_drop_le (q : List HuffTree) (i : Nat) : totalFreq (q.drop i) ≤ totalFreq q :=
  ((List.drop_sublist i q).map _).sum_le_sum (fun _ _ => Nat.zero_le _)

/-- A queue in ascending order of frequency. -/
abbrev Ascending (q : List HuffTree) : Prop := q.Pairwise (fun a b => a.freq ≤ b.freq)

theorem insertNode_ascending (n : HuffTree) (q : List HuffTree) (hq : Ascending q) : Ascending (insertNode n q) := by
  induction q with
  | nil => exact List.pairwise_singleton _ _
  | cons x q ih =>
    obtain ⟨hx, hq'⟩ := List.pairwise_cons.mp hq
    rw [insertNode]
    split
    case isTrue hlt =>
      exact List.pairwise_cons.mpr ⟨List.forall_mem_cons.mpr ⟨hlt.le, fun y hy => hlt.le.trans (hx y hy)⟩, hq⟩
    case isFalse hge =>
      refine List.pairwise_cons.mpr ⟨fun y hy => ?_, ih hq'⟩
      rcases List.mem_cons.mp ((insertNode_perm n q).mem_iff.mp hy) with rfl | hy
      · exact Nat.not_lt.mp hge
      · exact hx y hy

theorem initialQueue_ascending (t : FreqTable) : Ascending (initialQueue t) :=
  List.foldlRecOn (motive := Ascending) (leavesOf t) _ .nil (fun q hq n _ => insertNode_ascending n q hq)

/-- The last nodes of a queue take up the frequency of a node that is inserted, or more. -/
theorem totalFreq_drop_insertNode (n : HuffTree) (q : List HuffTree) (hq : Ascending q) (i : Nat) (hi : i ≤ q.length) :
    n.freq + totalFreq (q.drop i) ≤ totalFreq ((insertNode n q).drop i) := by
  induction q generalizing i with
  | nil => simp [insertNode, show i = 0 by simpa using hi]
  | cons x q ih =>
    obtain ⟨hx, hq'⟩ := List.pairwise_cons.mp hq
    cases i with
    | zero => rw [List.drop_zero, List.drop_zero, totalFreq_perm (insertNode_perm n (x :: q)),
        totalFreq_cons n]
    | succ i =>
      rw [insertNode]
      split
      case isTrue hlt =>
        have hleast : ∀ y ∈ x :: q, n.freq ≤ y.freq :=
          List.forall_mem_cons.mpr ⟨hlt.le, fun y hy => hlt.le.trans (hx y hy)⟩
        rw [List.drop_succ_cons (l := x :: q), List.drop_eq_getElem_cons (l := x :: q) (i := i) hi, totalFreq_cons]
        exact Nat.add_le_add_right (hleast _ (List.getElem_mem hi)) _
      case isFalse => exact ih hq' i (Nat.le_of_succ_le_succ hi)

/-! ## What the merges cost (R229) -/

/-- The sum of the frequencies of a tree's inner nodes. -/
def HuffTree.cost : HuffTree → Nat
  | .leaf _ _ _ => 0
  | .node _ f l r => f + HuffTree.cost l + HuffTree.cost r

@[simp] theorem cost_leaf (k : Nat) (x : Symbol) (f : Nat) : (HuffTree.leaf k x f).cost = 0 := rfl

@[simp] theorem cost_node (k f : Nat) (l r : HuffTree) : (HuffTree.node k f l r).cost = f + l.cost + r.cost := rfl

/-- The cost of a queue's trees. -/
def totalCost (q : List HuffTree) : Nat := (q.map HuffTree.cost).sum

@[simp] theorem totalCost_cons (n : HuffTree) (q : List HuffTree) : totalCost (n :: q) = n.cost + totalCost q := by
  simp [totalCost]

theorem totalCost_perm {q q' : List HuffTree} (h : q.Perm q') : totalCost q = totalCost q' := (h.map _).sum_eq

/-- There is nothing to merge in a queue of one node. -/
theorem mergeNodes_of_length_le_one (fuel id : Nat) (q : List HuffTree) (h : q.length ≤ 1) :
    mergeNodes fuel id q = q := by
  match fuel, q with
  | 0, _ => rfl
  | _ + 1, [] => rfl
  | _ + 1, [r] => rfl
  | _ + 1, a :: b :: q => simp at h

/-- If up to `2 ^ k` nodes merge at `k` times their frequencies, then `j` nodes more cost one times the frequencies
more, less those of all but the first `2 * j`. -/
theorem cost_mergeNodes_add_le (k : Nat)
    (hk : ∀ fuel id q, Ascending q → q.length ≤ 2 ^ k →
      totalCost (mergeNodes fuel id q) ≤ totalCost q + k * totalFreq q)
    (j fuel id : Nat) (q : List HuffTree) (hq : Ascending q) (hlen : q.length = 2 ^ k + j) (hj : j ≤ 2 ^ k) :
    totalCost (mergeNodes fuel id q) + totalFreq (q.drop (2 * j)) ≤ totalCost q + (k + 1) * totalFreq q := by
  induction j generalizing fuel id q with
  | zero =>
    have hbound := hk fuel id q hq hlen.le
    rw [Nat.mul_zero, List.drop_zero, Nat.succ_mul k]
    omega
  | succ j ih =>
    have hpos : 0 < 2 ^ k := Nat.two_pow_pos k
    match fuel, q with
    | 0, q =>
      have hdrop := totalFreq_drop_le q (2 * (j + 1))
      rw [mergeNodes, Nat.succ_mul k]
      omega
    | fuel + 1, [] => simp at hlen
    | fuel + 1, [r] => simp at hlen; omega
    | fuel + 1, a :: b :: q =>
      have hrest : Ascending q := (List.pairwise_cons.mp (List.pairwise_cons.mp hq).2).2
      have hperm := insertNode_perm (.node id (a.freq + b.freq) a b) q
      have hbound := ih fuel (id + 1) _ (insertNode_ascending (.node id (a.freq + b.freq) a b) q hrest)
        (by simp at hlen ⊢; omega) (by omega)
      have hlast := totalFreq_drop_insertNode (.node id (a.freq + b.freq) a b) q hrest (2 * j) (by simp at hlen; omega)
      rw [totalCost_perm hperm, totalFreq_perm hperm] at hbound
      have hdrop : (a :: b :: q).drop (2 * (j + 1)) = q.drop (2 * j) := rfl
      rw [mergeNodes, hdrop]
      simp only [totalCost_cons, totalFreq_cons, cost_node, freq_node] at hbound hlast ⊢
      rw [← Nat.add_assoc a.freq]
      omega

/-- Up to `2 ^ k` nodes merge at a cost of at most `k` times their frequencies. -/
theorem cost_mergeNodes_le (k fuel id : Nat) (q : List HuffTree) (hq : Ascending q) (hlen : q.length ≤ 2 ^ k) :
    totalCost (mergeNodes fuel id q) ≤ totalCost q + k * totalFreq q := by
  induction k generalizing fuel id q with
  | zero =>
    rw [mergeNodes_of_length_le_one fuel id q hlen]
    exact Nat.le_add_right _ _
  | succ k ih =>
    by_cases hfew : q.length ≤ 2 ^ k
    · exact (ih fuel id q hq hfew).trans (by rw [Nat.succ_mul k]; omega)
    · have hadd := cost_mergeNodes_add_le k ih (q.length - 2 ^ k) fuel id q hq (by omega)
        (by rw [Nat.pow_succ] at hlen; omega)
      omega

/-! ## The cost of the built tree -/

theorem leavesFrom_freq (t : FreqTable) (k : Nat) (ss : List Nat) :
    (leavesFrom t k ss).map HuffTree.freq = ss.map (fun s => t.getD s 0) := by
  induction ss generalizing k with
  | nil => rfl
  | cons s ss ih => simp [leavesFrom, ih]

theorem leavesFrom_cost (t : FreqTable) (k : Nat) (ss : List Nat) : totalCost (leavesFrom t k ss) = 0 := by
  induction ss generalizing k with
  | nil => rfl
  | cons s ss ih => simp [leavesFrom, ih]

theorem totalFreq_leavesOf (t : FreqTable) (ht : t.length = 128) : totalFreq (leavesOf t) = t.sum := by
  rw [totalFreq, leavesOf_eq, leavesFrom_freq, sum_map_occurring t ht]

theorem buildTree_cost_le (t : FreqTable) (ht : t.length = 128) (tree : HuffTree) (h : buildTree t = some tree)
    (k : Nat) (hk : (occurring t).length ≤ 2 ^ k) : tree.cost ≤ k * t.sum := by
  have hperm := initialQueue_perm t
  have hbound := cost_mergeNodes_le k (leavesOf t).length (leavesOf t).length (initialQueue t)
    (initialQueue_ascending t) (by rwa [hperm.length_eq, leavesOf_length])
  rw [← buildTree_toList, h, totalCost_perm hperm, totalFreq_perm hperm, totalFreq_leavesOf t ht, leavesOf_eq,
    leavesFrom_cost] at hbound
  simpa [totalCost] using hbound

/-! ## The code bits (R235, R238) -/

/-- The code lengths, weighted with the frequencies, are the frequencies of the inner nodes: a code has one bit for each
inner node above its leaf. -/
theorem sum_code_lengths_eq_cost (t : FreqTable) (tree : HuffTree) (h : tree.Weighs t) :
    ((deriveCodes tree).map (fun c => t.getD c.1.toNat 0 * c.2.length)).sum = tree.cost := by
  induction tree with
  | leaf k x f => simp [deriveCodes]
  | node k f l r ihl ihr =>
    obtain ⟨hf, hl, hr⟩ := h
    have hlonger (u : HuffTree) (b : Bool) (hu : u.Weighs t) :
        (((deriveCodes u).map (fun c => (c.1, b :: c.2))).map (fun c => t.getD c.1.toNat 0 * c.2.length)).sum =
          ((deriveCodes u).map (fun c => t.getD c.1.toNat 0 * c.2.length)).sum + u.freq := by
      rw [freq_eq_sum_of_weighs t u hu, HuffTree.symbols, List.map_map, List.map_map, ← List.sum_map_add]
      rfl
    rw [deriveCodes, List.map_append, List.sum_append, hlonger l false hl, hlonger r true hr, ihl hl, ihr hr,
      cost_node, hf]
    omega

theorem sourceBits_length (xs : List Symbol) (tree : HuffTree) (h : buildTree (countSymbols xs) = some tree) :
    (sourceBits xs).length = tree.cost := by
  have hnodup := symbols_nodup_of_source h
  calc (sourceBits xs).length
      = (xs.map (fun x => (codeOf (deriveCodes tree) x).length)).sum := by
        rw [sourceBits_of_buildTree h, bodyBits, List.length_flatMap]
    _ = (tree.symbols.map (fun x => xs.count x * (codeOf (deriveCodes tree) x).length)).sum :=
        sum_map_eq_sum_count_mul xs _ _ hnodup (fun x => (mem_symbols_of_source h x).mpr)
    _ = ((deriveCodes tree).map (fun c => (countSymbols xs).getD c.1.toNat 0 * c.2.length)).sum := by
        rw [HuffTree.symbols, List.map_map]
        refine congrArg List.sum (List.map_congr_left (fun c hc => ?_))
        rw [Function.comp_apply, countSymbols_getD, codeOf_of_mem _ hnodup c hc]
    _ = tree.cost := sum_code_lengths_eq_cost _ tree (buildTree_weighs _ tree h)

/-- With up to `2 ^ k` different symbols the code bits are at most `k` for each symbol. -/
theorem sourceBits_length_le (xs : List Symbol) (hne : xs ≠ []) (k : Nat)
    (hk : (occurring (countSymbols xs)).length ≤ 2 ^ k) : (sourceBits xs).length ≤ k * xs.length := by
  obtain ⟨tree, h⟩ := buildTree_of_source xs hne
  have hsum : (countSymbols xs).sum = xs.length := totalSymbols_countSymbols xs
  rw [sourceBits_length xs tree h, ← hsum]
  exact buildTree_cost_le _ (countSymbols_length xs) tree h k hk

/-- A source has no more different symbols than symbols. -/
theorem occurring_length_le_source (xs : List Symbol) : (occurring (countSymbols xs)).length ≤ xs.length := by
  have hsub : alphabet.filter (fun x => 0 < xs.count x) ⊆ xs := fun x hx => by simpa using (List.mem_filter.mp hx).2
  rw [← List.length_map (BitVec.ofNat 7), map_occurring_countSymbols]
  exact ((alphabet_nodup.filter _).subperm hsub).length_le

/-- Settles O60: a single symbol has no code bits, up to seven symbols have at most 3 each, and more have at most 7
each. -/
theorem encodedBodyIsSmallerThanTheSource : Obligations.EncodedBodyIsSmallerThanTheSource := by
  intro source xs hxs hne
  have hlen := length_of_symbolsOf source xs hxs
  have hpos : 0 < source.length := List.length_pos_of_ne_nil hne
  have hxs' : xs ≠ [] := List.ne_nil_of_length_pos (hlen ▸ hpos)
  have hoccur := occurring_length_le_source xs
  have hseven : (sourceBits xs).length ≤ 7 * source.length :=
    hlen ▸ sourceBits_length_le xs hxs' 7 (occurring_length_le _)
  refine ⟨?_, hseven⟩
  rw [packBits_length]
  by_cases hone : source.length = 1
  · have hnone := sourceBits_length_le xs hxs' 0 (by omega)
    omega
  · by_cases hfew : source.length < 8
    · have hthree := sourceBits_length_le xs hxs' 3 (by omega)
      omega
    · omega

end Sys2Proof.Machine
end

section
/-! # Proofs: the refusals (O24, O35, O45) -/

namespace Sys2Proof.Machine

/-- TW_STEP makes no micro-step outside RUNNING (60_exceptions.md R264). -/
theorem exec_twStep_of_not_running (s : State) (hs : s.twState ≠ .running) :
    exec .twStep s = .next (refuse .notRunning s) :=
  if_neg hs

/-- Settles O24: both commands are refused, and the cause's mask is ERR bit 3. -/
theorem stepAndRunOutsideRunningAreRefused : Obligations.StepAndRunOutsideRunningAreRefused := by
  intro s hs
  rw [exec_twStep_of_not_running s hs, exec_twRun_of_not_running s hs, refuse_notRunning_eq]
  exact ⟨rfl, rfl⟩

theorem refuse_illegalCmd_eq (s : State) :
    refuse .illegalCmd s = { s with result := Result.ofCode .illegalCmd, err := s.err ||| 0x01 } :=
  refuse_eq .illegalCmd .illegalCmd rfl s

/-- Settles O35: index 0 takes the word as a command, and one that does not decode is refused. -/
theorem illegalCommandIsRefused : Obligations.IllegalCommandIsRefused := by
  intro w r s h
  calc exec (.hwrite 0x000 w) s
      = execCommand w s := rfl
    _ = .next (refuse .illegalCmd s) := execCommand_of_error w r s h
    _ = _ := by rw [refuse_illegalCmd_eq]

/-- A write to TW_ROOT, either half of TW_TOTAL or the tree-memory window is behind the tree lock
(43_system.md R204). -/
theorem exec_hwrite_locked (a : PortIndex) (d : Word) (s : State)
    (ha : a = 0x004 ∨ a = 0x005 ∨ a = 0x006 ∨ (0x100 ≤ a ∧ a ≤ 0x1FE)) :
    ∃ u, exec (.hwrite a d) s = .next (lockedWrite s u) := by
  rcases ha with rfl | rfl | rfl | ⟨hlo, hhi⟩
  · exact ⟨_, rfl⟩
  · exact ⟨_, rfl⟩
  · exact ⟨_, rfl⟩
  · obtain ⟨hi, hreg⟩ := regAt_window a hlo hhi
    rw [exec, execHwrite, hreg]
    exact ⟨_, rfl⟩

/-- Settles O45: the three commands are refused with BUSY, and the tree lock drops the writes with the flag alone. -/
theorem busyProtectsTheWalk : Obligations.BusyProtectsTheWalk := by
  intro s hs
  refine ⟨fun i hi => ?_, fun a d ha => ?_⟩
  · rw [exec_of_running i (by simpa using hi) s hs, refuse_busy_eq]
  · obtain ⟨u, hwrite⟩ := exec_hwrite_locked a d s ha
    rw [hwrite, lockedWrite_running s u hs]
    rfl

end Sys2Proof.Machine
end
